-- ==== Sys2Proof/Word.lean ====
section
/-!
DEFINITION. The words of HUFCORE: the fixed widths of spec rule R4, each a bit vector, since the spec shifts, slices or
adds every one of them (R5: every quantity is an unsigned integer of a stated width).
-/
namespace Sys2Proof

/-- A command word or a status-port data word: CMDW = STATW = 32 bits (R4). -/
abbrev Word := BitVec 32

/-- A byte of an artifact (R88). -/
abbrev Byte := BitVec 8

/-- A symbol: SYMW = 8 bits, 0..255 (R4). -/
abbrev Sym := BitVec 8

/-- One entry of the frequency table: FREQW = 32 bits (R4). -/
abbrev Count := BitVec 32

/-- A node weight: WEIGHTW = 40 bits (R4). -/
abbrev Weight := BitVec 40

/-- A node index: IDXW = 9 bits (R4). -/
abbrev NodeIdx := BitVec 9

/-- A payload bit counter: LENW = 64 bits (R4). -/
abbrev BitLen := BitVec 64

/-- A status-port word address: STATAW = 13 bits (R4). -/
abbrev StatAddr := BitVec 13

/-- A bit string in the order its bits are produced or consumed, first bit at the head (R6). -/
abbrev BitString := List Bool

end Sys2Proof
end

