-- ==== Sys2Proof/Config.lean ====
section
/-!
DEFINITION. What the implementation fixes (spec rules R1, R4, R25). The spec leaves no value open (93 part 2), so there is
no free value here.
-/
namespace Sys2Proof.Config

/-- NSYM: the alphabet capacity, 2 ^ SYMW (R4). -/
abbrev nsym : Nat := 256

/-- NODEMAX: the number of node memory entries, 2 * NSYM - 1 (R4). -/
abbrev nodeMax : Nat := 511

/-- CODEMAX: the longest code in bits, NSYM - 1 (R4). -/
abbrev codeMax : Nat := 255

/-- The identification word, "HUF" and format version 1 (R1, R25). -/
abbrev idWord : Word := 0x48554601#32

/-- MAGIC: the artifact tag, byte by byte (R4, R88 item 1). -/
abbrev magic : List Byte := [0x48#8, 0x55#8, 0x46#8, 0x01#8]

end Sys2Proof.Config
end

