-- ==== Sys2Proof/Syntax.lean ====
section
/-!
DEFINITION. The eleven commands of the command table (spec rule R83, spec/opcode_table.json), one constructor per row, with
the operands of rule R82 at their exact widths: a symbol, an artifact byte, or the one immediate bit of CFG.
-/
namespace Sys2Proof

inductive Instr where
  /-- NOP (R101): no effect. -/
  | nop
  /-- RST (R102): start a new call. -/
  | rst
  /-- CFG imm (R103): set the policy bit CTRL.EMPTYERR. -/
  | cfg (imm : BitVec 1)
  /-- CNT sym (R110): count one occurrence of a symbol. -/
  | cnt (sym : Sym)
  /-- BUILD (R116): build the tree from the frequency table. -/
  | build
  /-- GEN (R131): generate the code table from the tree. -/
  | gen
  /-- EMITH (R141): emit the artifact header. -/
  | emith
  /-- ENC sym (R142): pack the code of one symbol. -/
  | enc (sym : Sym)
  /-- FLUSH (R143): check the length and pad the last byte. -/
  | flush
  /-- DBYTE byte (R160): take the next artifact byte. -/
  | dbyte (byte : Byte)
  /-- DEND (R168): the artifact has ended. -/
  | dend
  deriving DecidableEq, Repr

/-- The commands of COMPRESS p, S (R87): the document's `compress`. -/
def Instr.compress (p : BitVec 1) (syms : List Sym) : List Instr :=
  [.rst, .cfg p] ++ syms.map .cnt ++ [.build, .gen, .emith] ++ syms.map .enc ++ [.flush]

/-- The commands of DECOMPRESS B (R87): the document's `decompress`. -/
def Instr.decompress (bytes : List Byte) : List Instr :=
  [.rst] ++ bytes.map .dbyte ++ [.dend]

end Sys2Proof
end

