-- ==== Sys2Proof/WellFormed.lean ====
section
/-!
DEFINITION. Which command words are well formed (spec rules R81, R83, R84), written as the three checks of rule R84 and
apart from the decoder. A term of `Instr` needs no check of its own: its operands are typed at the widths of rule R82, so
every term is a command; what can be ill formed is a word.
-/
namespace Sys2Proof

/-- The formats of the command words (R81); CFG is format A with bits 7:1 also required to be 0 (R82). -/
inductive Format where
  | z
  | a
  | cfg
  deriving DecidableEq, Repr

/-- The format of each `op` value in use; `none` for an unused one (R83). -/
def formatOf (op : BitVec 8) : Option Format :=
  if op ∈ [0x00#8, 0x01#8, 0x11#8, 0x12#8, 0x20#8, 0x22#8, 0x31#8] then some .z
  else if op ∈ [0x10#8, 0x21#8, 0x30#8] then some .a
  else if op = 0x02#8 then some .cfg
  else none

/-- The bits of a word that its format requires to be 0 (R81, R82). -/
def Format.zeroMask : Format → Word
  | .z => 0x00FFFFFF#32
  | .a => 0x00FFFF00#32
  | .cfg => 0x00FFFFFE#32

/-- A word is a command: its `op` is in use and every "must be 0" bit of its format is 0 (R84). -/
def WellFormed (w : Word) : Bool :=
  match formatOf (w.extractLsb' 24 8) with
  | some f => w &&& f.zeroMask == 0#32
  | none => false

end Sys2Proof
end

