-- ==== Sys2Proof/Decode.lean ====
section
/-!
DEFINITION. The decoder of spec rule R85, total on all 2^32 words and rejecting the reserved ones by name (R84), and the
encoder of rules R81 to R83.
-/
namespace Sys2Proof

/-- Why a word is reserved (R84). The machine raises IllegalCommand for each alike. -/
inductive Reserved where
  /-- `op` is none of the eleven values of R83. -/
  | unusedOp
  /-- The format's zero field is not 0. -/
  | nonzeroField
  /-- A CFG word with any of bits 7:1 set. -/
  | cfgOperand
  deriving DecidableEq, Repr

/-- The field `op`, bits 31:24 (R81). -/
def opField (w : Word) : BitVec 8 := w.extractLsb' 24 8

/-- The field `arg` of format A, bits 7:0 (R81, R82). -/
def argField (w : Word) : BitVec 8 := w.extractLsb' 0 8

/-- A format Z command (R81): bits 23:0 must be 0. -/
def decodeZ (w : Word) (i : Instr) : Except Reserved Instr :=
  if w.extractLsb' 0 24 = 0#24 then .ok i else .error .nonzeroField

/-- A format A command (R81): bits 23:8 must be 0. -/
def decodeA (w : Word) (f : BitVec 8 → Instr) : Except Reserved Instr :=
  if w.extractLsb' 8 16 = 0#16 then .ok (f (argField w)) else .error .nonzeroField

/-- CFG (R82, R85): format A whose bits 7:1 must be 0 as well, so that bits 23:1 are 0. -/
def decodeCfg (w : Word) : Except Reserved Instr :=
  if w.extractLsb' 8 16 = 0#16 then
    if w.extractLsb' 1 7 = 0#7 then .ok (.cfg (w.extractLsb' 0 1)) else .error .cfgOperand
  else .error .nonzeroField

/-- R85: the command a word stands for, or why it is reserved. -/
def decode (w : Word) : Except Reserved Instr :=
  if opField w = 0x00#8 then decodeZ w .nop
  else if opField w = 0x01#8 then decodeZ w .rst
  else if opField w = 0x02#8 then decodeCfg w
  else if opField w = 0x10#8 then decodeA w .cnt
  else if opField w = 0x11#8 then decodeZ w .build
  else if opField w = 0x12#8 then decodeZ w .gen
  else if opField w = 0x20#8 then decodeZ w .emith
  else if opField w = 0x21#8 then decodeA w .enc
  else if opField w = 0x22#8 then decodeZ w .flush
  else if opField w = 0x30#8 then decodeA w .dbyte
  else if opField w = 0x31#8 then decodeZ w .dend
  else .error .unusedOp

/-- A format Z word (R81). -/
def wordZ (op : BitVec 8) : Word := op ++ 0#24

/-- A format A word (R81). -/
def wordA (op arg : BitVec 8) : Word := op ++ 0#16 ++ arg

/-- R83: the one word of each command. -/
def encode : Instr → Word
  | .nop => wordZ 0x00#8
  | .rst => wordZ 0x01#8
  | .cfg imm => wordA 0x02#8 (imm.setWidth 8)
  | .cnt sym => wordA 0x10#8 sym
  | .build => wordZ 0x11#8
  | .gen => wordZ 0x12#8
  | .emith => wordZ 0x20#8
  | .enc sym => wordA 0x21#8 sym
  | .flush => wordZ 0x22#8
  | .dbyte byte => wordA 0x30#8 byte
  | .dend => wordZ 0x31#8

/-- The 32-bit word of a table row's bits: the bits above the row's own are 0 (R80: every command is exactly 32 bits). -/
def tableWord (nbits w : Nat) : Word := BitVec.ofNat 32 (w % 2 ^ nbits)

/-- The command the decoder reads from a word given as opcode_table.json numbers its bits. -/
def decodeTableWord (nbits w : Nat) : Option Instr :=
  match decode (tableWord nbits w) with
  | .ok i => some i
  | .error _ => none

end Sys2Proof
end

