-- ==== Sys2Proof/Machine/State.lean ====
section
/-!
DEFINITION. The state of HUFCORE: every register, memory and stream of spec rules R21 to R34, as plain data, with what the
host has presented; the state after reset (R40, R220); and the reasons a step can stop.
-/
namespace Sys2Proof.Machine

/-- A sparse memory: (index, entry) pairs with rising indices, none equal to the entry an unlisted index reads as. -/
abbrev Memory (α : Type) := List (Nat × α)

/-- PHASE (R22): where in a call the block is. The 4-bit codes are `Phase.code`; 10 to 15 are never written. -/
inductive Phase where
  /-- 0, IDLE: after reset; nothing counted, nothing parsed. -/
  | idle
  /-- 1, COUNT: at least one CNT done. -/
  | count
  /-- 2, TREE: tree built, code table not yet generated. -/
  | tree
  /-- 3, TABLE: code table generated, header not yet emitted. -/
  | table
  /-- 4, ENCODE: header emitted, payload being packed. -/
  | encode
  /-- 5, EDONE: encode call complete. -/
  | edone
  /-- 6, DHDR: one or more header bytes taken, header not complete. -/
  | dhdr
  /-- 7, DPAY: header complete, payload bits still to come. -/
  | dpay
  /-- 8, DTAIL: every declared payload bit consumed; waiting for DEND. -/
  | dtail
  /-- 9, DDONE: decode call complete. -/
  | ddone
  deriving DecidableEq, Repr

/-- ERR (R23, R191): the fault code of the call. The 4-bit codes are `Err.code`; 8 to 15 are never written. -/
inductive Err where
  /-- 0: no fault. -/
  | noFault
  /-- 1: BUILD of an empty table under EMPTYERR (R192). -/
  | emptyInput
  /-- 2: ENC of a symbol without a table entry (R193). -/
  | unsupportedSymbol
  /-- 3: an unsound artifact, found by DBYTE or DEND (R194). -/
  | corruptArtifact
  /-- 4: a reserved word (R196). -/
  | illegalCommand
  /-- 5: a command outside its accepted phases (R197). -/
  | sequence
  /-- 6: CNT of an entry at 2^32 - 1 (R198). -/
  | countOverflow
  /-- 7: the encode pass differs from the count pass (R199). -/
  | lengthMismatch
  deriving DecidableEq, Repr

/-- One NODE entry (R27). -/
structure Node where
  leaf : Bool
  sym : Sym
  weight : Weight
  left : NodeIdx
  right : NodeIdx
  deriving DecidableEq, Repr

/-- The reset value of a NODE entry: all fields 0 (R27). -/
def Node.zero : Node := ⟨false, 0#8, 0#40, 0#9, 0#9⟩

/-- One CODE entry (R29): its length, and its bits left-aligned in 256. -/
structure CodeEntry where
  clen : BitVec 8
  cbits : BitVec 256
  deriving DecidableEq, Repr

/-- The reset value of a CODE entry: no table entry (R29). -/
def CodeEntry.zero : CodeEntry := ⟨0#8, 0#256⟩

/-- What the host does to the block (R227), one thing at a time and only between commands (R69). -/
inductive HostEvent where
  /-- A word at the command port. -/
  | command (w : Word)
  /-- A word address at the status port (R62). -/
  | statRead (a : StatAddr)
  /-- The reset line (R220). -/
  | hardReset
  deriving DecidableEq, Repr

structure State where
  /-- CTRL, bit 0 EMPTYERR (R21). -/
  ctrl : BitVec 1
  /-- PHASE (R22). -/
  phase : Phase
  /-- ERR (R23). -/
  err : Err
  /-- EINFO (R24). -/
  einfo : Word
  /-- FREQ[0..255] (R26); an unlisted entry is 0. -/
  freq : Memory Count
  /-- NODE[0..510] (R27); an unlisted entry is `Node.zero`. -/
  node : Memory Node
  /-- NLEAF (R28). -/
  nleaf : BitVec 9
  /-- NN (R28). -/
  nn : BitVec 9
  /-- ROOT (R28). -/
  root : NodeIdx
  /-- CODE[0..255] (R29); an unlisted entry is `CodeEntry.zero`. -/
  code : Memory CodeEntry
  /-- DLEN (R30). -/
  dlen : BitLen
  /-- BITCNT (R30). -/
  bitcnt : BitLen
  /-- ACC (R31). -/
  acc : Byte
  /-- WALK (R32). -/
  walk : NodeIdx
  /-- HCNT (R33). -/
  hcnt : BitVec 11
  /-- HN (R33). -/
  hn : BitVec 16
  /-- HSYM (R33). -/
  hsym : Sym
  /-- HSHIFT (R33). -/
  hshift : BitLen
  /-- OUTB, oldest item first (R34). -/
  outb : List Byte
  /-- OUTS, oldest item first (R34). -/
  outs : List Sym
  /-- The model's own: what the host has presented and the block has not yet taken, oldest first (log entry 1). -/
  host : List HostEvent
  /-- The model's own: the word the status port shows, the answer to the last status read (log entry 4). -/
  statData : Word
  deriving DecidableEq, Repr

/-- The state after hardware reset (R40, R220): everything 0, both streams empty, and nothing presented yet. -/
def State.reset : State where
  ctrl := 0#1
  phase := .idle
  err := .noFault
  einfo := 0#32
  freq := []
  node := []
  nleaf := 0#9
  nn := 0#9
  root := 0#9
  code := []
  dlen := 0#64
  bitcnt := 0#64
  acc := 0#8
  walk := 0#9
  hcnt := 0#11
  hn := 0#16
  hsym := 0#8
  hshift := 0#64
  outb := []
  outs := []
  host := []
  statData := 0#32

/-- Why the MODEL stops. None of these is a fault of the spec: those are codes in ERR, and the machine goes on (R190). Both
stand for states no run reaches, in which the spec's pseudocode has no effect to give. -/
inductive Fault where
  /-- Raised by GEN and by a payload DBYTE that would read NODE[511]: NODE has entries 0 to 510 only (R27, R65). Safe. -/
  | noSuchNode
  /-- Raised by GEN when the traversal would go below depth 255: no CLEN holds such a code and the traversal need not end
  (R130 derives that neither happens on a tree). Safe. -/
  | codeTooLong
  deriving DecidableEq, Repr

/-- Why the model gives an instruction no meaning. -/
inductive Refusal where
  /-- Answered by an arm of `exec` whose instruction has no meaning yet, under the table's name for it. Safe. -/
  | notModelled (mnemonic : String)
  deriving DecidableEq, Repr

/-- How a command's own rule ends early: `raise E` of the spec (R190), or a stop of the model. -/
inductive Halt where
  | raised (e : Err)
  | stopped (f : Fault)
  deriving DecidableEq, Repr

/-- The outcome of one step. -/
abbrev Outcome := Host.Outcome State Fault Refusal

/-- What a command's own rule does to the state (step 5 of R100). -/
abbrev Effect := Except Halt State

end Sys2Proof.Machine
end

