-- ==== Sys2Proof/Machine/Ops.lean ====
section
/-!
DEFINITION. The named operations over memory, registers and streams; `raise` (spec rule R190); which phases accept a
command and the steps every command goes through (R100); and the return from a fault, which is RST (R102, R202).
-/
namespace Sys2Proof.Machine

section Memory
variable {α : Type}

/-- The entry at index `a`; an unlisted one is `d`, its reset value. -/
def Memory.read (d : α) : Memory α → Nat → α
  | [], _ => d
  | (b, x) :: m, a => if a = b then x else Memory.read d m a

/-- The memory without an entry at index `a`. -/
def Memory.erase (a : Nat) : Memory α → Memory α
  | [] => []
  | (b, x) :: m => if a = b then Memory.erase a m else (b, x) :: Memory.erase a m

/-- An entry put in its place by rising index. -/
def Memory.insert (a : Nat) (v : α) : Memory α → Memory α
  | [] => [(a, v)]
  | (b, x) :: m => if a < b then (a, v) :: (b, x) :: m else (b, x) :: Memory.insert a v m

/-- One entry written; writing the reset value unlists the entry. -/
def Memory.write [DecidableEq α] (d : α) (m : Memory α) (a : Nat) (v : α) : Memory α :=
  if v = d then Memory.erase a m else Memory.insert a v (Memory.erase a m)

/-- The canonical form from index `lo` up: rising indices below `size`, no entry equal to `d`. -/
def Memory.wfFrom [DecidableEq α] (d : α) (size : Nat) : Nat → Memory α → Bool
  | _, [] => true
  | lo, (a, v) :: m => lo ≤ a && a < size && !(v == d) && Memory.wfFrom d size (a + 1) m

/-- The canonical form of a memory of `size` entries that reset to `d`. -/
def Memory.wf [DecidableEq α] (d : α) (size : Nat) (m : Memory α) : Bool := Memory.wfFrom d size 0 m

end Memory

/-- FREQ[i] (R26). -/
def readFreq (m : Memory Count) (i : Nat) : Count := Memory.read 0#32 m i

/-- FREQ[i] <- c (R26). -/
def writeFreq (m : Memory Count) (i : Nat) (c : Count) : Memory Count := Memory.write 0#32 m i c

/-- NODE[i] for an index known to be in range (R27). -/
def readNode (m : Memory Node) (i : Nat) : Node := Memory.read Node.zero m i

/-- NODE[i] <- x (R27). -/
def writeNode (m : Memory Node) (i : Nat) (x : Node) : Memory Node := Memory.write Node.zero m i x

/-- NODE[i] for an index held in a register or a child field: index 511 names no entry (R27, R65). -/
def fetchNode (m : Memory Node) (i : NodeIdx) : Except Halt Node :=
  if i.toNat < Config.nodeMax then .ok (readNode m i.toNat) else .error (.stopped .noSuchNode)

/-- CODE[s] (R29). -/
def readCode (m : Memory CodeEntry) (s : Sym) : CodeEntry := Memory.read CodeEntry.zero m s.toNat

/-- CODE[s] <- e (R29). -/
def writeCode (m : Memory CodeEntry) (s : Sym) (e : CodeEntry) : Memory CodeEntry :=
  Memory.write CodeEntry.zero m s.toNat e

/-- EmitByte for each byte in order (R7, R34). -/
def emitBytes (bs : List Byte) (s : State) : State := { s with outb := s.outb ++ bs }

/-- EmitByte (R7, R34). -/
def emitByte (b : Byte) (s : State) : State := emitBytes [b] s

/-- EmitSym (R7, R34). -/
def emitSym (x : Sym) (s : State) : State := { s with outs := s.outs ++ [x] }

/-- `raise E` in the execution of the word `w` (R190), applied to the state before the command: the code and the word are
recorded and nothing else changes, so that whatever the command wrote or emitted is discarded. -/
def raise (e : Err) (w : Word) (s : State) : State := { s with err := e, einfo := w }

/-- The phases that accept a command (the table Accept of R100). -/
def accepts : Instr → Phase → Bool
  | .nop, _ => true
  | .rst, _ => true
  | .cfg _, p => p == .idle || p == .count
  | .cnt _, p => p == .idle || p == .count
  | .build, p => p == .idle || p == .count
  | .gen, p => p == .tree
  | .emith, p => p == .table
  | .enc _, p => p == .encode
  | .flush, p => p == .encode
  | .dbyte _, p => p == .idle || p == .dhdr || p == .dpay || p == .dtail
  | .dend, p => p == .idle || p == .dhdr || p == .dpay || p == .dtail

/-- Steps 2, 4 and 5 of R100 for a command other than RST: ignored after a fault (R201), a Sequence fault outside its phases
(R197), else the command's own rule, whose raise discards all it did (R190). -/
def execute (i : Instr) (rule : State → Effect) (s : State) : Outcome :=
  if s.err = .noFault then
    if accepts i s.phase then
      match rule s with
      | .ok t => .next t
      | .error (.raised e) => .next (raise e (encode i) s)
      | .error (.stopped f) => .fault f
    else .next (raise .sequence (encode i) s)
  else .next s

/-- A reserved word (R84, R196): IllegalCommand, unless a fault already stands, when it is ignored (R201). -/
def illegalWord (w : Word) (s : State) : State :=
  if s.err = .noFault then raise .illegalCommand w s else s

/-- Every register and memory entry takes its reset value; the streams keep what was emitted (R34, R40, R102). -/
def clearCall (s : State) : State :=
  { State.reset with outb := s.outb, outs := s.outs, host := s.host, statData := s.statData }

end Sys2Proof.Machine
end

