-- ==== Sys2Proof/Machine/Operands.lean ====
section
/-!
DEFINITION. How operands and multi-bit fields are put together: bits of a byte and bit strings (spec rules R6, R29, R63),
big-endian fields (R64), single-bit placement (R140), and the list of all symbols.
-/
namespace Sys2Proof.Machine

/-- The indices 0 .. 255 ascending: every symbol (R4). -/
def allSymbols : List Nat := List.range Config.nsym

/-- The symbol with value `i`. -/
def symOf (i : Nat) : Sym := BitVec.ofNat 8 i

/-- `w[i] <- b` (R5, R7). -/
def setBit {n : Nat} (w : BitVec n) (i : Nat) (b : Bool) : BitVec n :=
  if b then w ||| (1#n <<< i) else w &&& ~~~(1#n <<< i)

/-- The eight bits of a byte, most significant first (R63). -/
def bitsOf (b : Byte) : BitString :=
  [b.getLsbD 7, b.getLsbD 6, b.getLsbD 5, b.getLsbD 4, b.getLsbD 3, b.getLsbD 2, b.getLsbD 1, b.getLsbD 0]

/-- The `k` low bytes of a field, most significant first (R64). -/
def bigEndian {n : Nat} : Nat → BitVec n → List Byte
  | 0, _ => []
  | k + 1, v => v.extractLsb' (8 * k) 8 :: bigEndian k v

/-- `((v << 8) | b)` cut to the width of `v` (R13, R161). -/
def shiftIn {n : Nat} (v : BitVec n) (b : Byte) : BitVec n := (v <<< 8) ||| b.setWidth n

/-- Code bits written into CBITS from bit `255 - j` down (SetCode, R130). -/
def placeBits : Nat → BitString → BitVec 256 → BitVec 256
  | _, [], w => w
  | j, b :: c, w => placeBits (j + 1) c (setBit w (255 - j) b)

/-- SetCode's two fields for a bit string: its length, and its bits left-aligned over zeros (R29, R130). -/
def codeEntry (c : BitString) : CodeEntry := ⟨BitVec.ofNat 8 c.length, placeBits 0 c 0#256⟩

/-- The bit string of a CODE entry: bit `j` is `CBITS[255 - j]` (Lookup, R134). -/
def codeBits (e : CodeEntry) : BitString :=
  (List.range e.clen.toNat).map fun j => e.cbits.getLsbD (255 - j)

/-- Lookup(s): the bit string of a symbol, empty when it has no table entry (R134). -/
def lookup (m : Memory CodeEntry) (s : Sym) : BitString := codeBits (readCode m s)

end Sys2Proof.Machine
end

