-- ==== Sys2Proof/Machine/Control.lean ====
section
/-!
DEFINITION. The control commands NOP, RST and CFG (spec rules R101 to R103).
-/
namespace Sys2Proof.Machine

/-- NOP (R101): accepted in every phase; writes no state and emits nothing. -/
def execNop (s : State) : Outcome := execute .nop (fun t => .ok t) s

/-- RST (R100 step 1, R102): in every phase and even after a fault, every register and memory to its reset value. -/
def execRst (s : State) : Outcome := .next (clearCall s)

/-- CFG's own rule (R103): `CTRL.EMPTYERR <- imm`. -/
def cfgRule (imm : BitVec 1) (s : State) : Effect := .ok { s with ctrl := imm }

/-- CFG imm (R103). -/
def execCfg (imm : BitVec 1) (s : State) : Outcome := execute (.cfg imm) (cfgRule imm) s

end Sys2Proof.Machine
end

