-- ==== Sys2Proof/Machine/Tree.lean ====
section
/-!
DEFINITION. The frequency counter and the tree builder: CNT (spec rule R110), the priority queue (R111), BuildTree (R112)
and BUILD (R116).
-/
namespace Sys2Proof.Machine

/-- CNT's own rule (R110): the count never wraps. -/
def cntRule (sym : Sym) (s : State) : Effect :=
  let c := readFreq s.freq sym.toNat
  if c = 0xFFFFFFFF#32 then .error (.raised .countOverflow)
  else .ok { s with freq := writeFreq s.freq sym.toNat (c + 1#32), phase := .count }

/-- CNT sym (R110). -/
def execCnt (sym : Sym) (s : State) : Outcome := execute (.cnt sym) (cntRule sym) s

/-- Node `i` comes before node `j` in the queue: the smaller weight, or the smaller index at equal weights (R111). -/
def before (m : Memory Node) (i j : Nat) : Bool :=
  let wi := (readNode m i).weight
  let wj := (readNode m j).weight
  wi < wj || (wi == wj && i < j)

/-- The member that comes before all others of a queue with head `i` (R111). -/
def minOf (m : Memory Node) : Nat → List Nat → Nat
  | i, [] => i
  | i, j :: q => minOf m (if before m j i then j else i) q

/-- PopMin(Q): the first member in queue order, and the queue without it; `none` for the empty queue (R111). -/
def popMin (m : Memory Node) : List Nat → Option (Nat × List Nat)
  | [] => none
  | i :: q =>
    let a := minOf m i q
    some (a, (i :: q).erase a)

/-- NODE and the number `n` of nodes placed so far, inside one BuildTree (R112). -/
structure Forest where
  nodes : Memory Node
  n : Nat
  deriving DecidableEq, Repr

/-- A leaf for a symbol with its count (R112). -/
def leafNode (i : Nat) (c : Count) : Node := ⟨true, symOf i, c.setWidth 40, 0#9, 0#9⟩

/-- The merger of `a`, popped first, and `b`, popped second: `b` becomes the left child, `a` the right one (R112). -/
def mergedNode (m : Memory Node) (a b : Nat) : Node :=
  ⟨false, 0#8, (readNode m a).weight + (readNode m b).weight, BitVec.ofNat 9 b, BitVec.ofNat 9 a⟩

/-- `NODE[n] <- x` and `n <- n + 1` (R112). -/
def Forest.push (f : Forest) (x : Node) : Forest := ⟨writeNode f.nodes f.n x, f.n + 1⟩

/-- One leaf for symbol `i` if it is present (R112). -/
def addLeaf (freq : Memory Count) (f : Forest) (i : Nat) : Forest :=
  let c := readFreq freq i
  if c = 0#32 then f else f.push (leafNode i c)

/-- One leaf per present symbol, in ascending order of symbol (R112, R113). -/
def placeLeaves (freq : Memory Count) (nodes : Memory Node) : Forest :=
  allSymbols.foldl (addLeaf freq) ⟨nodes, 0⟩

/-- The merging loop of R112: while the queue has more than one member, merge the two lowest. Each turn shortens the queue,
so a bound of its length is never reached. -/
def mergeAll : Nat → Forest → List Nat → Forest
  | 0, f, _ => f
  | k + 1, f, q =>
    match popMin f.nodes q with
    | none => f
    | some (a, q₁) =>
      match popMin f.nodes q₁ with
      | none => f
      | some (b, q₂) => mergeAll k (f.push (mergedNode f.nodes a b)) (q₂ ++ [f.n])

/-- The leaves and then the mergers, with all the leaves in the queue in index order (R112). -/
def growForest (freq : Memory Count) (nodes : Memory Node) : Forest :=
  let leaves := placeLeaves freq nodes
  mergeAll leaves.n leaves (List.range leaves.n)

/-- BuildTree() (R112): reads FREQ, writes NODE, NLEAF, NN, ROOT and WALK. -/
def buildTree (s : State) : State :=
  let f := growForest s.freq s.node
  let root : NodeIdx := if f.n = 0 then 0#9 else BitVec.ofNat 9 (f.n - 1)
  { s with
    node := f.nodes
    nleaf := BitVec.ofNat 9 (placeLeaves s.freq s.node).n
    nn := BitVec.ofNat 9 f.n
    root := root
    walk := root }

/-- Every FREQ entry is 0: no symbol is present (R116). -/
def freqEmpty (m : Memory Count) : Bool := allSymbols.all fun i => readFreq m i == 0#32

/-- BUILD's own rule (R116). -/
def buildRule (s : State) : Effect :=
  if freqEmpty s.freq && s.ctrl == 1#1 then .error (.raised .emptyInput)
  else .ok { buildTree s with phase := .tree }

/-- BUILD (R116). -/
def execBuild (s : State) : Outcome := execute .build buildRule s

end Sys2Proof.Machine
end

