-- ==== Sys2Proof/Machine/Decoder.lean ====
section
/-!
DEFINITION. The bit-serial decoder: the header parser (spec rules R161, R162), the tree walk (R163 to R165), DBYTE (R160)
and DEND (R168).
-/
namespace Sys2Proof.Machine

/-- `raise CorruptArtifact` (R194). -/
def corrupt : Effect := .error (.raised .corruptArtifact)

/-- The end of HeaderByte for every byte but the last: `HCNT <- k + 1`, `PHASE <- DHDR` (R161). -/
def headerTaken (s : State) : State := { s with hcnt := s.hcnt + 1#11, phase := .dhdr }

/-- Item 1, the byte at offset `k <= 3` (R161). -/
def magicByte (b : Byte) (s : State) : Effect :=
  if Config.magic[s.hcnt.toNat]? = some b then .ok (headerTaken s) else corrupt

/-- Item 2, the bytes at offsets 4 and 5 (R161). -/
def sizeByte (b : Byte) (s : State) : Effect :=
  let hn := shiftIn s.hn b
  if s.hcnt.toNat = 5 ∧ hn.toNat > 256 then corrupt else .ok (headerTaken { s with hn := hn })

/-- Item 3, byte `o` of pair `j` (R161). -/
def pairByte (b : Byte) (s : State) : Effect :=
  let j := (s.hcnt.toNat - 6) / 5
  let o := (s.hcnt.toNat - 6) % 5
  if o = 0 then
    if j > 0 ∧ b ≤ s.hsym then corrupt else .ok (headerTaken { s with hsym := b })
  else if o ≤ 3 then .ok (headerTaken { s with hshift := shiftIn s.hshift b })
  else
    let v : Count := (shiftIn s.hshift b).setWidth 32
    if v = 0#32 then corrupt
    else .ok (headerTaken { s with freq := writeFreq s.freq s.hsym.toNat v, hshift := 0#64 })

/-- HeaderEnd(v) (R162): the tree is rebuilt from the parsed table. -/
def headerEnd (v : BitLen) (s : State) : Effect :=
  let t := buildTree { s with dlen := v, hshift := 0#64 }
  if t.nleaf = 0#9 ∧ t.dlen ≠ 0#64 then corrupt
  else .ok { t with bitcnt := 0#64, hcnt := t.hcnt + 1#11, phase := if t.dlen = 0#64 then .dtail else .dpay }

/-- Item 4, the declared length (R161). -/
def lengthByte (b : Byte) (s : State) : Effect :=
  let v := shiftIn s.hshift b
  if s.hcnt.toNat < 13 + 5 * s.hn.toNat then .ok (headerTaken { s with hshift := v }) else headerEnd v s

/-- HeaderByte(b) (R161). -/
def headerByte (b : Byte) (s : State) : Effect :=
  if s.hcnt.toNat ≤ 3 then magicByte b s
  else if s.hcnt.toNat ≤ 5 then sizeByte b s
  else if s.hcnt.toNat < 6 + 5 * s.hn.toNat then pairByte b s
  else lengthByte b s

/-- `BITCNT <- BITCNT + 1` (R163). -/
def bitTaken (s : State) : State := { s with bitcnt := s.bitcnt + 1#64 }

/-- DecBit(b) (R163): one step of the tree walk; a single-leaf tree takes only 0 bits (R165). -/
def decBit (b : Bool) (s : State) : Effect :=
  match fetchNode s.node s.root with
  | .error h => .error h
  | .ok r =>
    if r.leaf then
      if b then corrupt else .ok (bitTaken (emitSym r.sym s))
    else
      match fetchNode s.node s.walk with
      | .error h => .error h
      | .ok w =>
        let nxt := if b then w.right else w.left
        match fetchNode s.node nxt with
        | .error h => .error h
        | .ok x =>
          if x.leaf then .ok (bitTaken { emitSym x.sym s with walk := s.root })
          else .ok (bitTaken { s with walk := nxt })

/-- One bit of a payload byte (R164): a declared bit is walked and must end at a symbol boundary; a pad bit must be 0. -/
def payloadBit (b : Bool) (s : State) : Effect :=
  if s.bitcnt < s.dlen then
    match decBit b s with
    | .error h => .error h
    | .ok t => if t.bitcnt = t.dlen ∧ t.walk ≠ t.root then corrupt else .ok t
  else if b then corrupt else .ok s

/-- The bits of a payload byte in order, up to the first that raises (R164, R200). -/
def payloadBits : BitString → State → Effect
  | [], s => .ok s
  | b :: bs, s =>
    match payloadBit b s with
    | .error h => .error h
    | .ok t => payloadBits bs t

/-- PayloadByte(b) (R164). -/
def payloadByte (b : Byte) (s : State) : Effect :=
  match payloadBits (bitsOf b) s with
  | .error h => .error h
  | .ok t => .ok (if t.bitcnt = t.dlen then { t with phase := .dtail } else t)

/-- DBYTE's own rule (R160); the phases of the last arm do not accept the command. -/
def dbyteRule (b : Byte) (s : State) : Effect :=
  match s.phase with
  | .idle => headerByte b s
  | .dhdr => headerByte b s
  | .dpay => payloadByte b s
  | .dtail => corrupt
  | .count | .tree | .table | .encode | .edone | .ddone => .error (.raised .sequence)

/-- DBYTE byte (R160). -/
def execDbyte (b : Byte) (s : State) : Outcome := execute (.dbyte b) (dbyteRule b) s

/-- DEND's own rule (R168): right in DTAIL; a cut header or payload otherwise. -/
def dendRule (s : State) : Effect :=
  if s.phase = .dtail then .ok { s with phase := .ddone } else corrupt

/-- DEND (R168). -/
def execDend (s : State) : Outcome := execute .dend dendRule s

end Sys2Proof.Machine
end

