-- ==== Sys2Proof/Machine/Encoder.lean ====
section
/-!
DEFINITION. The bit-serial encoder: PutBit (spec rule R140), EMITH (R141), ENC (R142) and FLUSH (R143).
-/
namespace Sys2Proof.Machine

/-- PutBit(b) (R140): the first bit of a byte lands in bit 7; a full byte leaves on OUTB. -/
def putBit (s : State) (b : Bool) : State :=
  let acc := setBit s.acc (7 - s.bitcnt.toNat % 8) b
  let cnt := s.bitcnt + 1#64
  if cnt.toNat % 8 = 0 then { emitByte acc s with acc := 0#8, bitcnt := cnt }
  else { s with acc := acc, bitcnt := cnt }

/-- PutBit for each bit of a string, first bit first (R142). -/
def putBits (c : BitString) (s : State) : State := c.foldl putBit s

/-- Item 3 of the header: symbol and frequency of one symbol, if present (R88, R141). -/
def pairBytes (freq : Memory Count) (i : Nat) : List Byte :=
  let c := readFreq freq i
  if c = 0#32 then [] else symOf i :: bigEndian 4 c

/-- The declared length: the sum over all symbols of `FREQ[s] * CLEN[s]` (R133 (e), R141). -/
def declaredLength (freq : Memory Count) (code : Memory CodeEntry) : Nat :=
  (allSymbols.map fun i => (readFreq freq i).toNat * (readCode code (symOf i)).clen.toNat).sum

/-- Items 1 to 4 of the artifact (R88, R141). -/
def headerBytes (nleaf : BitVec 9) (freq : Memory Count) (dlen : BitLen) : List Byte :=
  Config.magic ++ bigEndian 2 (nleaf.setWidth 16) ++ allSymbols.flatMap (pairBytes freq) ++ bigEndian 8 dlen

/-- EMITH's own rule (R141). -/
def emithRule (s : State) : Effect :=
  let dlen := BitVec.ofNat 64 (declaredLength s.freq s.code)
  .ok { emitBytes (headerBytes s.nleaf s.freq dlen) s with
    dlen := dlen, bitcnt := 0#64, acc := 0#8, phase := .encode }

/-- EMITH (R141). -/
def execEmith (s : State) : Outcome := execute .emith emithRule s

/-- ENC's own rule (R142): both checks come before any bit is packed. -/
def encRule (sym : Sym) (s : State) : Effect :=
  let n := (readCode s.code sym).clen.toNat
  if n = 0 then .error (.raised .unsupportedSymbol)
  else if s.bitcnt.toNat + n > s.dlen.toNat then .error (.raised .lengthMismatch)
  else .ok (putBits (lookup s.code sym) s)

/-- ENC sym (R142). -/
def execEnc (sym : Sym) (s : State) : Outcome := execute (.enc sym) (encRule sym) s

/-- FLUSH's own rule (R143): the low bits of ACC are the zero padding. -/
def flushRule (s : State) : Effect :=
  if s.bitcnt ≠ s.dlen then .error (.raised .lengthMismatch)
  else if s.bitcnt.toNat % 8 ≠ 0 then .ok { emitByte s.acc s with acc := 0#8, phase := .edone }
  else .ok { s with phase := .edone }

/-- FLUSH (R143). -/
def execFlush (s : State) : Outcome := execute .flush flushRule s

end Sys2Proof.Machine
end

