-- ==== Sys2Proof/Machine/Table.lean ====
section
/-!
DEFINITION. The code table generator: GenTable (spec rule R130) and GEN (R131). What R133 says of its table is stated of
`execGen` in Obligations.lean.
-/
namespace Sys2Proof.Machine

/-- SetCode(s, c) (R130). -/
def setCode (t : Memory CodeEntry) (s : Sym) (c : BitString) : Memory CodeEntry := writeCode t s (codeEntry c)

/-- Assign(i, path) (R130), left before right: each leaf's code is the path to it, whose length is the leaf's depth (R133 (d)).
The first argument is how many levels further down a code still fits CLEN; on a tree it never runs out (R114 (g)). -/
def assign (m : Memory Node) : Nat → NodeIdx → BitString → Memory CodeEntry → Except Halt (Memory CodeEntry)
  | fuel, i, path, t =>
    match fetchNode m i with
    | .error h => .error h
    | .ok x =>
      if x.leaf then .ok (setCode t x.sym path)
      else
        match fuel with
        | 0 => .error (.stopped .codeTooLong)
        | k + 1 =>
          match assign m k x.left (path ++ [false]) t with
          | .error h => .error h
          | .ok t' => assign m k x.right (path ++ [true]) t'

/-- GenTable() (R130): a fresh table (R135); empty for the empty tree; the one-bit code "0" for a single leaf (R132). On the
tree of FREQ exactly the present symbols get a code, none is empty, and none is the beginning of another (R133 (a) to (c)). -/
def genTable (nn : BitVec 9) (root : NodeIdx) (m : Memory Node) : Except Halt (Memory CodeEntry) :=
  if nn = 0#9 then .ok []
  else
    match fetchNode m root with
    | .error h => .error h
    | .ok x => if x.leaf then .ok (setCode [] x.sym [false]) else assign m Config.codeMax root [] []

/-- GEN's own rule (R131). -/
def genRule (s : State) : Effect :=
  match genTable s.nn s.root s.node with
  | .error h => .error h
  | .ok t => .ok { s with code := t, phase := .table }

/-- GEN (R131). -/
def execGen (s : State) : Outcome := execute .gen genRule s

end Sys2Proof.Machine
end

