-- ==== Sys2Proof/Machine/Dispatch.lean ====
section
/-!
DEFINITION. One arm per command: its meaning (spec rules R101 to R168), which goes through the steps of R100.
-/
namespace Sys2Proof.Machine

def exec (i : Instr) (s : State) : Host.Outcome State Fault Refusal :=
  match i with
  | .nop => Sys2Proof.Machine.execNop s
  | .rst => Sys2Proof.Machine.execRst s
  | .cfg imm => Sys2Proof.Machine.execCfg imm s
  | .cnt sym => Sys2Proof.Machine.execCnt sym s
  | .build => Sys2Proof.Machine.execBuild s
  | .gen => Sys2Proof.Machine.execGen s
  | .emith => Sys2Proof.Machine.execEmith s
  | .enc sym => Sys2Proof.Machine.execEnc sym s
  | .flush => Sys2Proof.Machine.execFlush s
  | .dbyte byte => Sys2Proof.Machine.execDbyte byte s
  | .dend => Sys2Proof.Machine.execDend s

end Sys2Proof.Machine
end

