-- ==== Sys2Proof/Machine/Flags.lean ====
section
/-!
DEFINITION. The register codes of PHASE and ERR (spec rules R22, R191) and the block's only flags, the lines FAULT and DONE
(R35), with the STATUS word that shows them (R61). No command writes a flag as a side effect of arithmetic (R36).
-/
namespace Sys2Proof.Machine

/-- The value of PHASE (R22). -/
def Phase.code : Phase → BitVec 4
  | .idle => 0#4
  | .count => 1#4
  | .tree => 2#4
  | .table => 3#4
  | .encode => 4#4
  | .edone => 5#4
  | .dhdr => 6#4
  | .dpay => 7#4
  | .dtail => 8#4
  | .ddone => 9#4

/-- The value of ERR (R191). -/
def Err.code : Err → BitVec 4
  | .noFault => 0#4
  | .emptyInput => 1#4
  | .unsupportedSymbol => 2#4
  | .corruptArtifact => 3#4
  | .illegalCommand => 4#4
  | .sequence => 5#4
  | .countOverflow => 6#4
  | .lengthMismatch => 7#4

/-- The line FAULT: ERR is not 0 (R35, R203). -/
def faultLine (s : State) : Bool := !(s.err.code == 0#4)

/-- The line DONE: ERR is 0 and PHASE is EDONE or DDONE (R35, R203). -/
def doneLine (s : State) : Bool := s.err.code == 0#4 && (s.phase.code == 5#4 || s.phase.code == 9#4)

/-- The STATUS word: bits 3:0 PHASE, bit 8 FAULT, bit 9 DONE (R61). -/
def statusWord (s : State) : Word :=
  0#22 ++ BitVec.ofBool (doneLine s) ++ BitVec.ofBool (faultLine s) ++ 0#4 ++ s.phase.code

end Sys2Proof.Machine
end

