-- ==== Sys2Proof/Machine/Status.lean ====
section
/-!
DEFINITION. The status port: the map of spec rule R61 and StatRead (R62), a pure function of the state.
-/
namespace Sys2Proof.Machine

/-- Words 0 to 3 of a NODE entry (R61). -/
def nodeWord (x : Node) (k : Nat) : Word :=
  if k = 0 then x.weight.extractLsb' 0 32
  else if k = 1 then 0#24 ++ x.weight.extractLsb' 32 8
  else if k = 2 then 0#23 ++ BitVec.ofBool x.leaf ++ x.sym
  else 0#7 ++ x.right ++ 0#7 ++ x.left

/-- Words 0 to 15 of a CODE entry: the length, eight words of CBITS from the top down, seven unused (R61). -/
def codeWord (e : CodeEntry) (k : Nat) : Word :=
  if k = 0 then e.clen.setWidth 32
  else if k ≤ 8 then e.cbits.extractLsb' (256 - 32 * k) 32
  else 0#32

/-- The single registers, addresses 0x0000 to 0x0015 (R61). -/
def registerWord (s : State) (a : Nat) : Word :=
  match a with
  | 0x00 => Config.idWord
  | 0x01 => s.ctrl.setWidth 32
  | 0x02 => statusWord s
  | 0x03 => s.err.code.setWidth 32
  | 0x04 => s.einfo
  | 0x05 => s.nleaf.setWidth 32
  | 0x06 => s.nn.setWidth 32
  | 0x07 => s.root.setWidth 32
  | 0x08 => s.walk.setWidth 32
  | 0x09 => s.acc.setWidth 32
  | 0x0A => s.hcnt.setWidth 32
  | 0x0B => s.hn.setWidth 32
  | 0x0C => s.hsym.setWidth 32
  | 0x10 => s.bitcnt.extractLsb' 0 32
  | 0x11 => s.bitcnt.extractLsb' 32 32
  | 0x12 => s.dlen.extractLsb' 0 32
  | 0x13 => s.dlen.extractLsb' 32 32
  | 0x14 => s.hshift.extractLsb' 0 32
  | 0x15 => s.hshift.extractLsb' 32 32
  | _ => 0#32

/-- StatRead(a) (R61, R62): registers, then FREQ at 0x0100, NODE at 0x0800, CODE at 0x1000; any other address reads 0. -/
def statRead (s : State) (addr : StatAddr) : Word :=
  let a := addr.toNat
  if a < 0x100 then registerWord s a
  else if a < 0x200 then readFreq s.freq (a - 0x100)
  else if a < 0x800 then 0#32
  else if a < 0x800 + 4 * Config.nodeMax then nodeWord (readNode s.node ((a - 0x800) / 4)) ((a - 0x800) % 4)
  else if a < 0x1000 then 0#32
  else codeWord (readCode s.code (symOf ((a - 0x1000) / 16))) ((a - 0x1000) % 16)

end Sys2Proof.Machine
end

