-- ==== Sys2Proof/Machine/Port.lean ====
section
/-!
DEFINITION. What the block does with each thing the host does to it (spec rules R62, R100, R220, R227): the command port,
the status port and the reset line.
-/
namespace Sys2Proof.Machine

/-- R100: a command word is decoded and carried out; a reserved one raises IllegalCommand. -/
def presentWord (w : Word) (s : State) : Outcome :=
  match decode w with
  | .ok i => exec i s
  | .error _ => .next (illegalWord w s)

/-- The status port answers (R62); nothing else of the state changes. -/
def answerStatus (a : StatAddr) (s : State) : State := { s with statData := statRead s a }

/-- The reset line (R220): the reset state; what the host does next is the host's. -/
def hardReset (s : State) : State := { State.reset with host := s.host }

/-- One thing the host does. -/
def serve (e : HostEvent) (s : State) : Outcome :=
  match e with
  | .command w => presentWord w s
  | .statRead a => .next (answerStatus a s)
  | .hardReset => .next (hardReset s)

/-- The host's events with a command word put before all others. -/
def presentFirst (w : Word) (s : State) : State := { s with host := .command w :: s.host }

end Sys2Proof.Machine
end

