-- ==== Sys2Proof/Machine/Step.lean ====
section
/-!
DEFINITION. One step: the oldest thing the host has done is taken and served whole before the next (spec rules R8, R69); with
nothing presented the block waits (R220).
-/
namespace Sys2Proof.Machine

def step (s : State) : Host.Outcome State Fault Refusal :=
  match s.host with
  | [] => .next s
  | e :: rest => serve e { s with host := rest }

/-- The state with a command word presented as the very next thing. -/
def State.withFetchWord (s : State) (nbits w : Nat) : State := presentFirst (tableWord nbits w) s

end Sys2Proof.Machine
end

