-- ==== Sys2Proof/Safety.lean ====
section
/-!
DEFINITION. The terms claims use: the phases that accept a command as spec rule R100 lists them, the counts and sums of a
frequency table, the walk from the root, the payload bits an encoder has packed, the invariants of rules R24, R30 to R33, R38
and R71, and runs of several commands.
-/
namespace Sys2Proof.Safety

open Sys2Proof.Machine

/-- The table Accept of R100, as the spec lists it. -/
def acceptedPhases : Instr → List Phase
  | .nop => [.idle, .count, .tree, .table, .encode, .edone, .dhdr, .dpay, .dtail, .ddone]
  | .rst => [.idle, .count, .tree, .table, .encode, .edone, .dhdr, .dpay, .dtail, .ddone]
  | .cfg _ => [.idle, .count]
  | .cnt _ => [.idle, .count]
  | .build => [.idle, .count]
  | .gen => [.tree]
  | .emith => [.table]
  | .enc _ => [.encode]
  | .flush => [.encode]
  | .dbyte _ => [.idle, .dhdr, .dpay, .dtail]
  | .dend => [.idle, .dhdr, .dpay, .dtail]

/-- A symbol is present: its count is not 0 (R10, R26). -/
abbrev Present (s : State) (x : Sym) : Prop := readFreq s.freq x.toNat ≠ 0#32

/-- How many symbols are present (R28). -/
def presentCount (freq : Memory Count) : Nat := (allSymbols.filter fun i => readFreq freq i != 0#32).length

/-- The total symbol count: the sum of all FREQ entries (R38 (d), R114 (e)). -/
def symbolTotal (freq : Memory Count) : Nat := (allSymbols.map fun i => (readFreq freq i).toNat).sum

/-- One step down the tree: right on 1, left on 0 (R130, R163). -/
def childOf (m : Memory Node) (i : NodeIdx) (b : Bool) : NodeIdx :=
  if b then (readNode m i.toNat).right else (readNode m i.toNat).left

/-- The node a bit string leads to from node `i`. -/
def descend (m : Memory Node) (i : NodeIdx) (c : BitString) : NodeIdx := c.foldl (childOf m) i

/-- The tree walk of payload bits from node `i` (R163), left on 0 and right on 1: the symbols of the leaves reached, in order,
and where the walk then stands; a leaf sends it back to the root. -/
def walkBits (m : Memory Node) (root : NodeIdx) : NodeIdx → BitString → List Sym × NodeIdx
  | i, [] => ([], i)
  | i, b :: c =>
    let nxt := childOf m i b
    let leaf := readNode m nxt.toNat
    if leaf.leaf then
      let w := walkBits m root root c
      (leaf.sym :: w.1, w.2)
    else walkBits m root nxt c

/-- The payload bits packed so far, together with whatever OUTB held before them: the bits of OUTB, then those in ACC (R31,
R63). -/
def packedBits (s : State) : BitString := s.outb.flatMap bitsOf ++ (bitsOf s.acc).take (s.bitcnt.toNat % 8)

/-- R31: the bits of ACC below the payload bits it holds are 0. -/
def AccClean (s : State) : Prop := ∀ k, k < 8 - s.bitcnt.toNat % 8 → s.acc.getLsbD k = false

/-- Every memory has its one canonical form. -/
def MemoriesCanonical (s : State) : Prop :=
  Memory.wf 0#32 Config.nsym s.freq = true ∧ Memory.wf Node.zero Config.nodeMax s.node = true ∧
    Memory.wf CodeEntry.zero Config.nsym s.code = true

/-- R24: while ERR is 0, EINFO reads 0. -/
def EinfoQuiet (s : State) : Prop := s.err = .noFault → s.einfo = 0#32

/-- The phases in which the tree is built (R22, R100, R162). -/
def hasTree : Phase → Bool
  | .idle | .count | .dhdr => false
  | .tree | .table | .encode | .edone | .dpay | .dtail | .ddone => true

/-- The phases in which the code table is generated (R22, R131). -/
def hasTable : Phase → Bool
  | .table | .encode | .edone => true
  | .idle | .count | .tree | .dhdr | .dpay | .dtail | .ddone => false

/-- NODE, NLEAF, NN and ROOT are what BuildTree makes of FREQ in a NODE that holds its reset value (R27, R113). -/
def TreeOfFreq (s : State) : Prop :=
  let t := buildTree { s with node := [] }
  s.node = t.node ∧ s.nleaf = t.nleaf ∧ s.nn = t.nn ∧ s.root = t.root

/-- NODE, NLEAF, NN and ROOT hold their reset values. -/
def TreeClear (s : State) : Prop := s.node = [] ∧ s.nleaf = 0#9 ∧ s.nn = 0#9 ∧ s.root = 0#9

/-- R71: stale tables cannot arise. In every phase the tree is that of FREQ or clear, and the table that of the tree or
clear. -/
def TablesCurrent (s : State) : Prop :=
  (if hasTree s.phase then TreeOfFreq s else TreeClear s) ∧
    (if hasTable s.phase then genTable s.nn s.root s.node = .ok s.code else s.code = [])

/-- R32: WALK is ROOT or the index of an internal node. -/
def WalkSound (s : State) : Prop :=
  s.walk = s.root ∨ (s.walk.toNat < s.nn.toNat ∧ (readNode s.node s.walk.toNat).leaf = false)

/-- The state can be reached as far as tree, table and walk go: what keeps the model from stopping. -/
def Sound (s : State) : Prop := TablesCurrent s ∧ WalkSound s

/-- R30, R31 and the phase notes of R164: what the payload registers hold in each phase. -/
def PayloadSound (s : State) : Prop :=
  s.bitcnt.toNat ≤ s.dlen.toNat ∧ AccClean s ∧
  match s.phase with
  | .idle | .count | .tree | .table | .dhdr => s.dlen = 0#64 ∧ s.bitcnt = 0#64 ∧ s.acc = 0#8
  | .encode => s.dlen.toNat = declaredLength s.freq s.code
  | .edone => s.dlen.toNat = declaredLength s.freq s.code ∧ s.bitcnt = s.dlen ∧ s.acc = 0#8
  | .dpay => s.bitcnt.toNat < s.dlen.toNat ∧ s.bitcnt.toNat % 8 = 0 ∧ s.acc = 0#8
  | .dtail | .ddone => s.bitcnt = s.dlen ∧ s.walk = s.root ∧ s.acc = 0#8

/-- R33, R161, R162: what the header parser's registers hold in each phase. A parsed header has HN pairs, all of them in
FREQ. -/
def HeaderSound (s : State) : Prop :=
  match s.phase with
  | .idle => s.hcnt = 0#11 ∧ s.hn = 0#16 ∧ s.hsym = 0#8 ∧ s.hshift = 0#64 ∧ presentCount s.freq = 0
  | .count | .tree | .table | .encode | .edone => s.hcnt = 0#11 ∧ s.hn = 0#16 ∧ s.hsym = 0#8 ∧ s.hshift = 0#64
  | .dhdr =>
    1 ≤ s.hcnt.toNat ∧
    (s.hcnt.toNat ≤ 4 → s.hn = 0#16) ∧
    (s.hcnt.toNat = 5 → s.hn.toNat ≤ 255) ∧
    (6 ≤ s.hcnt.toNat → s.hn.toNat ≤ 256 ∧ s.hcnt.toNat ≤ 13 + 5 * s.hn.toNat) ∧
    presentCount s.freq = min ((s.hcnt.toNat - 6) / 5) s.hn.toNat ∧
    (∀ x : Sym, Present s x →
      x ≤ s.hsym ∧
        (s.hcnt.toNat < 6 + 5 * s.hn.toNat → (s.hcnt.toNat - 6) % 5 ≠ 0 → x < s.hsym)) ∧
    (s.hcnt.toNat ≤ 6 ∨ s.hcnt.toNat = 6 + 5 * s.hn.toNat ∨
        (s.hcnt.toNat < 6 + 5 * s.hn.toNat ∧ (s.hcnt.toNat - 6) % 5 ≤ 1) →
      s.hshift = 0#64)
  | .dpay | .dtail | .ddone =>
    s.hn.toNat ≤ 256 ∧ s.hcnt.toNat = 14 + 5 * s.hn.toNat ∧ s.hshift = 0#64 ∧ s.nleaf.toNat = s.hn.toNat

/-- Commands carried out one after another, as the host presents them (R69). -/
def runCommands : List Instr → State → Outcome
  | [], s => .next s
  | i :: is, s =>
    match exec i s with
    | .next t => runCommands is t
    | .fault f => .fault f
    | .refused r => .refused r

end Sys2Proof.Safety
end

