-- ==== Sys2Proof/Certificates/Slice0/Obligations.lean ====
section
/-!
DEFINITION. The statements for the provers, from the numbered rules of the spec. A statement of a command's result concludes
the whole next state, so it is also the command's frame and says where the command completes.
-/
open Sys2Proof Sys2Proof.Machine Sys2Proof.Safety

/-! ### Encoding -/

/-- R83, R85: every command decodes from its own word. -/
def Obligations.DecodeOfEncode : Prop := ∀ i : Instr, decode (encode i) = .ok i

/-- R80, R83: a word that decodes is the one word of its command. -/
def Obligations.EncodeOfDecode : Prop := ∀ (w : Word) (i : Instr), decode w = .ok i → encode i = w

/-- R84: the decoder rejects exactly the words with an unused `op` or a "must be 0" bit set. -/
def Obligations.RejectedWordsAreIllFormed : Prop :=
  ∀ w : Word, (∃ r, decode w = .error r) ↔ WellFormed w = false

/-- R83, R86: words written out from the table of R83, one of each family, decode to the commands they stand for. -/
def Obligations.TableWordsDecode : Prop :=
  decode 0x00000000#32 = .ok .nop ∧ decode 0x01000000#32 = .ok .rst ∧ decode 0x02000001#32 = .ok (.cfg 1#1) ∧
  decode 0x10000061#32 = .ok (.cnt 0x61#8) ∧ decode 0x11000000#32 = .ok .build ∧ decode 0x12000000#32 = .ok .gen ∧
  decode 0x20000000#32 = .ok .emith ∧ decode 0x21000062#32 = .ok (.enc 0x62#8) ∧ decode 0x22000000#32 = .ok .flush ∧
  decode 0x30000048#32 = .ok (.dbyte 0x48#8) ∧ decode 0x31000000#32 = .ok .dend

/-! ### The step -/

/-- R100: a presented word that decodes is carried out, on the state without it. That a presented word stands in the queue
`host` is the model's own form of the command port (log entry 1). -/
def Obligations.StepRunsDecodedCommand : Prop :=
  ∀ (s : State) (w : Word) (rest : List HostEvent) (i : Instr),
    s.host = .command w :: rest → decode w = .ok i → step s = exec i { s with host := rest }

/-- R84, R196: a reserved word, presented while ERR is 0, raises IllegalCommand and does nothing else. -/
def Obligations.ReservedWordRaisesIllegalCommand : Prop :=
  ∀ (s : State) (w : Word) (rest : List HostEvent),
    s.host = .command w :: rest → WellFormed w = false → s.err = .noFault →
      step s = .next { s with host := rest, err := .illegalCommand, einfo := w }

/-- R201: while ERR is not 0, every word but 0x01000000 is ignored. -/
def Obligations.FaultFreezesTheBlock : Prop :=
  ∀ (s : State) (w : Word) (rest : List HostEvent),
    s.host = .command w :: rest → s.err ≠ .noFault → w ≠ 0x01000000#32 → step s = .next { s with host := rest }

/-- R62: a status read changes no state: only the port's answer (the model's own field, log entry 4) is written. -/
def Obligations.StatusReadChangesNothing : Prop :=
  ∀ (s : State) (a : StatAddr) (rest : List HostEvent),
    s.host = .statRead a :: rest → step s = .next { s with host := rest, statData := statRead s a }

/-- R220, R40: the reset line puts every register, memory and stream at its reset value, from every state. The last two
fields are the model's own (log entries 1 and 4). -/
def Obligations.HardwareResetClearsAll : Prop :=
  ∀ (s : State) (rest : List HostEvent), s.host = .hardReset :: rest →
    step s = .next
      { ctrl := 0#1, phase := .idle, err := .noFault, einfo := 0#32, freq := [], node := [], nleaf := 0#9, nn := 0#9,
        root := 0#9, code := [], dlen := 0#64, bitcnt := 0#64, acc := 0#8, walk := 0#9, hcnt := 0#11, hn := 0#16,
        hsym := 0#8, hshift := 0#64, outb := [], outs := [], host := rest, statData := 0#32 }

/-! ### The status map, the lines -/

/-- R61: the status map, address by address. -/
def Obligations.StatusMapShowsEveryRegister : Prop :=
  ∀ s : State,
    (statRead s 0x0000#13 = 0x48554601#32 ∧ (statRead s 0x0001#13).toNat = s.ctrl.toNat ∧
      (statRead s 0x0002#13).toNat = s.phase.code.toNat + (if s.err = .noFault then 0 else 2 ^ 8) +
        (if s.err = .noFault ∧ (s.phase = .edone ∨ s.phase = .ddone) then 2 ^ 9 else 0) ∧
      (statRead s 0x0003#13).toNat = s.err.code.toNat ∧ statRead s 0x0004#13 = s.einfo ∧
      (statRead s 0x0005#13).toNat = s.nleaf.toNat ∧ (statRead s 0x0006#13).toNat = s.nn.toNat ∧
      (statRead s 0x0007#13).toNat = s.root.toNat ∧ (statRead s 0x0008#13).toNat = s.walk.toNat ∧
      (statRead s 0x0009#13).toNat = s.acc.toNat ∧ (statRead s 0x000A#13).toNat = s.hcnt.toNat ∧
      (statRead s 0x000B#13).toNat = s.hn.toNat ∧ (statRead s 0x000C#13).toNat = s.hsym.toNat ∧
      statRead s 0x0011#13 ++ statRead s 0x0010#13 = s.bitcnt ∧ statRead s 0x0013#13 ++ statRead s 0x0012#13 = s.dlen ∧
      statRead s 0x0015#13 ++ statRead s 0x0014#13 = s.hshift) ∧
    (∀ x : Sym, statRead s (BitVec.ofNat 13 (0x0100 + x.toNat)) = readFreq s.freq x.toNat) ∧
    (∀ i, i < 511 →
      statRead s (BitVec.ofNat 13 (0x0800 + 4 * i)) = (readNode s.node i).weight.extractLsb' 0 32 ∧
      (statRead s (BitVec.ofNat 13 (0x0800 + 4 * i + 1))).toNat = (readNode s.node i).weight.toNat / 2 ^ 32 ∧
      (statRead s (BitVec.ofNat 13 (0x0800 + 4 * i + 2))).toNat =
        (readNode s.node i).sym.toNat + (if (readNode s.node i).leaf then 2 ^ 8 else 0) ∧
      (statRead s (BitVec.ofNat 13 (0x0800 + 4 * i + 3))).toNat =
        (readNode s.node i).left.toNat + 2 ^ 16 * (readNode s.node i).right.toNat) ∧
    (∀ x : Sym, (statRead s (BitVec.ofNat 13 (0x1000 + 16 * x.toNat))).toNat = (readCode s.code x).clen.toNat) ∧
    (∀ (x : Sym) (j : Nat), j < 256 →
      (statRead s (BitVec.ofNat 13 (0x1000 + 16 * x.toNat + 1 + j / 32))).getLsbD (31 - j % 32) =
        (readCode s.code x).cbits.getLsbD (255 - j)) ∧
    ∀ a : Nat, (a < 0x0100 ∧ a ≠ 0x0000 ∧ ¬(1 ≤ a ∧ a ≤ 0x000C) ∧ ¬(0x0010 ≤ a ∧ a ≤ 0x0015)) ∨
        (0x0200 ≤ a ∧ a < 0x0800) ∨ (0x0FFC ≤ a ∧ a < 0x1000) ∨ (0x1000 ≤ a ∧ a < 0x2000 ∧ 9 ≤ a % 16) →
      statRead s (BitVec.ofNat 13 a) = 0#32

/-- R35, R203: the two lines, and that they are never both 1. -/
def Obligations.FaultAndDoneLines : Prop :=
  ∀ s : State,
    (faultLine s = true ↔ s.err ≠ .noFault) ∧
    (doneLine s = true ↔ s.err = .noFault ∧ (s.phase = .edone ∨ s.phase = .ddone)) ∧
    ¬(faultLine s = true ∧ doneLine s = true)

/-! ### Faults, phases and frames of all commands -/

/-- R100, R197: a command, presented while ERR is 0 in a phase that does not accept it, raises Sequence and nothing else
changes; in a phase that accepts it, it does not raise Sequence. -/
def Obligations.SequenceFaultOutsideAcceptedPhases : Prop :=
  ∀ (i : Instr) (s : State), s.err = .noFault →
    (s.phase ∉ acceptedPhases i → exec i s = .next { s with err := .sequence, einfo := encode i }) ∧
    (s.phase ∈ acceptedPhases i → ∀ t, exec i s = .next t → t.err ≠ .sequence)

/-- R190: faults are precise: the state after a fault is the state before, plus ERR and EINFO. -/
def Obligations.FaultsArePrecise : Prop :=
  ∀ (i : Instr) (s t : State), s.err = .noFault → exec i s = .next t → t.err ≠ .noFault →
    t = { s with err := t.err, einfo := encode i }

/-- R191: which commands raise which code. IllegalCommand is raised by no command, only by reserved words. -/
def Obligations.EachFaultHasItsCommands : Prop :=
  ∀ (i : Instr) (s t : State), s.err = .noFault → exec i s = .next t →
    (t.err = .emptyInput → i = .build) ∧
    (t.err = .unsupportedSymbol → ∃ x, i = .enc x) ∧
    (t.err = .corruptArtifact → (∃ b, i = .dbyte b) ∨ i = .dend) ∧
    t.err ≠ .illegalCommand ∧
    (t.err = .countOverflow → ∃ x, i = .cnt x) ∧
    (t.err = .lengthMismatch → (∃ x, i = .enc x) ∨ i = .flush)

/-- R22, R100: the phase changes of the diagram of R100, and no others. -/
def Obligations.PhaseMovesOnlyAsListed : Prop :=
  ∀ (i : Instr) (s t : State), exec i s = .next t → t.phase ≠ s.phase →
    (i = .rst ∧ t.phase = .idle) ∨
    ((∃ x, i = .cnt x) ∧ s.phase = .idle ∧ t.phase = .count) ∨
    (i = .build ∧ (s.phase = .idle ∨ s.phase = .count) ∧ t.phase = .tree) ∨
    (i = .gen ∧ s.phase = .tree ∧ t.phase = .table) ∨
    (i = .emith ∧ s.phase = .table ∧ t.phase = .encode) ∨
    (i = .flush ∧ s.phase = .encode ∧ t.phase = .edone) ∨
    ((∃ b, i = .dbyte b) ∧ s.phase = .idle ∧ (s.hcnt = 0#11 → t.phase = .dhdr) ∧
      (t.phase = .dhdr ∨ t.phase = .dpay ∨ t.phase = .dtail)) ∨
    ((∃ b, i = .dbyte b) ∧ s.phase = .dhdr ∧ (t.phase = .dpay ∨ t.phase = .dtail)) ∨
    ((∃ b, i = .dbyte b) ∧ s.phase = .dpay ∧ t.phase = .dtail) ∨
    (i = .dend ∧ s.phase = .dtail ∧ t.phase = .ddone)

/-- R68: which command writes which memory and stream: all others leave it as it was. -/
def Obligations.CommandsLeaveOtherMemories : Prop :=
  ∀ (i : Instr) (s t : State), exec i s = .next t →
    (i ≠ .rst → (∀ x, i ≠ .cnt x) → (∀ b, i ≠ .dbyte b) → t.freq = s.freq) ∧
    (i ≠ .rst → i ≠ .build → (∀ b, i ≠ .dbyte b) →
      t.node = s.node ∧ t.nleaf = s.nleaf ∧ t.nn = s.nn ∧ t.root = s.root ∧ t.walk = s.walk) ∧
    (i ≠ .rst → i ≠ .gen → t.code = s.code) ∧
    (i ≠ .emith → (∀ x, i ≠ .enc x) → i ≠ .flush → t.outb = s.outb) ∧
    ((∀ b, i ≠ .dbyte b) → t.outs = s.outs)

/-- R21, R30, R31, R33 (the writers each register names): all other commands leave the register as it was.
`host` and `statData` are the model's own fields (log entries 1 and 4). -/
def Obligations.CommandsLeaveOtherRegisters : Prop :=
  ∀ (i : Instr) (s t : State), exec i s = .next t → i ≠ .rst →
    ((∀ b, i ≠ .cfg b) → t.ctrl = s.ctrl) ∧
    (i ≠ .emith → (∀ b, i ≠ .dbyte b) → t.dlen = s.dlen) ∧
    (i ≠ .emith → (∀ x, i ≠ .enc x) → (∀ b, i ≠ .dbyte b) → t.bitcnt = s.bitcnt) ∧
    (i ≠ .emith → (∀ x, i ≠ .enc x) → i ≠ .flush → t.acc = s.acc) ∧
    ((∀ b, i ≠ .dbyte b) → t.hcnt = s.hcnt ∧ t.hn = s.hn ∧ t.hsym = s.hsym ∧ t.hshift = s.hshift) ∧
    (t.err = s.err → t.einfo = s.einfo) ∧ t.host = s.host ∧ t.statData = s.statData

/-- R34: the streams only grow, and no command emits on both. -/
def Obligations.StreamsOnlyGrow : Prop :=
  ∀ (i : Instr) (s t : State), exec i s = .next t →
    s.outb <+: t.outb ∧ s.outs <+: t.outs ∧ (t.outb = s.outb ∨ t.outs = s.outs)

/-! ### NOP, RST, CFG -/

/-- R101: NOP writes no state and emits nothing, in every phase and also after a fault. -/
def Obligations.NopChangesNothing : Prop := ∀ s : State, exec .nop s = .next s

/-- R102, R221: RST gives every register and memory entry its reset value, in every phase and also after a fault, and leaves
OUTB and OUTS as they are. That `host` and `statData` stay is the model's choice (log entries 1 and 4). -/
def Obligations.RstClearsAllButStreams : Prop :=
  ∀ s : State, exec .rst s = .next
    { ctrl := 0#1, phase := .idle, err := .noFault, einfo := 0#32, freq := [], node := [], nleaf := 0#9, nn := 0#9,
      root := 0#9, code := [], dlen := 0#64, bitcnt := 0#64, acc := 0#8, walk := 0#9, hcnt := 0#11, hn := 0#16,
      hsym := 0#8, hshift := 0#64, outb := s.outb, outs := s.outs, host := s.host, statData := s.statData }

/-- R103: CFG writes CTRL.EMPTYERR and nothing else. -/
def Obligations.CfgWritesPolicyBit : Prop :=
  ∀ (s : State) (imm : BitVec 1), s.err = .noFault → (s.phase = .idle ∨ s.phase = .count) →
    exec (.cfg imm) s = .next { s with ctrl := imm }

/-! ### CNT, the queue, BuildTree, BUILD -/

/-- R110, R198: CNT adds one to its own entry, leaves every other entry, and goes to COUNT; at 2^32 - 1 the entry keeps its
value and CountOverflow is raised. -/
def Obligations.CntCountsAndNeverWraps : Prop :=
  ∀ (s : State) (x : Sym), s.err = .noFault → (s.phase = .idle ∨ s.phase = .count) →
    (readFreq s.freq x.toNat ≠ 0xFFFFFFFF#32 →
      ∃ m, exec (.cnt x) s = .next { s with freq := m, phase := .count } ∧
        (readFreq m x.toNat).toNat = (readFreq s.freq x.toNat).toNat + 1 ∧
        ∀ i, i ≠ x.toNat → readFreq m i = readFreq s.freq i) ∧
    (readFreq s.freq x.toNat = 0xFFFFFFFF#32 →
      exec (.cnt x) s = .next { s with err := .countOverflow, einfo := encode (.cnt x) })

/-- R111: PopMin removes the member that comes first by weight, then by index. -/
def Obligations.PopMinTakesTheFirst : Prop :=
  ∀ (m : Memory Node) (q : List Nat), q.Nodup → q ≠ [] →
    ∃ a q', popMin m q = some (a, q') ∧ q.Perm (a :: q') ∧
      ∀ j ∈ q', (readNode m a).weight < (readNode m j).weight ∨
        ((readNode m a).weight = (readNode m j).weight ∧ a < j)

/-- R116, R192: BUILD runs BuildTree and goes to TREE, unless no symbol is present and the policy forbids that. -/
def Obligations.BuildBuildsTheTree : Prop :=
  ∀ s : State, s.err = .noFault → (s.phase = .idle ∨ s.phase = .count) →
    (¬((∀ x : Sym, readFreq s.freq x.toNat = 0#32) ∧ s.ctrl = 1#1) →
      exec .build s = .next { buildTree s with phase := .tree }) ∧
    ((∀ x : Sym, readFreq s.freq x.toNat = 0#32) → s.ctrl = 1#1 →
      exec .build s = .next { s with err := .emptyInput, einfo := encode .build })

/-- R112: BuildTree writes NODE, NLEAF, NN, ROOT and WALK only, and no entry of NODE from NN up. -/
def Obligations.BuildTreeFrame : Prop :=
  ∀ s : State,
    (∃ m a b c d, buildTree s = { s with node := m, nleaf := a, nn := b, root := c, walk := d }) ∧
    (buildTree s).walk = (buildTree s).root ∧
    ∀ i, (buildTree s).nn.toNat ≤ i → readNode (buildTree s).node i = readNode s.node i

/-- R28, R114 (a): NLEAF is the number of present symbols, NN = 2 * NLEAF - 1 and ROOT = NN - 1; all 0 for the empty
table. -/
def Obligations.BuildTreeSizes : Prop :=
  ∀ s : State,
    (buildTree s).nleaf.toNat = presentCount s.freq ∧
    (presentCount s.freq = 0 → (buildTree s).nn = 0#9 ∧ (buildTree s).root = 0#9) ∧
    (presentCount s.freq ≠ 0 →
      (buildTree s).nn.toNat = 2 * presentCount s.freq - 1 ∧ (buildTree s).root.toNat + 1 = (buildTree s).nn.toNat)

/-- R114 (b), R38 (e): the first NLEAF nodes are the leaves of the present symbols, in strictly ascending order of symbol, each
with its count as weight; the others are internal. -/
def Obligations.BuildTreeLeaves : Prop :=
  ∀ s : State,
    (∀ i, i < (buildTree s).nleaf.toNat →
      (readNode (buildTree s).node i).leaf = true ∧
      Present s (readNode (buildTree s).node i).sym ∧
      (readNode (buildTree s).node i).weight.toNat = (readFreq s.freq (readNode (buildTree s).node i).sym.toNat).toNat ∧
      (readNode (buildTree s).node i).left = 0#9 ∧ (readNode (buildTree s).node i).right = 0#9) ∧
    (∀ i j, i < j → j < (buildTree s).nleaf.toNat →
      (readNode (buildTree s).node i).sym < (readNode (buildTree s).node j).sym) ∧
    (∀ x : Sym, Present s x → ∃ i, i < (buildTree s).nleaf.toNat ∧ (readNode (buildTree s).node i).sym = x) ∧
    ∀ i, (buildTree s).nleaf.toNat ≤ i → i < (buildTree s).nn.toNat →
      (readNode (buildTree s).node i).leaf = false ∧ (readNode (buildTree s).node i).sym = 0#8

/-- R111, R112, R114 (c), (f): an internal node's children come before it, are distinct, sum to its weight, and the right one,
popped first, comes first in the order of R111; and the two are the lowest: the left one comes before every other node that,
when node `i` was made, was the child of none. -/
def Obligations.BuildTreeInternalNodes : Prop :=
  ∀ (s : State) (i : Nat), (buildTree s).nleaf.toNat ≤ i → i < (buildTree s).nn.toNat →
    let m := (buildTree s).node
    let l := (readNode m i).left.toNat
    let r := (readNode m i).right.toNat
    l < i ∧ r < i ∧ l ≠ r ∧
    (readNode m i).weight.toNat = (readNode m l).weight.toNat + (readNode m r).weight.toNat ∧
    ((readNode m r).weight < (readNode m l).weight ∨ ((readNode m r).weight = (readNode m l).weight ∧ r < l)) ∧
    ∀ j, j < i → j ≠ l → j ≠ r →
      (∀ p, (buildTree s).nleaf.toNat ≤ p → p < i → j ≠ (readNode m p).left.toNat ∧ j ≠ (readNode m p).right.toNat) →
      ((readNode m l).weight < (readNode m j).weight ∨ ((readNode m l).weight = (readNode m j).weight ∧ l < j))

/-- R114 (d), R38 (a): every index below NN other than ROOT is the LEFT or RIGHT of exactly one internal node, and ROOT is
the child of none. -/
def Obligations.BuildTreeIsOneTree : Prop :=
  ∀ s : State,
    let m := (buildTree s).node
    let parent := fun (p : Nat) (b : Bool) (i : Nat) =>
      (buildTree s).nleaf.toNat ≤ p ∧ p < (buildTree s).nn.toNat ∧ (childOf m (BitVec.ofNat 9 p) b).toNat = i
    (∀ i, i < (buildTree s).nn.toNat → i ≠ (buildTree s).root.toNat →
      ∃ p b, parent p b i ∧ ∀ p' b', parent p' b' i → p' = p ∧ b' = b) ∧
    ∀ p b, ¬parent p b (buildTree s).root.toNat

/-- R114 (e), R38 (d): the root's weight is the sum of all FREQ entries. -/
def Obligations.BuildTreeRootWeight : Prop :=
  ∀ s : State, (buildTree s).nn ≠ 0#9 →
    (readNode (buildTree s).node (buildTree s).root.toNat).weight.toNat = symbolTotal s.freq

/-- R113: the tree is a function of the FREQ table alone: the same entries below NN whatever NODE held before. -/
def Obligations.BuildTreeDependsOnFreqAlone : Prop :=
  ∀ s t : State, (∀ i, i < 256 → readFreq s.freq i = readFreq t.freq i) →
    (buildTree s).nleaf = (buildTree t).nleaf ∧ (buildTree s).nn = (buildTree t).nn ∧
    (buildTree s).root = (buildTree t).root ∧ (buildTree s).walk = (buildTree t).walk ∧
    ∀ i, i < (buildTree s).nn.toNat → readNode (buildTree s).node i = readNode (buildTree t).node i

/-- R115, R117: the empty table gives no node; one present symbol gives one leaf as the root. -/
def Obligations.BuildTreeDegenerateCases : Prop :=
  ∀ s : State,
    ((∀ x : Sym, readFreq s.freq x.toNat = 0#32) →
      buildTree s = { s with nleaf := 0#9, nn := 0#9, root := 0#9, walk := 0#9 }) ∧
    ∀ x : Sym, Present s x → (∀ y : Sym, y ≠ x → readFreq s.freq y.toNat = 0#32) →
      (buildTree s).nleaf = 1#9 ∧ (buildTree s).nn = 1#9 ∧ (buildTree s).root = 0#9 ∧
      readNode (buildTree s).node 0 = ⟨true, x, (readFreq s.freq x.toNat).setWidth 40, 0#9, 0#9⟩

/-! ### GEN -/

/-- R131, R133 (a), (b): in TREE, on the tree of FREQ, GEN writes CODE and goes to TABLE; exactly the present symbols get an
entry. The hypothesis on the tree is what `SoundStateNeverStops` keeps. -/
def Obligations.GenGivesEachPresentSymbolACode : Prop :=
  ∀ s : State, s.err = .noFault → s.phase = .tree → TreeOfFreq s →
    ∃ c, exec .gen s = .next { s with code := c, phase := .table } ∧
      ∀ x : Sym, (readCode c x).clen ≠ 0#8 ↔ Present s x

/-- R133 (c), R39: no code is a prefix of another symbol's code. -/
def Obligations.GenCodesArePrefixFree : Prop :=
  ∀ s t : State, s.err = .noFault → s.phase = .tree → TreeOfFreq s → exec .gen s = .next t →
    ∀ x y : Sym, Present s x → Present s y → x ≠ y → ¬lookup t.code x <+: lookup t.code y

/-- R130: with two or more leaves, the code of a present symbol is the sequence of turns from ROOT to its leaf, and passes only
internal nodes on the way. -/
def Obligations.GenCodesAreRootToLeafPaths : Prop :=
  ∀ s t : State, s.err = .noFault → s.phase = .tree → TreeOfFreq s → 2 ≤ s.nleaf.toNat → exec .gen s = .next t →
    ∀ x : Sym, Present s x →
      (readNode s.node (descend s.node s.root (lookup t.code x)).toNat).leaf = true ∧
      (readNode s.node (descend s.node s.root (lookup t.code x)).toNat).sym = x ∧
      ∀ k, k < (lookup t.code x).length →
        (readNode s.node (descend s.node s.root ((lookup t.code x).take k)).toNat).leaf = false

/-- R132: the code of the only present symbol is "0". -/
def Obligations.GenSingleLeafCode : Prop :=
  ∀ (s : State) (x : Sym), s.err = .noFault → s.phase = .tree → TreeOfFreq s → Present s x →
    (∀ y : Sym, y ≠ x → readFreq s.freq y.toNat = 0#32) →
    ∃ c, exec .gen s = .next { s with code := c, phase := .table } ∧ lookup c x = [false] ∧
      ∀ y : Sym, y ≠ x → readCode c y = CodeEntry.zero

/-- R133 (e): with two or more leaves, the declared length is the sum of the weights of the internal nodes. -/
def Obligations.GenLengthIsInternalWeight : Prop :=
  ∀ s t : State, s.err = .noFault → s.phase = .tree → TreeOfFreq s → 2 ≤ s.nleaf.toNat → exec .gen s = .next t →
    declaredLength s.freq t.code =
      ((List.range s.nn.toNat).map fun i =>
        if s.nleaf.toNat ≤ i then (readNode s.node i).weight.toNat else 0).sum

/-! ### EMITH, ENC, FLUSH -/

/-- R141, R88: EMITH emits the header, declares the sum of FREQ * CLEN without overflow, and goes to ENCODE. -/
def Obligations.EmithEmitsTheHeader : Prop :=
  ∀ s : State, s.err = .noFault → s.phase = .table →
    ∃ L : BitLen,
      L.toNat = ((List.range 256).map fun i =>
        (readFreq s.freq i).toNat * (readCode s.code (BitVec.ofNat 8 i)).clen.toNat).sum ∧
      exec .emith s = .next { s with
        outb := s.outb ++ [0x48#8, 0x55#8, 0x46#8, 0x01#8] ++
          [BitVec.ofNat 8 (s.nleaf.toNat / 256), BitVec.ofNat 8 s.nleaf.toNat] ++
          ((List.range 256).flatMap fun i =>
            if readFreq s.freq i = 0#32 then [] else
              [BitVec.ofNat 8 i, (readFreq s.freq i).extractLsb' 24 8, (readFreq s.freq i).extractLsb' 16 8,
                (readFreq s.freq i).extractLsb' 8 8, (readFreq s.freq i).extractLsb' 0 8]) ++
          [L.extractLsb' 56 8, L.extractLsb' 48 8, L.extractLsb' 40 8, L.extractLsb' 32 8,
            L.extractLsb' 24 8, L.extractLsb' 16 8, L.extractLsb' 8 8, L.extractLsb' 0 8]
        dlen := L, bitcnt := 0#64, acc := 0#8, phase := .encode }

/-- R140, R142: ENC packs the whole code of its symbol after the bits already packed, most significant bit first. -/
def Obligations.EncPacksTheWholeCode : Prop :=
  ∀ (s : State) (x : Sym), s.err = .noFault → s.phase = .encode → AccClean s →
    (readCode s.code x).clen ≠ 0#8 → s.bitcnt.toNat + (readCode s.code x).clen.toNat ≤ s.dlen.toNat →
    ∃ a b o, exec (.enc x) s = .next { s with acc := a, bitcnt := b, outb := o } ∧
      b.toNat = s.bitcnt.toNat + (readCode s.code x).clen.toNat ∧
      packedBits { s with acc := a, bitcnt := b, outb := o } = packedBits s ++ lookup s.code x ∧
      AccClean { s with acc := a, bitcnt := b, outb := o }

/-- R142, R193, R199, R200: ENC's two faults, in the order of its checks. -/
def Obligations.EncFaults : Prop :=
  ∀ (s : State) (x : Sym), s.err = .noFault → s.phase = .encode →
    ((readCode s.code x).clen = 0#8 →
      exec (.enc x) s = .next { s with err := .unsupportedSymbol, einfo := encode (.enc x) }) ∧
    ((readCode s.code x).clen ≠ 0#8 → s.dlen.toNat < s.bitcnt.toNat + (readCode s.code x).clen.toNat →
      exec (.enc x) s = .next { s with err := .lengthMismatch, einfo := encode (.enc x) })

/-- R143, R199: FLUSH emits the last partial byte, if there is one, when the declared length is reached, and raises
LengthMismatch otherwise. -/
def Obligations.FlushPadsTheLastByte : Prop :=
  ∀ s : State, s.err = .noFault → s.phase = .encode →
    (s.bitcnt = s.dlen → s.bitcnt.toNat % 8 = 0 → exec .flush s = .next { s with phase := .edone }) ∧
    (s.bitcnt = s.dlen → s.bitcnt.toNat % 8 ≠ 0 →
      exec .flush s = .next { s with outb := s.outb ++ [s.acc], acc := 0#8, phase := .edone }) ∧
    (s.bitcnt ≠ s.dlen → exec .flush s = .next { s with err := .lengthMismatch, einfo := encode .flush })

/-! ### DBYTE, DEND -/

/-- R161 item 1: the four magic bytes. -/
def Obligations.HeaderMagicBytes : Prop :=
  ∀ (s : State) (b : Byte), s.err = .noFault → (s.phase = .idle ∨ s.phase = .dhdr) → s.hcnt.toNat ≤ 3 →
    ([0x48#8, 0x55#8, 0x46#8, 0x01#8][s.hcnt.toNat]? = some b →
      exec (.dbyte b) s = .next { s with hcnt := s.hcnt + 1#11, phase := .dhdr }) ∧
    ([0x48#8, 0x55#8, 0x46#8, 0x01#8][s.hcnt.toNat]? ≠ some b →
      exec (.dbyte b) s = .next { s with err := .corruptArtifact, einfo := encode (.dbyte b) })

/-- R161 item 2: the alphabet size, big-endian, at most 256. -/
def Obligations.HeaderSizeBytes : Prop :=
  ∀ (s : State) (b : Byte), s.err = .noFault → (s.phase = .idle ∨ s.phase = .dhdr) →
    (s.hcnt.toNat = 4 ∨ s.hcnt.toNat = 5) →
    ∃ h : BitVec 16, h.toNat = (256 * s.hn.toNat + b.toNat) % 2 ^ 16 ∧
      exec (.dbyte b) s = .next
        (if s.hcnt.toNat = 5 ∧ 256 < h.toNat then { s with err := .corruptArtifact, einfo := encode (.dbyte b) }
        else { s with hn := h, hcnt := s.hcnt + 1#11, phase := .dhdr })

/-- R161 item 3: the pairs: an ascending symbol, then a non-zero big-endian frequency. -/
def Obligations.HeaderPairBytes : Prop :=
  ∀ (s : State) (b : Byte), s.err = .noFault → (s.phase = .idle ∨ s.phase = .dhdr) →
    6 ≤ s.hcnt.toNat → s.hcnt.toNat < 6 + 5 * s.hn.toNat →
    ((s.hcnt.toNat - 6) % 5 = 0 →
      exec (.dbyte b) s = .next
        (if 11 ≤ s.hcnt.toNat ∧ b ≤ s.hsym then { s with err := .corruptArtifact, einfo := encode (.dbyte b) }
        else { s with hsym := b, hcnt := s.hcnt + 1#11, phase := .dhdr })) ∧
    (1 ≤ (s.hcnt.toNat - 6) % 5 → (s.hcnt.toNat - 6) % 5 ≤ 3 →
      ∃ v : BitLen, v.toNat = (256 * s.hshift.toNat + b.toNat) % 2 ^ 64 ∧
        exec (.dbyte b) s = .next { s with hshift := v, hcnt := s.hcnt + 1#11, phase := .dhdr }) ∧
    ((s.hcnt.toNat - 6) % 5 = 4 →
      ∃ (v : Count) (m : Memory Count), v.toNat = (256 * s.hshift.toNat + b.toNat) % 2 ^ 32 ∧
        readFreq m s.hsym.toNat = v ∧ (∀ i, i ≠ s.hsym.toNat → readFreq m i = readFreq s.freq i) ∧
        exec (.dbyte b) s = .next
          (if v = 0#32 then { s with err := .corruptArtifact, einfo := encode (.dbyte b) }
          else { s with freq := m, hshift := 0#64, hcnt := s.hcnt + 1#11, phase := .dhdr }))

/-- R161 item 4: the declared length, big-endian, all bytes but the last. -/
def Obligations.HeaderLengthBytes : Prop :=
  ∀ (s : State) (b : Byte), s.err = .noFault → (s.phase = .idle ∨ s.phase = .dhdr) →
    6 + 5 * s.hn.toNat ≤ s.hcnt.toNat → s.hcnt.toNat < 13 + 5 * s.hn.toNat →
    ∃ v : BitLen, v.toNat = (256 * s.hshift.toNat + b.toNat) % 2 ^ 64 ∧
      exec (.dbyte b) s = .next { s with hshift := v, hcnt := s.hcnt + 1#11, phase := .dhdr }

/-- R162: the last header byte rebuilds the tree from the parsed table, unless it declares bits for an empty alphabet. -/
def Obligations.HeaderEndRebuildsTheTree : Prop :=
  ∀ (s : State) (b : Byte), s.err = .noFault → (s.phase = .idle ∨ s.phase = .dhdr) →
    s.hcnt.toNat = 13 + 5 * s.hn.toNat →
    ∃ v : BitLen, v.toNat = (256 * s.hshift.toNat + b.toNat) % 2 ^ 64 ∧
      exec (.dbyte b) s = .next
        (if presentCount s.freq = 0 ∧ v ≠ 0#64 then { s with err := .corruptArtifact, einfo := encode (.dbyte b) }
        else { buildTree s with
          dlen := v, hshift := 0#64, bitcnt := 0#64, hcnt := s.hcnt + 1#11,
          phase := if v = 0#64 then .dtail else .dpay })

/-- R163, R130: in the tree of FREQ with its code table, walking a present symbol's code from the root emits that symbol and
comes back to the root. -/
def Obligations.WalkOfACodeEmitsItsSymbol : Prop :=
  ∀ (s : State) (c : Memory CodeEntry) (x : Sym), TreeOfFreq s → genTable s.nn s.root s.node = .ok c → Present s x →
    s.walk = s.root → s.bitcnt.toNat + (lookup c x).length ≤ s.dlen.toNat →
    ∃ n : BitLen, n.toNat = s.bitcnt.toNat + (lookup c x).length ∧
      payloadBits (lookup c x) s = .ok { s with outs := s.outs ++ [x], bitcnt := n }

/-- R163, R164, R166: what a payload byte does.
(1) DBYTE is its eight bits, most significant first, taken as payload bits, and then the phase.
(2) A byte that is taken consumes min(8, DLEN - BITCNT) bits, ends at a symbol boundary if it reaches DLEN, has only 0 pad bits,
and goes to DTAIL exactly then.
(3) Under a tree whose root is no leaf, one bit moves left on 0 and right on 1; a leaf emits its symbol and the walk returns to
ROOT. So the byte emits the symbols of that walk of its declared bits and leaves WALK where it ends, unless it ends inside a
code at DLEN or a pad bit is 1: then it is CorruptArtifact. That no index leaves NODE follows from `Sound`. -/
def Obligations.PayloadByteTaken : Prop :=
  ∀ (s : State) (b : Byte), s.err = .noFault → s.phase = .dpay →
    (∀ u, payloadBits (bitsOf b) s = .ok u →
      exec (.dbyte b) s = .next { u with phase := if u.bitcnt = s.dlen then .dtail else .dpay }) ∧
    (s.bitcnt.toNat < s.dlen.toNat → ∀ t, exec (.dbyte b) s = .next t → t.err = .noFault →
      t.bitcnt.toNat = min (s.bitcnt.toNat + 8) s.dlen.toNat ∧
      (t.bitcnt = s.dlen → t.phase = .dtail ∧ t.walk = t.root) ∧
      (t.bitcnt ≠ s.dlen → t.phase = .dpay) ∧
      (∀ k, k < 8 → s.dlen.toNat ≤ s.bitcnt.toNat + k → b.getLsbD (7 - k) = false) ∧
      t = { s with bitcnt := t.bitcnt, walk := t.walk, outs := t.outs, phase := t.phase }) ∧
    (Sound s → s.bitcnt.toNat < s.dlen.toNat → (readNode s.node s.root.toNat).leaf = false →
      (∀ bit : Bool, decBit bit s = .ok
        (if (readNode s.node (childOf s.node s.walk bit).toNat).leaf then
          { s with
            outs := s.outs ++ [(readNode s.node (childOf s.node s.walk bit).toNat).sym]
            walk := s.root, bitcnt := s.bitcnt + 1#64 }
        else { s with walk := childOf s.node s.walk bit, bitcnt := s.bitcnt + 1#64 })) ∧
      ∃ n : BitLen, n.toNat = min (s.bitcnt.toNat + 8) s.dlen.toNat ∧
        let declared := (bitsOf b).take (n.toNat - s.bitcnt.toNat)
        let pad := (bitsOf b).drop (n.toNat - s.bitcnt.toNat)
        let w := walkBits s.node s.root s.walk declared
        exec (.dbyte b) s = .next
          (if (n = s.dlen ∧ w.2 ≠ s.root) ∨ true ∈ pad then { s with err := .corruptArtifact, einfo := encode (.dbyte b) }
          else { s with
            outs := s.outs ++ w.1, walk := w.2, bitcnt := n, phase := if n = s.dlen then .dtail else .dpay }))

/-- R163 to R165: with a single-leaf tree a payload byte of 0 bits emits the symbol once per declared bit, and any 1 bit is
CorruptArtifact. -/
def Obligations.SingleLeafPayloadByte : Prop :=
  ∀ (s : State) (b : Byte), s.err = .noFault → s.phase = .dpay → s.bitcnt.toNat < s.dlen.toNat →
    s.root.toNat < 511 → (readNode s.node s.root.toNat).leaf = true → s.walk = s.root →
    ∃ n : BitLen, n.toNat = min (s.bitcnt.toNat + 8) s.dlen.toNat ∧
      exec (.dbyte b) s = .next
        (if b = 0#8 then
          { s with
            outs := s.outs ++ List.replicate (n.toNat - s.bitcnt.toNat) (readNode s.node s.root.toNat).sym
            bitcnt := n, phase := if n = s.dlen then .dtail else .dpay }
        else { s with err := .corruptArtifact, einfo := encode (.dbyte b) })

/-- R167: one byte more than the header declares is CorruptArtifact. -/
def Obligations.TrailingByteIsCorrupt : Prop :=
  ∀ (s : State) (b : Byte), s.err = .noFault → s.phase = .dtail →
    exec (.dbyte b) s = .next { s with err := .corruptArtifact, einfo := encode (.dbyte b) }

/-- R168: DEND completes the call in DTAIL; in IDLE, DHDR and DPAY the artifact was cut short. -/
def Obligations.DendEndsTheCall : Prop :=
  ∀ s : State, s.err = .noFault →
    (s.phase = .dtail → exec .dend s = .next { s with phase := .ddone }) ∧
    (s.phase = .idle ∨ s.phase = .dhdr ∨ s.phase = .dpay →
      exec .dend s = .next { s with err := .corruptArtifact, einfo := encode .dend })

/-! ### Invariants -/

/-- R26, R27, R29, R65: every step keeps each memory in its one canonical form, with every index in range. -/
def Obligations.StepKeepsMemoriesCanonical : Prop :=
  ∀ s t : State, MemoriesCanonical s → step s = .next t → MemoriesCanonical t

/-- R24: every step keeps EINFO at 0 while ERR is 0. -/
def Obligations.StepKeepsEinfoQuiet : Prop :=
  ∀ s t : State, EinfoQuiet s → step s = .next t → EinfoQuiet t

/-- R32, R71, R228: from every sound state the model does not stop, and the next state is sound: the tables are never stale,
WALK is the root or an internal node, and every presented command completes. -/
def Obligations.SoundStateNeverStops : Prop :=
  ∀ s : State, Sound s → ∃ t, step s = .next t ∧ Sound t

/-- R30, R31, R164: every step keeps what the payload registers hold in each phase. -/
def Obligations.StepKeepsPayloadSound : Prop :=
  ∀ s t : State, PayloadSound s → step s = .next t → PayloadSound t

/-- R33, R161, R162: every step keeps what the header parser's registers hold in each phase; after the header NLEAF = HN. -/
def Obligations.StepKeepsHeaderSound : Prop :=
  ∀ s t : State, HeaderSound s → step s = .next t → HeaderSound t

/-- R40: the reset state meets every invariant. -/
def Obligations.ResetMeetsTheInvariants : Prop :=
  MemoriesCanonical State.reset ∧ EinfoQuiet State.reset ∧ Sound State.reset ∧ PayloadSound State.reset ∧
    HeaderSound State.reset

/-! ### Calls -/

/-- R144, R145: an encode call of counted symbols ends in EDONE, without a fault, with header and payload on OUTB: the payload
is the codes in order, then fewer than eight zero bits. -/
def Obligations.EncodeCallEmitsTheArtifact : Prop :=
  ∀ (s : State) (p : BitVec 1) (S : List Sym), (∀ x, S.count x < 2 ^ 32) → (p = 0#1 ∨ S ≠ []) →
    ∃ t payload, runCommands (Instr.compress p S) s = .next t ∧ t.err = .noFault ∧ t.phase = .edone ∧
      (∀ x : Sym, (readFreq t.freq x.toNat).toNat = S.count x) ∧
      t.dlen.toNat = (S.map fun x => (lookup t.code x).length).sum ∧
      t.outb = s.outb ++ headerBytes t.nleaf t.freq t.dlen ++ payload ∧ t.outs = s.outs ∧
      payload.length = (t.dlen.toNat + 7) / 8 ∧
      payload.flatMap bitsOf =
        S.flatMap (lookup t.code) ++ List.replicate (8 * payload.length - t.dlen.toNat) false

/-- R169: round trip. Decoding what an encode call has emitted gives back the encoded symbols, whatever the states the two calls
start in. -/
def Obligations.RoundTrip : Prop :=
  ∀ (s u : State) (p : BitVec 1) (S : List Sym), (∀ x, S.count x < 2 ^ 32) → (p = 0#1 ∨ S ≠ []) →
    ∃ t v artifact, runCommands (Instr.compress p S) s = .next t ∧ t.err = .noFault ∧ t.phase = .edone ∧
      t.outb = s.outb ++ artifact ∧
      runCommands (Instr.decompress artifact) u = .next v ∧ v.err = .noFault ∧ v.phase = .ddone ∧
      v.outs = u.outs ++ S ∧ v.outb = u.outb

/-- R170: with any payload bytes changed, the decoder fails with CorruptArtifact, or ends well with symbols other than the
original ones. -/
def Obligations.ChangedPayloadIsNeverTheOriginal : Prop :=
  ∀ (s u : State) (p : BitVec 1) (S : List Sym), (∀ x, S.count x < 2 ^ 32) → (p = 0#1 ∨ S ≠ []) →
    ∃ t payload, runCommands (Instr.compress p S) s = .next t ∧ t.err = .noFault ∧
      t.outb = s.outb ++ headerBytes t.nleaf t.freq t.dlen ++ payload ∧
      ∀ payload' : List Byte, payload'.length = payload.length → payload' ≠ payload →
        ∃ v, runCommands (Instr.decompress (headerBytes t.nleaf t.freq t.dlen ++ payload')) u = .next v ∧
          (v.err = .corruptArtifact ∨ (v.err = .noFault ∧ v.phase = .ddone ∧ v.outs ≠ u.outs ++ S))
end

