-- ==== Sys2Proof/Laws/Memory.lean ====
section
/-!
SUPPORT. The laws of the sparse memories: a read after a write, and the canonical form, which every operation keeps and which
makes equal memories equal data. None of the read laws needs the canonical form.
-/
namespace Sys2Proof.Machine

section
variable {α : Type} {d : α} {m : Memory α} {a b i lo size : Nat} {v : α}

@[simp] theorem Memory.read_nil : Memory.read d [] i = d := rfl

theorem Memory.read_cons : Memory.read d ((b, v) :: m) i = if i = b then v else Memory.read d m i := rfl

theorem Memory.read_erase_same : Memory.read d (Memory.erase a m) a = d := by
  induction m with
  | nil => rfl
  | cons p m ih =>
    simp only [Memory.erase]
    split
    · exact ih
    · rw [Memory.read_cons, if_neg ‹_›, ih]

theorem Memory.read_erase_other (h : i ≠ a) : Memory.read d (Memory.erase a m) i = Memory.read d m i := by
  induction m with
  | nil => rfl
  | cons p m ih =>
    obtain ⟨b, x⟩ := p
    simp only [Memory.erase]
    split
    · subst_vars
      rw [ih, Memory.read_cons, if_neg h]
    · rw [Memory.read_cons, Memory.read_cons, ih]

theorem Memory.read_insert_other (h : i ≠ a) : Memory.read d (Memory.insert a v m) i = Memory.read d m i := by
  induction m with
  | nil => simp [Memory.insert, Memory.read_cons, h]
  | cons p m ih =>
    simp only [Memory.insert]
    split
    · rw [Memory.read_cons, if_neg h]
    · rw [Memory.read_cons, Memory.read_cons, ih]

/-- The index is not listed. -/
def Memory.Unlisted (a : Nat) (m : Memory α) : Prop := ∀ p ∈ m, p.1 ≠ a

theorem Memory.unlisted_erase : Memory.Unlisted a (Memory.erase a m) := by
  induction m with
  | nil => simp [Memory.Unlisted, Memory.erase]
  | cons p m ih =>
    simp only [Memory.erase]
    split
    · exact ih
    · intro q hq
      rcases List.mem_cons.1 hq with rfl | hq
      · exact fun e => ‹¬ a = _› e.symm
      · exact ih q hq

theorem Memory.read_insert_same (h : Memory.Unlisted a m) : Memory.read d (Memory.insert a v m) a = v := by
  induction m with
  | nil => simp [Memory.insert, Memory.read_cons]
  | cons p m ih =>
    simp only [Memory.insert]
    split
    · simp [Memory.read_cons]
    · have := h p (by simp)
      rw [Memory.read_cons, if_neg (fun e => this e.symm)]
      exact ih fun q hq => h q (List.mem_cons_of_mem _ hq)

theorem Memory.read_write_same [DecidableEq α] : Memory.read d (Memory.write d m a v) a = v := by
  unfold Memory.write
  split
  · rw [Memory.read_erase_same, ‹v = d›]
  · exact Memory.read_insert_same Memory.unlisted_erase

theorem Memory.read_write_other [DecidableEq α] (h : i ≠ a) :
    Memory.read d (Memory.write d m a v) i = Memory.read d m i := by
  unfold Memory.write
  split
  · exact Memory.read_erase_other h
  · rw [Memory.read_insert_other h, Memory.read_erase_other h]

theorem Memory.read_write [DecidableEq α] :
    Memory.read d (Memory.write d m a v) i = if i = a then v else Memory.read d m i := by
  split
  · rw [‹i = a›, Memory.read_write_same]
  · exact Memory.read_write_other ‹_›

variable [DecidableEq α]

theorem Memory.wfFrom_cons :
    Memory.wfFrom d size lo ((a, v) :: m) = true ↔
      lo ≤ a ∧ a < size ∧ v ≠ d ∧ Memory.wfFrom d size (a + 1) m = true := by
  simp [Memory.wfFrom, and_assoc]

theorem Memory.wfFrom_weaken {lo' : Nat} (h : Memory.wfFrom d size lo m = true) (hl : lo' ≤ lo) :
    Memory.wfFrom d size lo' m = true := by
  cases m with
  | nil => rfl
  | cons p m =>
    rw [Memory.wfFrom_cons] at h ⊢
    exact ⟨le_trans hl h.1, h.2⟩

theorem Memory.wfFrom_erase (h : Memory.wfFrom d size lo m = true) :
    Memory.wfFrom d size lo (Memory.erase a m) = true := by
  induction m generalizing lo with
  | nil => rfl
  | cons p m ih =>
    rw [Memory.wfFrom_cons] at h
    obtain ⟨h1, h2, h3, h4⟩ := h
    simp only [Memory.erase]
    split
    · exact Memory.wfFrom_weaken (ih h4) (by omega)
    · rw [Memory.wfFrom_cons]
      exact ⟨h1, h2, h3, ih h4⟩

theorem Memory.wfFrom_insert (h : Memory.wfFrom d size lo m = true) (hl : lo ≤ a) (ha : a < size) (hv : v ≠ d)
    (hm : Memory.Unlisted a m) : Memory.wfFrom d size lo (Memory.insert a v m) = true := by
  induction m generalizing lo with
  | nil => simp [Memory.insert, Memory.wfFrom, hl, ha, hv]
  | cons p m ih =>
    obtain ⟨b, x⟩ := p
    have h' := h
    rw [Memory.wfFrom_cons] at h
    obtain ⟨h1, h2, h3, h4⟩ := h
    simp only [Memory.insert]
    split
    · rw [Memory.wfFrom_cons, Memory.wfFrom_cons]
      exact ⟨hl, ha, hv, by omega, h2, h3, h4⟩
    · rw [Memory.wfFrom_cons]
      have hb : b ≠ a := hm (b, x) (by simp)
      exact ⟨h1, h2, h3, ih h4 (by omega) fun q hq => hm q (List.mem_cons_of_mem _ hq)⟩

/-- Every write keeps the canonical form. -/
theorem Memory.wf_write (h : Memory.wf d size m = true) (ha : a < size) :
    Memory.wf d size (Memory.write d m a v) = true := by
  unfold Memory.write Memory.wf at *
  split
  · exact Memory.wfFrom_erase h
  · exact Memory.wfFrom_insert (Memory.wfFrom_erase h) (Nat.zero_le _) ha ‹_› Memory.unlisted_erase

theorem Memory.read_below (h : Memory.wfFrom d size lo m = true) (hi : i < lo) : Memory.read d m i = d := by
  induction m generalizing lo with
  | nil => rfl
  | cons p m ih =>
    rw [Memory.wfFrom_cons] at h
    rw [Memory.read_cons, if_neg (by omega)]
    exact ih h.2.2.2 (by omega)

theorem Memory.read_above (h : Memory.wfFrom d size lo m = true) (hi : size ≤ i) : Memory.read d m i = d := by
  induction m generalizing lo with
  | nil => rfl
  | cons p m ih =>
    rw [Memory.wfFrom_cons] at h
    rw [Memory.read_cons, if_neg (by omega)]
    exact ih h.2.2.2

theorem Memory.wfFrom_ext {m' : Memory α} (h : Memory.wfFrom d size lo m = true)
    (h' : Memory.wfFrom d size lo m' = true) (he : ∀ i, Memory.read d m i = Memory.read d m' i) : m = m' := by
  induction m generalizing lo m' with
  | nil =>
    cases m' with
    | nil => rfl
    | cons p m' =>
      obtain ⟨a, v⟩ := p
      rw [Memory.wfFrom_cons] at h'
      have : d = v := by simpa [Memory.read_cons] using he a
      exact absurd this.symm h'.2.2.1
  | cons p m ih =>
    obtain ⟨a, v⟩ := p
    have hc := h
    rw [Memory.wfFrom_cons] at hc
    cases m' with
    | nil =>
      have := he a
      simp [Memory.read_cons] at this
      exact absurd this hc.2.2.1
    | cons p' m' =>
      obtain ⟨a', v'⟩ := p'
      have hc' := h'
      rw [Memory.wfFrom_cons] at hc'
      have hab : a = a' := by
        rcases Nat.lt_trichotomy a a' with hlt | heq | hgt
        · have := he a
          rw [Memory.read_cons, if_pos rfl, Memory.read_cons, if_neg (by omega),
            Memory.read_below hc'.2.2.2 (by omega)] at this
          exact absurd this hc.2.2.1
        · exact heq
        · have := he a'
          rw [Memory.read_cons, if_neg (by omega), Memory.read_cons, if_pos rfl,
            Memory.read_below hc.2.2.2 (by omega)] at this
          exact absurd this.symm hc'.2.2.1
      subst hab
      have hv : v = v' := by simpa [Memory.read_cons] using he a
      subst hv
      rw [ih hc.2.2.2 hc'.2.2.2]
      intro i
      by_cases hi : i = a
      · rw [Memory.read_below hc.2.2.2 (by omega), Memory.read_below hc'.2.2.2 (by omega)]
      · simpa [Memory.read_cons, hi] using he i

/-- Two canonical memories that read alike everywhere are the same data. -/
theorem Memory.wf_ext {m' : Memory α} (h : Memory.wf d size m = true) (h' : Memory.wf d size m' = true)
    (he : ∀ i, Memory.read d m i = Memory.read d m' i) : m = m' :=
  Memory.wfFrom_ext h h' he

end

theorem readFreq_writeFreq (m : Memory Count) (a i : Nat) (c : Count) :
    readFreq (writeFreq m a c) i = if i = a then c else readFreq m i := Memory.read_write

theorem readNode_writeNode (m : Memory Node) (a i : Nat) (x : Node) :
    readNode (writeNode m a x) i = if i = a then x else readNode m i := Memory.read_write

theorem readCode_writeCode (m : Memory CodeEntry) (s t : Sym) (e : CodeEntry) :
    readCode (writeCode m s e) t = if t = s then e else readCode m t := by
  unfold readCode writeCode
  rw [Memory.read_write]
  simp only [BitVec.toNat_inj]

theorem fetchNode_of_lt {m : Memory Node} {i : NodeIdx} (h : i.toNat < 511) :
    fetchNode m i = .ok (readNode m i.toNat) := if_pos h

end Sys2Proof.Machine
end

