-- ==== Sys2Proof/Laws/Queue.lean ====
section
/-!
SUPPORT. The priority queue of spec rule R111: its order is strict and total, and PopMin takes the first member.
-/
namespace Sys2Proof.Machine

theorem before_iff (m : Memory Node) (i j : Nat) :
    before m i j = true ↔
      (readNode m i).weight.toNat < (readNode m j).weight.toNat ∨
        ((readNode m i).weight.toNat = (readNode m j).weight.toNat ∧ i < j) := by
  simp [before, BitVec.lt_def, BitVec.toNat_inj]

theorem before_trans {m : Memory Node} {i j k : Nat} (h : before m i j = true) (h' : before m j k = true) :
    before m i k = true := by
  rw [before_iff] at *; omega

theorem before_of_not {m : Memory Node} {i j : Nat} (h : ¬before m i j = true) (hne : i ≠ j) :
    before m j i = true := by
  rw [before_iff] at *; omega

theorem minOf_mem (m : Memory Node) (i : Nat) (q : List Nat) : minOf m i q ∈ i :: q := by
  induction q generalizing i with
  | nil => simp [minOf]
  | cons j q ih =>
    simp only [minOf]
    have := ih (if before m j i then j else i)
    rcases List.mem_cons.1 this with h | h
    · rw [h]; split <;> simp
    · exact List.mem_cons_of_mem _ (List.mem_cons_of_mem _ h)

theorem minOf_before (m : Memory Node) (i : Nat) (q : List Nat) :
    ∀ j ∈ i :: q, j = minOf m i q ∨ before m (minOf m i q) j = true := by
  induction q generalizing i with
  | nil => simp [minOf]
  | cons j q ih =>
    intro x hx
    simp only [minOf]
    by_cases hb : before m j i = true
    · simp only [hb, if_true]
      rcases List.mem_cons.1 hx with rfl | hx
      · right
        rcases ih j j (by simp) with he | hlt
        · rw [← he]; exact hb
        · exact before_trans hlt hb
      · exact ih j x hx
    · simp only [hb]
      rcases List.mem_cons.1 hx with rfl | hx
      · exact ih x x (by simp)
      · rcases List.mem_cons.1 hx with rfl | hx
        · by_cases he : x = i
          · subst he; exact ih x x (by simp)
          · have hib := before_of_not hb he
            right
            rcases ih i i (by simp) with h | h
            · simp only [Bool.false_eq_true, if_false]
              rw [← h]; exact hib
            · exact before_trans h hib
        · exact ih i x (List.mem_cons_of_mem _ hx)

/-- PopMin answers a member, the queue without it, and that member comes before every other (R111). -/
theorem popMin_spec {m : Memory Node} {q q' : List Nat} {a : Nat} (h : popMin m q = some (a, q')) :
    q.Perm (a :: q') ∧ ∀ j ∈ q', j = a ∨ before m a j = true := by
  cases q with
  | nil => simp [popMin] at h
  | cons i q =>
    simp only [popMin, Option.some.injEq, Prod.mk.injEq] at h
    obtain ⟨rfl, rfl⟩ := h
    exact ⟨List.perm_cons_erase (minOf_mem m i q), fun j hj => minOf_before m i q j (List.mem_of_mem_erase hj)⟩

theorem popMin_eq_none {m : Memory Node} {q : List Nat} : popMin m q = none ↔ q = [] := by
  cases q <;> simp [popMin]

end Sys2Proof.Machine
end

