-- ==== Sys2Proof/Laws/Canonical.lean ====
section
/-!
SUPPORT. Every memory operation keeps the canonical form of its memory (rising indices in range, no entry equal to what an
unlisted one reads as), up to BuildTree and GenTable whole; and the reset memories have it (spec rules R26, R27, R29, R40).
-/
namespace Sys2Proof.Machine

theorem writeFreq_wf {m : Memory Count} (h : Memory.wf 0#32 Config.nsym m = true) (x : Sym) (c : Count) :
    Memory.wf 0#32 Config.nsym (writeFreq m x.toNat c) = true :=
  Memory.wf_write h x.isLt

theorem writeNode_wf {m : Memory Node} (h : Memory.wf Node.zero Config.nodeMax m = true) {i : Nat} (hi : i < 511)
    (x : Node) : Memory.wf Node.zero Config.nodeMax (writeNode m i x) = true :=
  Memory.wf_write h hi

theorem writeCode_wf {m : Memory CodeEntry} (h : Memory.wf CodeEntry.zero Config.nsym m = true) (x : Sym)
    (e : CodeEntry) : Memory.wf CodeEntry.zero Config.nsym (writeCode m x e) = true :=
  Memory.wf_write h x.isLt

theorem push_wf {f : Forest} (h : Memory.wf Node.zero Config.nodeMax f.nodes = true) (hn : f.n < 511) (x : Node) :
    Memory.wf Node.zero Config.nodeMax (f.push x).nodes = true :=
  writeNode_wf h hn x

theorem foldl_addLeaf_wf (freq : Memory Count) (l : List Nat) (f : Forest) (hn : f.n + l.length ≤ 511)
    (h : Memory.wf Node.zero Config.nodeMax f.nodes = true) :
    Memory.wf Node.zero Config.nodeMax (l.foldl (addLeaf freq) f).nodes = true ∧
      (l.foldl (addLeaf freq) f).n ≤ f.n + l.length := by
  induction l generalizing f with
  | nil => exact ⟨h, by simp⟩
  | cons a l ih =>
    simp only [List.foldl_cons, List.length_cons] at hn ⊢
    by_cases ha : readFreq freq a = 0#32
    · have hf : addLeaf freq f a = f := by simp [addLeaf, ha]
      rw [hf]
      have := ih f (by omega) h
      exact ⟨this.1, by omega⟩
    · have hf : addLeaf freq f a = f.push (leafNode a (readFreq freq a)) := by simp [addLeaf, ha]
      rw [hf]
      have hp : (f.push (leafNode a (readFreq freq a))).n = f.n + 1 := rfl
      have := ih (f.push (leafNode a (readFreq freq a))) (by omega) (push_wf h (by omega) _)
      exact ⟨this.1, by omega⟩

theorem placeLeaves_wf (freq : Memory Count) {m : Memory Node} (h : Memory.wf Node.zero Config.nodeMax m = true) :
    Memory.wf Node.zero Config.nodeMax (placeLeaves freq m).nodes = true ∧ (placeLeaves freq m).n ≤ 256 := by
  have hl : allSymbols.length = 256 := by simp [allSymbols]
  have := foldl_addLeaf_wf freq allSymbols ⟨m, 0⟩ (by simp [hl]) h
  exact ⟨this.1, this.2.trans (by simp [hl])⟩

theorem mergeAll_wf (k : Nat) (f : Forest) (q : List Nat) (hn : f.n + q.length ≤ 512)
    (h : Memory.wf Node.zero Config.nodeMax f.nodes = true) :
    Memory.wf Node.zero Config.nodeMax (mergeAll k f q).nodes = true := by
  induction k generalizing f q with
  | zero => exact h
  | succ k ih =>
    simp only [mergeAll]
    split
    · exact h
    · rename_i a q₁ ha
      split
      · exact h
      · rename_i b q₂ hb
        have h1 := (popMin_spec ha).1.length_eq
        have h2 := (popMin_spec hb).1.length_eq
        simp only [List.length_cons] at h1 h2
        refine ih _ _ ?_ (push_wf h (by omega) _)
        simp only [Forest.push, List.length_append, List.length_singleton]
        omega

/-- BuildTree keeps NODE canonical: no index above 510 is written (R65, R112). -/
theorem buildTree_wf {s : State} (h : Memory.wf Node.zero Config.nodeMax s.node = true) :
    Memory.wf Node.zero Config.nodeMax (buildTree s).node = true := by
  obtain ⟨h1, h2⟩ := placeLeaves_wf s.freq h
  exact mergeAll_wf _ _ _ (by simp; omega) h1

theorem assign_wf {m : Memory Node} (fuel : Nat) (i : NodeIdx) (path : BitString) (t t' : Memory CodeEntry)
    (ht : Memory.wf CodeEntry.zero Config.nsym t = true) (h : assign m fuel i path t = .ok t') :
    Memory.wf CodeEntry.zero Config.nsym t' = true := by
  induction fuel generalizing i path t t' with
  | zero =>
    unfold assign at h
    split at h
    · cases h
    · split at h
      · cases h; exact writeCode_wf ht _ _
      · cases h
  | succ k ih =>
    unfold assign at h
    split at h
    · cases h
    · split at h
      · cases h; exact writeCode_wf ht _ _
      · simp only at h
        split at h
        · cases h
        · rename_i u hu
          exact ih _ _ _ _ (ih _ _ _ _ ht hu) h

/-- GenTable answers a canonical CODE (R130). -/
theorem genTable_wf {nn : BitVec 9} {root : NodeIdx} {m : Memory Node} {c : Memory CodeEntry}
    (h : genTable nn root m = .ok c) : Memory.wf CodeEntry.zero Config.nsym c = true := by
  unfold genTable at h
  split at h
  · cases h; rfl
  · split at h
    · cases h
    · split at h
      · cases h; exact writeCode_wf rfl _ _
      · exact assign_wf _ _ _ _ _ rfl h

/-- The reset memories are canonical (R40). -/
theorem reset_memories : Memory.wf 0#32 Config.nsym State.reset.freq = true ∧
    Memory.wf Node.zero Config.nodeMax State.reset.node = true ∧
    Memory.wf CodeEntry.zero Config.nsym State.reset.code = true := ⟨rfl, rfl, rfl⟩

end Sys2Proof.Machine
end

