-- ==== Sys2Proof/Laws/State.lean ====
section
/-!
SUPPORT. Each field after each named update of the state, so that no proof unfolds a record update.
-/
namespace Sys2Proof.Machine

/-! ### emitBytes (R34) -/

@[simp] theorem emitBytes_ctrl (bs : List Byte) (s : State) : (emitBytes bs s).ctrl = s.ctrl := rfl
@[simp] theorem emitBytes_phase (bs : List Byte) (s : State) : (emitBytes bs s).phase = s.phase := rfl
@[simp] theorem emitBytes_err (bs : List Byte) (s : State) : (emitBytes bs s).err = s.err := rfl
@[simp] theorem emitBytes_einfo (bs : List Byte) (s : State) : (emitBytes bs s).einfo = s.einfo := rfl
@[simp] theorem emitBytes_freq (bs : List Byte) (s : State) : (emitBytes bs s).freq = s.freq := rfl
@[simp] theorem emitBytes_node (bs : List Byte) (s : State) : (emitBytes bs s).node = s.node := rfl
@[simp] theorem emitBytes_nleaf (bs : List Byte) (s : State) : (emitBytes bs s).nleaf = s.nleaf := rfl
@[simp] theorem emitBytes_nn (bs : List Byte) (s : State) : (emitBytes bs s).nn = s.nn := rfl
@[simp] theorem emitBytes_root (bs : List Byte) (s : State) : (emitBytes bs s).root = s.root := rfl
@[simp] theorem emitBytes_code (bs : List Byte) (s : State) : (emitBytes bs s).code = s.code := rfl
@[simp] theorem emitBytes_dlen (bs : List Byte) (s : State) : (emitBytes bs s).dlen = s.dlen := rfl
@[simp] theorem emitBytes_bitcnt (bs : List Byte) (s : State) : (emitBytes bs s).bitcnt = s.bitcnt := rfl
@[simp] theorem emitBytes_acc (bs : List Byte) (s : State) : (emitBytes bs s).acc = s.acc := rfl
@[simp] theorem emitBytes_walk (bs : List Byte) (s : State) : (emitBytes bs s).walk = s.walk := rfl
@[simp] theorem emitBytes_hcnt (bs : List Byte) (s : State) : (emitBytes bs s).hcnt = s.hcnt := rfl
@[simp] theorem emitBytes_hn (bs : List Byte) (s : State) : (emitBytes bs s).hn = s.hn := rfl
@[simp] theorem emitBytes_hsym (bs : List Byte) (s : State) : (emitBytes bs s).hsym = s.hsym := rfl
@[simp] theorem emitBytes_hshift (bs : List Byte) (s : State) : (emitBytes bs s).hshift = s.hshift := rfl
@[simp] theorem emitBytes_outb (bs : List Byte) (s : State) : (emitBytes bs s).outb = s.outb ++ bs := rfl
@[simp] theorem emitBytes_outs (bs : List Byte) (s : State) : (emitBytes bs s).outs = s.outs := rfl
@[simp] theorem emitBytes_host (bs : List Byte) (s : State) : (emitBytes bs s).host = s.host := rfl
@[simp] theorem emitBytes_statData (bs : List Byte) (s : State) : (emitBytes bs s).statData = s.statData := rfl

/-! ### emitByte (R34) -/

@[simp] theorem emitByte_ctrl (b : Byte) (s : State) : (emitByte b s).ctrl = s.ctrl := rfl
@[simp] theorem emitByte_phase (b : Byte) (s : State) : (emitByte b s).phase = s.phase := rfl
@[simp] theorem emitByte_err (b : Byte) (s : State) : (emitByte b s).err = s.err := rfl
@[simp] theorem emitByte_einfo (b : Byte) (s : State) : (emitByte b s).einfo = s.einfo := rfl
@[simp] theorem emitByte_freq (b : Byte) (s : State) : (emitByte b s).freq = s.freq := rfl
@[simp] theorem emitByte_node (b : Byte) (s : State) : (emitByte b s).node = s.node := rfl
@[simp] theorem emitByte_nleaf (b : Byte) (s : State) : (emitByte b s).nleaf = s.nleaf := rfl
@[simp] theorem emitByte_nn (b : Byte) (s : State) : (emitByte b s).nn = s.nn := rfl
@[simp] theorem emitByte_root (b : Byte) (s : State) : (emitByte b s).root = s.root := rfl
@[simp] theorem emitByte_code (b : Byte) (s : State) : (emitByte b s).code = s.code := rfl
@[simp] theorem emitByte_dlen (b : Byte) (s : State) : (emitByte b s).dlen = s.dlen := rfl
@[simp] theorem emitByte_bitcnt (b : Byte) (s : State) : (emitByte b s).bitcnt = s.bitcnt := rfl
@[simp] theorem emitByte_acc (b : Byte) (s : State) : (emitByte b s).acc = s.acc := rfl
@[simp] theorem emitByte_walk (b : Byte) (s : State) : (emitByte b s).walk = s.walk := rfl
@[simp] theorem emitByte_hcnt (b : Byte) (s : State) : (emitByte b s).hcnt = s.hcnt := rfl
@[simp] theorem emitByte_hn (b : Byte) (s : State) : (emitByte b s).hn = s.hn := rfl
@[simp] theorem emitByte_hsym (b : Byte) (s : State) : (emitByte b s).hsym = s.hsym := rfl
@[simp] theorem emitByte_hshift (b : Byte) (s : State) : (emitByte b s).hshift = s.hshift := rfl
@[simp] theorem emitByte_outb (b : Byte) (s : State) : (emitByte b s).outb = s.outb ++ [b] := rfl
@[simp] theorem emitByte_outs (b : Byte) (s : State) : (emitByte b s).outs = s.outs := rfl
@[simp] theorem emitByte_host (b : Byte) (s : State) : (emitByte b s).host = s.host := rfl
@[simp] theorem emitByte_statData (b : Byte) (s : State) : (emitByte b s).statData = s.statData := rfl

/-! ### emitSym (R34) -/

@[simp] theorem emitSym_ctrl (x : Sym) (s : State) : (emitSym x s).ctrl = s.ctrl := rfl
@[simp] theorem emitSym_phase (x : Sym) (s : State) : (emitSym x s).phase = s.phase := rfl
@[simp] theorem emitSym_err (x : Sym) (s : State) : (emitSym x s).err = s.err := rfl
@[simp] theorem emitSym_einfo (x : Sym) (s : State) : (emitSym x s).einfo = s.einfo := rfl
@[simp] theorem emitSym_freq (x : Sym) (s : State) : (emitSym x s).freq = s.freq := rfl
@[simp] theorem emitSym_node (x : Sym) (s : State) : (emitSym x s).node = s.node := rfl
@[simp] theorem emitSym_nleaf (x : Sym) (s : State) : (emitSym x s).nleaf = s.nleaf := rfl
@[simp] theorem emitSym_nn (x : Sym) (s : State) : (emitSym x s).nn = s.nn := rfl
@[simp] theorem emitSym_root (x : Sym) (s : State) : (emitSym x s).root = s.root := rfl
@[simp] theorem emitSym_code (x : Sym) (s : State) : (emitSym x s).code = s.code := rfl
@[simp] theorem emitSym_dlen (x : Sym) (s : State) : (emitSym x s).dlen = s.dlen := rfl
@[simp] theorem emitSym_bitcnt (x : Sym) (s : State) : (emitSym x s).bitcnt = s.bitcnt := rfl
@[simp] theorem emitSym_acc (x : Sym) (s : State) : (emitSym x s).acc = s.acc := rfl
@[simp] theorem emitSym_walk (x : Sym) (s : State) : (emitSym x s).walk = s.walk := rfl
@[simp] theorem emitSym_hcnt (x : Sym) (s : State) : (emitSym x s).hcnt = s.hcnt := rfl
@[simp] theorem emitSym_hn (x : Sym) (s : State) : (emitSym x s).hn = s.hn := rfl
@[simp] theorem emitSym_hsym (x : Sym) (s : State) : (emitSym x s).hsym = s.hsym := rfl
@[simp] theorem emitSym_hshift (x : Sym) (s : State) : (emitSym x s).hshift = s.hshift := rfl
@[simp] theorem emitSym_outb (x : Sym) (s : State) : (emitSym x s).outb = s.outb := rfl
@[simp] theorem emitSym_outs (x : Sym) (s : State) : (emitSym x s).outs = s.outs ++ [x] := rfl
@[simp] theorem emitSym_host (x : Sym) (s : State) : (emitSym x s).host = s.host := rfl
@[simp] theorem emitSym_statData (x : Sym) (s : State) : (emitSym x s).statData = s.statData := rfl

/-! ### raise (R190) -/

@[simp] theorem raise_ctrl (e : Err) (w : Word) (s : State) : (raise e w s).ctrl = s.ctrl := rfl
@[simp] theorem raise_phase (e : Err) (w : Word) (s : State) : (raise e w s).phase = s.phase := rfl
@[simp] theorem raise_err (e : Err) (w : Word) (s : State) : (raise e w s).err = e := rfl
@[simp] theorem raise_einfo (e : Err) (w : Word) (s : State) : (raise e w s).einfo = w := rfl
@[simp] theorem raise_freq (e : Err) (w : Word) (s : State) : (raise e w s).freq = s.freq := rfl
@[simp] theorem raise_node (e : Err) (w : Word) (s : State) : (raise e w s).node = s.node := rfl
@[simp] theorem raise_nleaf (e : Err) (w : Word) (s : State) : (raise e w s).nleaf = s.nleaf := rfl
@[simp] theorem raise_nn (e : Err) (w : Word) (s : State) : (raise e w s).nn = s.nn := rfl
@[simp] theorem raise_root (e : Err) (w : Word) (s : State) : (raise e w s).root = s.root := rfl
@[simp] theorem raise_code (e : Err) (w : Word) (s : State) : (raise e w s).code = s.code := rfl
@[simp] theorem raise_dlen (e : Err) (w : Word) (s : State) : (raise e w s).dlen = s.dlen := rfl
@[simp] theorem raise_bitcnt (e : Err) (w : Word) (s : State) : (raise e w s).bitcnt = s.bitcnt := rfl
@[simp] theorem raise_acc (e : Err) (w : Word) (s : State) : (raise e w s).acc = s.acc := rfl
@[simp] theorem raise_walk (e : Err) (w : Word) (s : State) : (raise e w s).walk = s.walk := rfl
@[simp] theorem raise_hcnt (e : Err) (w : Word) (s : State) : (raise e w s).hcnt = s.hcnt := rfl
@[simp] theorem raise_hn (e : Err) (w : Word) (s : State) : (raise e w s).hn = s.hn := rfl
@[simp] theorem raise_hsym (e : Err) (w : Word) (s : State) : (raise e w s).hsym = s.hsym := rfl
@[simp] theorem raise_hshift (e : Err) (w : Word) (s : State) : (raise e w s).hshift = s.hshift := rfl
@[simp] theorem raise_outb (e : Err) (w : Word) (s : State) : (raise e w s).outb = s.outb := rfl
@[simp] theorem raise_outs (e : Err) (w : Word) (s : State) : (raise e w s).outs = s.outs := rfl
@[simp] theorem raise_host (e : Err) (w : Word) (s : State) : (raise e w s).host = s.host := rfl
@[simp] theorem raise_statData (e : Err) (w : Word) (s : State) : (raise e w s).statData = s.statData := rfl

/-! ### headerTaken (R161) -/

@[simp] theorem headerTaken_ctrl (s : State) : (headerTaken s).ctrl = s.ctrl := rfl
@[simp] theorem headerTaken_phase (s : State) : (headerTaken s).phase = .dhdr := rfl
@[simp] theorem headerTaken_err (s : State) : (headerTaken s).err = s.err := rfl
@[simp] theorem headerTaken_einfo (s : State) : (headerTaken s).einfo = s.einfo := rfl
@[simp] theorem headerTaken_freq (s : State) : (headerTaken s).freq = s.freq := rfl
@[simp] theorem headerTaken_node (s : State) : (headerTaken s).node = s.node := rfl
@[simp] theorem headerTaken_nleaf (s : State) : (headerTaken s).nleaf = s.nleaf := rfl
@[simp] theorem headerTaken_nn (s : State) : (headerTaken s).nn = s.nn := rfl
@[simp] theorem headerTaken_root (s : State) : (headerTaken s).root = s.root := rfl
@[simp] theorem headerTaken_code (s : State) : (headerTaken s).code = s.code := rfl
@[simp] theorem headerTaken_dlen (s : State) : (headerTaken s).dlen = s.dlen := rfl
@[simp] theorem headerTaken_bitcnt (s : State) : (headerTaken s).bitcnt = s.bitcnt := rfl
@[simp] theorem headerTaken_acc (s : State) : (headerTaken s).acc = s.acc := rfl
@[simp] theorem headerTaken_walk (s : State) : (headerTaken s).walk = s.walk := rfl
@[simp] theorem headerTaken_hcnt (s : State) : (headerTaken s).hcnt = s.hcnt + 1#11 := rfl
@[simp] theorem headerTaken_hn (s : State) : (headerTaken s).hn = s.hn := rfl
@[simp] theorem headerTaken_hsym (s : State) : (headerTaken s).hsym = s.hsym := rfl
@[simp] theorem headerTaken_hshift (s : State) : (headerTaken s).hshift = s.hshift := rfl
@[simp] theorem headerTaken_outb (s : State) : (headerTaken s).outb = s.outb := rfl
@[simp] theorem headerTaken_outs (s : State) : (headerTaken s).outs = s.outs := rfl
@[simp] theorem headerTaken_host (s : State) : (headerTaken s).host = s.host := rfl
@[simp] theorem headerTaken_statData (s : State) : (headerTaken s).statData = s.statData := rfl

/-! ### bitTaken (R163) -/

@[simp] theorem bitTaken_ctrl (s : State) : (bitTaken s).ctrl = s.ctrl := rfl
@[simp] theorem bitTaken_phase (s : State) : (bitTaken s).phase = s.phase := rfl
@[simp] theorem bitTaken_err (s : State) : (bitTaken s).err = s.err := rfl
@[simp] theorem bitTaken_einfo (s : State) : (bitTaken s).einfo = s.einfo := rfl
@[simp] theorem bitTaken_freq (s : State) : (bitTaken s).freq = s.freq := rfl
@[simp] theorem bitTaken_node (s : State) : (bitTaken s).node = s.node := rfl
@[simp] theorem bitTaken_nleaf (s : State) : (bitTaken s).nleaf = s.nleaf := rfl
@[simp] theorem bitTaken_nn (s : State) : (bitTaken s).nn = s.nn := rfl
@[simp] theorem bitTaken_root (s : State) : (bitTaken s).root = s.root := rfl
@[simp] theorem bitTaken_code (s : State) : (bitTaken s).code = s.code := rfl
@[simp] theorem bitTaken_dlen (s : State) : (bitTaken s).dlen = s.dlen := rfl
@[simp] theorem bitTaken_bitcnt (s : State) : (bitTaken s).bitcnt = s.bitcnt + 1#64 := rfl
@[simp] theorem bitTaken_acc (s : State) : (bitTaken s).acc = s.acc := rfl
@[simp] theorem bitTaken_walk (s : State) : (bitTaken s).walk = s.walk := rfl
@[simp] theorem bitTaken_hcnt (s : State) : (bitTaken s).hcnt = s.hcnt := rfl
@[simp] theorem bitTaken_hn (s : State) : (bitTaken s).hn = s.hn := rfl
@[simp] theorem bitTaken_hsym (s : State) : (bitTaken s).hsym = s.hsym := rfl
@[simp] theorem bitTaken_hshift (s : State) : (bitTaken s).hshift = s.hshift := rfl
@[simp] theorem bitTaken_outb (s : State) : (bitTaken s).outb = s.outb := rfl
@[simp] theorem bitTaken_outs (s : State) : (bitTaken s).outs = s.outs := rfl
@[simp] theorem bitTaken_host (s : State) : (bitTaken s).host = s.host := rfl
@[simp] theorem bitTaken_statData (s : State) : (bitTaken s).statData = s.statData := rfl

/-! ### buildTree (R112) -/

@[simp] theorem buildTree_ctrl (s : State) : (buildTree s).ctrl = s.ctrl := rfl
@[simp] theorem buildTree_phase (s : State) : (buildTree s).phase = s.phase := rfl
@[simp] theorem buildTree_err (s : State) : (buildTree s).err = s.err := rfl
@[simp] theorem buildTree_einfo (s : State) : (buildTree s).einfo = s.einfo := rfl
@[simp] theorem buildTree_freq (s : State) : (buildTree s).freq = s.freq := rfl
@[simp] theorem buildTree_node (s : State) : (buildTree s).node = (growForest s.freq s.node).nodes := rfl
@[simp] theorem buildTree_nleaf (s : State) : (buildTree s).nleaf = BitVec.ofNat 9 (placeLeaves s.freq s.node).n := rfl
@[simp] theorem buildTree_nn (s : State) : (buildTree s).nn = BitVec.ofNat 9 (growForest s.freq s.node).n := rfl
@[simp] theorem buildTree_code (s : State) : (buildTree s).code = s.code := rfl
@[simp] theorem buildTree_dlen (s : State) : (buildTree s).dlen = s.dlen := rfl
@[simp] theorem buildTree_bitcnt (s : State) : (buildTree s).bitcnt = s.bitcnt := rfl
@[simp] theorem buildTree_acc (s : State) : (buildTree s).acc = s.acc := rfl
@[simp] theorem buildTree_walk (s : State) : (buildTree s).walk = (buildTree s).root := rfl
@[simp] theorem buildTree_hcnt (s : State) : (buildTree s).hcnt = s.hcnt := rfl
@[simp] theorem buildTree_hn (s : State) : (buildTree s).hn = s.hn := rfl
@[simp] theorem buildTree_hsym (s : State) : (buildTree s).hsym = s.hsym := rfl
@[simp] theorem buildTree_hshift (s : State) : (buildTree s).hshift = s.hshift := rfl
@[simp] theorem buildTree_outb (s : State) : (buildTree s).outb = s.outb := rfl
@[simp] theorem buildTree_outs (s : State) : (buildTree s).outs = s.outs := rfl
@[simp] theorem buildTree_host (s : State) : (buildTree s).host = s.host := rfl
@[simp] theorem buildTree_statData (s : State) : (buildTree s).statData = s.statData := rfl

/-! ### answerStatus (R62) -/

@[simp] theorem answerStatus_ctrl (a : StatAddr) (s : State) : (answerStatus a s).ctrl = s.ctrl := rfl
@[simp] theorem answerStatus_phase (a : StatAddr) (s : State) : (answerStatus a s).phase = s.phase := rfl
@[simp] theorem answerStatus_err (a : StatAddr) (s : State) : (answerStatus a s).err = s.err := rfl
@[simp] theorem answerStatus_einfo (a : StatAddr) (s : State) : (answerStatus a s).einfo = s.einfo := rfl
@[simp] theorem answerStatus_freq (a : StatAddr) (s : State) : (answerStatus a s).freq = s.freq := rfl
@[simp] theorem answerStatus_node (a : StatAddr) (s : State) : (answerStatus a s).node = s.node := rfl
@[simp] theorem answerStatus_nleaf (a : StatAddr) (s : State) : (answerStatus a s).nleaf = s.nleaf := rfl
@[simp] theorem answerStatus_nn (a : StatAddr) (s : State) : (answerStatus a s).nn = s.nn := rfl
@[simp] theorem answerStatus_root (a : StatAddr) (s : State) : (answerStatus a s).root = s.root := rfl
@[simp] theorem answerStatus_code (a : StatAddr) (s : State) : (answerStatus a s).code = s.code := rfl
@[simp] theorem answerStatus_dlen (a : StatAddr) (s : State) : (answerStatus a s).dlen = s.dlen := rfl
@[simp] theorem answerStatus_bitcnt (a : StatAddr) (s : State) : (answerStatus a s).bitcnt = s.bitcnt := rfl
@[simp] theorem answerStatus_acc (a : StatAddr) (s : State) : (answerStatus a s).acc = s.acc := rfl
@[simp] theorem answerStatus_walk (a : StatAddr) (s : State) : (answerStatus a s).walk = s.walk := rfl
@[simp] theorem answerStatus_hcnt (a : StatAddr) (s : State) : (answerStatus a s).hcnt = s.hcnt := rfl
@[simp] theorem answerStatus_hn (a : StatAddr) (s : State) : (answerStatus a s).hn = s.hn := rfl
@[simp] theorem answerStatus_hsym (a : StatAddr) (s : State) : (answerStatus a s).hsym = s.hsym := rfl
@[simp] theorem answerStatus_hshift (a : StatAddr) (s : State) : (answerStatus a s).hshift = s.hshift := rfl
@[simp] theorem answerStatus_outb (a : StatAddr) (s : State) : (answerStatus a s).outb = s.outb := rfl
@[simp] theorem answerStatus_outs (a : StatAddr) (s : State) : (answerStatus a s).outs = s.outs := rfl
@[simp] theorem answerStatus_host (a : StatAddr) (s : State) : (answerStatus a s).host = s.host := rfl
@[simp] theorem answerStatus_statData (a : StatAddr) (s : State) : (answerStatus a s).statData = statRead s a := rfl

end Sys2Proof.Machine
end

