-- ==== Sys2Proof/Laws/Ops.lean ====
section
/-!
SUPPORT. Everything the steps of spec rule R100 can do with a command: complete, raise its own fault, raise Sequence, be
ignored, or stop the model.
-/
namespace Sys2Proof.Machine

variable {i : Instr} {rule : State → Effect} {s t : State}

theorem execute_ok (h : s.err = .noFault) (ha : accepts i s.phase = true) (hr : rule s = .ok t) :
    execute i rule s = .next t := by
  rw [execute, if_pos h, if_pos ha, hr]

theorem execute_raised {e : Err} (h : s.err = .noFault) (ha : accepts i s.phase = true)
    (hr : rule s = .error (.raised e)) : execute i rule s = .next { s with err := e, einfo := encode i } := by
  rw [execute, if_pos h, if_pos ha, hr]
  rfl

theorem execute_sequence (h : s.err = .noFault) (ha : accepts i s.phase = false) :
    execute i rule s = .next { s with err := .sequence, einfo := encode i } := by
  rw [execute, if_pos h, if_neg (by simp [ha])]
  rfl

theorem execute_ignored (h : s.err ≠ .noFault) : execute i rule s = .next s := by
  rw [execute, if_neg h]

/-- Whatever a command answers, one of these holds (R100, R190, R197, R201). -/
theorem execute_cases (h : execute i rule s = .next t) :
    (s.err ≠ .noFault ∧ t = s) ∨
    (s.err = .noFault ∧ accepts i s.phase = false ∧ t = { s with err := .sequence, einfo := encode i }) ∨
    (s.err = .noFault ∧ accepts i s.phase = true ∧ rule s = .ok t) ∨
    ∃ e, s.err = .noFault ∧ accepts i s.phase = true ∧ rule s = .error (.raised e) ∧
      t = { s with err := e, einfo := encode i } := by
  unfold execute at h
  split at h
  · split at h
    · split at h
      · rename_i he ha _ u hu
        cases h
        exact Or.inr (Or.inr (Or.inl ⟨he, ha, hu⟩))
      · rename_i he ha _ e hu
        cases h
        exact Or.inr (Or.inr (Or.inr ⟨e, he, ha, hu, rfl⟩))
      · cases h
    · rename_i he ha
      cases h
      exact Or.inr (Or.inl ⟨he, by simpa using ha, rfl⟩)
  · rename_i he
    cases h
    exact Or.inl ⟨he, rfl⟩

/-- A command answers a next state unless its own rule stops the model. -/
theorem execute_next (h : ∀ f, rule s ≠ .error (.stopped f)) : ∃ t, execute i rule s = .next t := by
  unfold execute
  split
  · split
    · split
      · exact ⟨_, rfl⟩
      · exact ⟨_, rfl⟩
      · rename_i hf
        exact absurd hf (h _)
    · exact ⟨_, rfl⟩
  · exact ⟨_, rfl⟩

end Sys2Proof.Machine
end

