-- ==== Sys2Proof/Laws/Exec.lean ====
section
/-!
SUPPORT. Each command as its own rule under the common steps of R100: what a proof about `exec` unfolds to.
-/
namespace Sys2Proof.Machine

variable (s : State)

theorem exec_nop : exec .nop s = execute .nop (fun t => .ok t) s := rfl
theorem exec_rst : exec .rst s = .next (clearCall s) := rfl
theorem exec_cfg (imm : BitVec 1) : exec (.cfg imm) s = execute (.cfg imm) (cfgRule imm) s := rfl
theorem exec_cnt (x : Sym) : exec (.cnt x) s = execute (.cnt x) (cntRule x) s := rfl
theorem exec_build : exec .build s = execute .build buildRule s := rfl
theorem exec_gen : exec .gen s = execute .gen genRule s := rfl
theorem exec_emith : exec .emith s = execute .emith emithRule s := rfl
theorem exec_enc (x : Sym) : exec (.enc x) s = execute (.enc x) (encRule x) s := rfl
theorem exec_flush : exec .flush s = execute .flush flushRule s := rfl
theorem exec_dbyte (b : Byte) : exec (.dbyte b) s = execute (.dbyte b) (dbyteRule b) s := rfl
theorem exec_dend : exec .dend s = execute .dend dendRule s := rfl

/-- The own rule of each command but RST. -/
def ruleOf : Instr → State → Effect
  | .nop => fun t => .ok t
  | .rst => fun t => .ok (clearCall t)
  | .cfg imm => cfgRule imm
  | .cnt x => cntRule x
  | .build => buildRule
  | .gen => genRule
  | .emith => emithRule
  | .enc x => encRule x
  | .flush => flushRule
  | .dbyte b => dbyteRule b
  | .dend => dendRule

/-- Every command but RST goes through the common steps. -/
theorem exec_eq_execute {i : Instr} (h : i ≠ .rst) : exec i s = execute i (ruleOf i) s := by
  cases i with
  | rst => exact absurd rfl h
  | _ => rfl

end Sys2Proof.Machine
end

