-- ==== Sys2Proof/Laws/Forest.lean ====
section
/-!
SUPPORT. What BuildTree leaves (spec rules R112 to R114): the leaves it places, and the one tree, with its shape, that the
merging loop makes of them. Every later fact about the tree, the code table and the decoder's walk comes from
`growForest_spec`.
-/
namespace Sys2Proof.Machine

/-- A Huffman tree by node index. -/
inductive HTree where
  | leaf (i : Nat)
  | node (i : Nat) (l r : HTree)

namespace HTree

def idx : HTree → Nat
  | leaf i => i
  | node i _ _ => i

def indices : HTree → List Nat
  | leaf i => [i]
  | node i l r => i :: (l.indices ++ r.indices)

def leafCount : HTree → Nat
  | leaf _ => 1
  | node _ l r => l.leafCount + r.leafCount

def depth : HTree → Nat
  | leaf _ => 0
  | node _ l r => max l.depth r.depth + 1

theorem idx_mem (T : HTree) : T.idx ∈ T.indices := by cases T <;> simp [idx, indices]

theorem leafCount_pos (T : HTree) : 0 < T.leafCount := by
  induction T with
  | leaf => simp [leafCount]
  | node i l r hl hr => simp only [leafCount]; omega

theorem length_indices (T : HTree) : T.indices.length + 1 = 2 * T.leafCount := by
  induction T with
  | leaf => simp [leafCount, indices]
  | node i l r hl hr => simp only [leafCount, indices, List.length_cons, List.length_append]; omega

theorem depth_lt (T : HTree) : T.depth + 1 ≤ T.leafCount := by
  induction T with
  | leaf => simp [leafCount, depth]
  | node i l r hl hr =>
    have := l.leafCount_pos
    have := r.leafCount_pos
    simp only [leafCount, depth]; omega

/-- NODE holds this tree: indices below `L` are leaves, children are below their parent, an internal node has its children's
indices and weight sum, and its right child was popped first (R112, R114 (b), (c), (f)). -/
def Rep (m : Memory Node) (L : Nat) : HTree → Prop
  | leaf i => i < L ∧ (readNode m i).leaf = true
  | node i l r =>
    (L ≤ i ∧ i < 511 ∧ l.idx < i ∧ r.idx < i ∧ before m r.idx l.idx = true) ∧
    ((readNode m i).leaf = false ∧ (readNode m i).sym = 0#8 ∧
      (readNode m i).left.toNat = l.idx ∧ (readNode m i).right.toNat = r.idx ∧
      (readNode m i).weight.toNat = (readNode m l.idx).weight.toNat + (readNode m r.idx).weight.toNat) ∧
    l.Rep m L ∧ r.Rep m L

theorem Rep.congr {m m' : Memory Node} {L : Nat} {T : HTree} (h : T.Rep m L)
    (he : ∀ i ∈ T.indices, readNode m' i = readNode m i) : T.Rep m' L := by
  induction T with
  | leaf i => simpa [Rep, he i (by simp [indices])] using h
  | node i l r hl hr =>
    obtain ⟨⟨a, b, c, d, e⟩, hx, h1, h2⟩ := h
    have hi := he i (by simp [indices])
    have hli := he l.idx (by simp [indices, l.idx_mem])
    have hri := he r.idx (by simp [indices, r.idx_mem])
    refine ⟨⟨a, b, c, d, ?_⟩, ?_, hl h1 fun j hj => he j (by simp [indices, hj]), hr h2 fun j hj => he j (by simp [indices, hj])⟩
    · simpa [before_iff, hli, hri] using e
    · simpa [hi, hli, hri] using hx

theorem Rep.le_idx {m : Memory Node} {L : Nat} {T : HTree} (h : T.Rep m L) : ∀ i ∈ T.indices, i ≤ T.idx := by
  induction T with
  | leaf i => simp [indices, idx]
  | node i l r hl hr =>
    obtain ⟨⟨_, _, c, d, _⟩, _, h1, h2⟩ := h
    intro j hj
    simp only [indices, List.mem_cons, List.mem_append] at hj
    simp only [idx]
    rcases hj with rfl | hj | hj
    · exact le_rfl
    · exact le_trans (hl h1 j hj) c.le
    · exact le_trans (hr h2 j hj) d.le

end HTree

/-- The present symbols in ascending order (R10, R113). -/
def present (freq : Memory Count) : List Nat := allSymbols.filter fun i => readFreq freq i != 0#32

theorem mem_present {freq : Memory Count} {i : Nat} : i ∈ present freq ↔ i < 256 ∧ readFreq freq i ≠ 0#32 := by
  simp [present, allSymbols, Config.nsym]

theorem present_nodup (freq : Memory Count) : (present freq).Nodup := List.nodup_range.filter _

theorem present_sorted (freq : Memory Count) : (present freq).Pairwise (· < ·) :=
  List.pairwise_lt_range.filter _

theorem present_length_le (freq : Memory Count) : (present freq).length ≤ 256 := by
  exact (List.length_filter_le _ allSymbols).trans (by simp [allSymbols])

theorem foldl_addLeaf (freq : Memory Count) (l : List Nat) (f : Forest) :
    (l.foldl (addLeaf freq) f).n = f.n + (l.filter fun i => readFreq freq i != 0#32).length ∧
    (∀ j (h : j < (l.filter fun i => readFreq freq i != 0#32).length),
      readNode (l.foldl (addLeaf freq) f).nodes (f.n + j) =
        leafNode (l.filter fun i => readFreq freq i != 0#32)[j]
          (readFreq freq (l.filter fun i => readFreq freq i != 0#32)[j])) ∧
    ∀ i, i < f.n ∨ f.n + (l.filter fun i => readFreq freq i != 0#32).length ≤ i →
      readNode (l.foldl (addLeaf freq) f).nodes i = readNode f.nodes i := by
  induction l generalizing f with
  | nil => simp
  | cons a l ih =>
    by_cases ha : readFreq freq a = 0#32
    · have hf : addLeaf freq f a = f := by simp [addLeaf, ha]
      have hp : (a :: l).filter (fun i => readFreq freq i != 0#32) = l.filter fun i => readFreq freq i != 0#32 := by
        simp [ha]
      rw [hp, List.foldl_cons, hf]
      exact ih f
    · have hf : addLeaf freq f a = f.push (leafNode a (readFreq freq a)) := by simp [addLeaf, ha]
      have hp : (a :: l).filter (fun i => readFreq freq i != 0#32) =
          a :: l.filter fun i => readFreq freq i != 0#32 := by
        simp [ha]
      rw [hp, List.foldl_cons, hf]
      obtain ⟨h1, h2, h3⟩ := ih (f.push (leafNode a (readFreq freq a)))
      refine ⟨?_, ?_, ?_⟩
      · rw [h1]; simp [Forest.push]; omega
      · intro j hj
        cases j with
        | zero =>
          rw [h3 _ (Or.inl (by simp [Forest.push]))]
          simp [Forest.push, readNode_writeNode]
        | succ j =>
          have := h2 j (by simpa using hj)
          simp only [Forest.push] at this ⊢
          rw [show f.n + (j + 1) = f.n + 1 + j by omega]
          simpa using this
      · intro i hi
        rw [h3 i (by simp [Forest.push] at hi ⊢; omega)]
        simp only [Forest.push, readNode_writeNode]
        rw [if_neg]
        simp at hi; omega

/-- The leaves (R112, R113, R114 (b)): one per present symbol, in ascending order, from index 0. -/
theorem placeLeaves_spec (freq : Memory Count) (nodes : Memory Node) :
    (placeLeaves freq nodes).n = (present freq).length ∧
    (∀ j (h : j < (present freq).length),
      readNode (placeLeaves freq nodes).nodes j = leafNode (present freq)[j] (readFreq freq (present freq)[j])) ∧
    ∀ i, (present freq).length ≤ i → readNode (placeLeaves freq nodes).nodes i = readNode nodes i := by
  obtain ⟨h1, h2, h3⟩ := foldl_addLeaf freq allSymbols ⟨nodes, 0⟩
  refine ⟨by simpa [placeLeaves, present] using h1, fun j hj => ?_, fun i hi => ?_⟩
  · have := h2 j hj
    rw [Nat.zero_add] at this
    exact this
  · exact h3 i (Or.inr (by simpa [present] using hi))

theorem exists_perm_of_map_perm {α β : Type} {f : α → β} {l : List α} {ys : List β} (h : (l.map f).Perm ys) :
    ∃ us, l.Perm us ∧ us.map f = ys := by
  generalize hx : l.map f = xs at h
  induction h generalizing l with
  | nil => exact ⟨l, List.Perm.refl _, hx⟩
  | cons x _ ih =>
    obtain ⟨a, l', rfl, rfl, hl'⟩ := List.map_eq_cons_iff.1 hx
    obtain ⟨us, h1, h2⟩ := ih hl'
    exact ⟨a :: us, h1.cons a, by simp [h2]⟩
  | swap x y _ =>
    obtain ⟨a, l', rfl, rfl, hl'⟩ := List.map_eq_cons_iff.1 hx
    obtain ⟨b, l'', rfl, rfl, hl''⟩ := List.map_eq_cons_iff.1 hl'
    exact ⟨b :: a :: l'', List.Perm.swap b a l'', by simp [hl'']⟩
  | trans _ _ ih1 ih2 =>
    obtain ⟨us, h1, h2⟩ := ih1 hx
    obtain ⟨vs, h3, h4⟩ := ih2 h2
    exact ⟨vs, h1.trans h3, h4⟩

/-- Node `j` is the child of no internal node below index `n`. -/
def Parentless (m : Memory Node) (L n j : Nat) : Prop :=
  ∀ p, L ≤ p → p < n → j ≠ (readNode m p).left.toNat ∧ j ≠ (readNode m p).right.toNat

/-- The internal nodes below `n` each merged the two lowest (R111, R112): of the nodes then without a parent, only the right
child, popped before it, may come before the left one. -/
def LowestMerged (m : Memory Node) (L n : Nat) : Prop :=
  ∀ i, L ≤ i → i < n → (readNode m i).left.toNat < i ∧
    ∀ j, j < i → j ≠ (readNode m i).left.toNat → j ≠ (readNode m i).right.toNat → Parentless m L i j →
      before m (readNode m i).left.toNat j = true

theorem Parentless.congr {m m' : Memory Node} {L n j : Nat} (h : Parentless m L n j)
    (he : ∀ p, p < n → readNode m' p = readNode m p) : Parentless m' L n j := fun p h1 h2 => by
  rw [he p h2]; exact h p h1 h2

theorem before_congr {m m' : Memory Node} {i j : Nat} (hi : readNode m' i = readNode m i) (hj : readNode m' j = readNode m j) :
    before m' i j = before m i j := by
  simp only [before, hi, hj]

/-- What holds at each turn of the merging loop. -/
structure Growing (L total : Nat) (f : Forest) (q : List Nat) (Ts : List HTree) : Prop where
  roots : (Ts.map HTree.idx).Perm q
  rep : ∀ T ∈ Ts, T.Rep f.nodes L
  each : (Ts.flatMap HTree.indices).Perm (List.range f.n)
  leaves : (Ts.map HTree.leafCount).sum = L
  weights : (Ts.map fun T => (readNode f.nodes T.idx).weight.toNat).sum = total
  queued : ∀ j, j < f.n → Parentless f.nodes L f.n j → j ∈ q
  lowest : LowestMerged f.nodes L f.n

theorem Growing.n_eq {L total : Nat} {f : Forest} {q : List Nat} {Ts : List HTree} (g : Growing L total f q Ts) :
    f.n + Ts.length = 2 * L := by
  have h : ∀ Us : List HTree, (Us.flatMap HTree.indices).length + Us.length = 2 * (Us.map HTree.leafCount).sum := by
    intro Us
    induction Us with
    | nil => rfl
    | cons T Us ih =>
      have := T.length_indices
      simp only [List.flatMap_cons, List.length_append, List.length_cons, List.map_cons, List.sum_cons]
      omega
  have := h Ts
  rw [g.leaves, g.each.length_eq, List.length_range] at this
  exact this

/-- One turn of the loop. -/
theorem Growing.merge {L total : Nat} {f : Forest} {q q₁ q₂ : List Nat} {Ts : List HTree} {a b : Nat}
    (g : Growing L total f q Ts) (hL : L ≤ 256) (ht : total < 2 ^ 40)
    (ha : popMin f.nodes q = some (a, q₁)) (hb : popMin f.nodes q₁ = some (b, q₂)) :
    ∃ Us, Growing L total (f.push (mergedNode f.nodes a b)) (q₂ ++ [f.n]) Us := by
  obtain ⟨pa, ma⟩ := popMin_spec ha
  obtain ⟨pb, mb⟩ := popMin_spec hb
  have hperm : (Ts.map HTree.idx).Perm (a :: b :: q₂) := g.roots.trans (pa.trans (pb.cons a))
  obtain ⟨Us, hUs, hUsmap⟩ : ∃ Us : List HTree, Ts.Perm Us ∧ Us.map HTree.idx = a :: b :: q₂ := by
    exact exists_perm_of_map_perm hperm
  match Us, hUsmap with
  | A :: B :: Us, hmap =>
    simp only [List.map_cons, List.cons.injEq] at hmap
    obtain ⟨rfl, rfl, rfl⟩ := hmap
    have each := (List.Perm.flatMap_right HTree.indices hUs).symm.trans g.each
    have hn := g.n_eq
    rw [hUs.length_eq] at hn
    simp only [List.length_cons] at hn
    have hmem : ∀ T ∈ A :: B :: Us, ∀ i ∈ T.indices, i < f.n := fun T hT i hi =>
      List.mem_range.1 (each.mem_iff.1 (List.mem_flatMap.2 ⟨T, hT, hi⟩))
    have hA : A.idx < f.n := hmem A (by simp) _ A.idx_mem
    have hB : B.idx < f.n := hmem B (by simp) _ B.idx_mem
    have hrep : ∀ T ∈ A :: B :: Us, T.Rep f.nodes L := fun T hT => g.rep T (hUs.mem_iff.2 hT)
    have hw := g.weights
    rw [(hUs.map _).sum_eq] at hw
    simp only [List.map_cons, List.sum_cons] at hw
    have hne : A.idx ≠ B.idx := by
      have hnd := each.nodup_iff.2 List.nodup_range
      intro he
      simp only [List.flatMap_cons] at hnd
      rw [← List.append_assoc] at hnd
      have := (List.nodup_append.1 (List.nodup_append.1 hnd).1).2.2
      exact this _ A.idx_mem _ B.idx_mem he
    have hab : before f.nodes A.idx B.idx = true := by
      rcases ma B.idx (pb.mem_iff.2 (by simp)) with h | h
      · exact absurd h.symm hne
      · exact h
    have keep : ∀ i, i < f.n → readNode (f.push (mergedNode f.nodes A.idx B.idx)).nodes i = readNode f.nodes i := by
      intro i hi
      simp only [Forest.push, readNode_writeNode]
      rw [if_neg (by omega)]
    have new : readNode (f.push (mergedNode f.nodes A.idx B.idx)).nodes f.n = mergedNode f.nodes A.idx B.idx := by
      simp [Forest.push, readNode_writeNode]
    have hLn : L ≤ f.n := by
      have := g.leaves
      rw [(hUs.map _).sum_eq] at this
      simp only [List.map_cons, List.sum_cons] at this
      have hlen : ∀ Vs : List HTree, Vs.length ≤ (Vs.map HTree.leafCount).sum := by
        intro Vs
        induction Vs with
        | nil => simp
        | cons T Vs ih =>
          have := T.leafCount_pos
          simp only [List.length_cons, List.map_cons, List.sum_cons]; omega
      have := hlen Us
      have := A.leafCount_pos
      have := B.leafCount_pos
      omega
    have keepRep : ∀ T ∈ A :: B :: Us, T.Rep (f.push (mergedNode f.nodes A.idx B.idx)).nodes L := fun T hT =>
      (hrep T hT).congr fun i hi => keep i (hmem T hT i hi)
    have hback : ∀ i j, i ≤ f.n → Parentless (f.push (mergedNode f.nodes A.idx B.idx)).nodes L i j →
        Parentless f.nodes L i j := fun i j hi h => h.congr fun p hp => (keep p (by omega)).symm
    have hleft : (readNode (f.push (mergedNode f.nodes A.idx B.idx)).nodes f.n).left.toNat = B.idx := by
      rw [new]; simp only [mergedNode, BitVec.toNat_ofNat]; omega
    have hright : (readNode (f.push (mergedNode f.nodes A.idx B.idx)).nodes f.n).right.toNat = A.idx := by
      rw [new]; simp only [mergedNode, BitVec.toNat_ofNat]; omega
    -- a parentless node other than the two popped is still in the queue
    have hrest : ∀ j, j < f.n → Parentless f.nodes L f.n j → j ≠ B.idx → j ≠ A.idx → j ∈ Us.map HTree.idx := by
      intro j hj hpj hb ha
      simpa [ha, hb] using (pa.trans (pb.cons _)).mem_iff.1 (g.queued j hj hpj)
    refine ⟨HTree.node f.n B A :: Us, ?_, ?_, ?_, ?_, ?_, ?_, ?_⟩
    · simpa [HTree.idx] using (List.perm_append_singleton f.n (Us.map HTree.idx)).symm
    · intro T hT
      rcases List.mem_cons.1 hT with rfl | hT
      · refine ⟨⟨hLn, by omega, hB, hA, ?_⟩, ?_, keepRep B (by simp), keepRep A (by simp)⟩
        · simpa [before_iff, keep _ hA, keep _ hB] using hab
        · rw [new, keep _ hA, keep _ hB]
          refine ⟨rfl, rfl, ?_, ?_, ?_⟩
          · simp only [mergedNode, BitVec.toNat_ofNat]; omega
          · simp only [mergedNode, BitVec.toNat_ofNat]; omega
          · simp only [mergedNode, BitVec.toNat_add]; omega
      · exact keepRep T (by simp [hT])
    · simp only [List.flatMap_cons, HTree.indices, Forest.push] at each ⊢
      rw [List.range_succ]
      refine List.Perm.trans ?_ ((each.append_right [f.n]).trans (List.Perm.refl _))
      refine List.Perm.trans ?_ (List.perm_append_singleton _ _).symm
      rw [List.cons_append]
      refine List.Perm.cons _ ?_
      rw [← List.append_assoc A.indices]
      exact List.Perm.append_right _ List.perm_append_comm
    · have := g.leaves
      rw [(hUs.map _).sum_eq] at this
      simp only [List.map_cons, List.sum_cons, HTree.leafCount] at this ⊢
      omega
    · rw [List.map_cons, List.sum_cons, show (HTree.node f.n B A).idx = f.n from rfl, new]
      have : (Us.map fun T => (readNode (f.push (mergedNode f.nodes A.idx B.idx)).nodes T.idx).weight.toNat) =
          Us.map fun T => (readNode f.nodes T.idx).weight.toNat :=
        List.map_congr_left fun T hT => by rw [keep _ (hmem T (by simp [hT]) _ T.idx_mem)]
      rw [this]
      simp only [mergedNode, BitVec.toNat_add]
      omega
    · intro j hj hpj
      by_cases hjn : j = f.n
      · simp [hjn]
      · have hj : j < f.n := by simp only [Forest.push] at hj; omega
        obtain ⟨h1, h2⟩ := hpj f.n hLn (by simp [Forest.push])
        rw [hleft] at h1
        rw [hright] at h2
        exact List.mem_append_left _
          (hrest j hj (hback f.n j le_rfl fun p h1 h2 => hpj p h1 (by simp only [Forest.push]; omega)) h1 h2)
    · intro i hLi hi
      by_cases hin : i = f.n
      · subst hin
        rw [hleft, hright]
        refine ⟨hB, fun j hj hjb hja hpj => ?_⟩
        rw [before_congr (keep _ hB) (keep _ hj)]
        exact (mb j (hrest j hj (hback f.n j le_rfl hpj) hjb hja)).resolve_left hjb
      · have hi : i < f.n := by simp only [Forest.push] at hi; omega
        rw [keep i hi]
        obtain ⟨h1, h2⟩ := g.lowest i hLi hi
        refine ⟨h1, fun j hj hjl hjr hpj => ?_⟩
        rw [before_congr (keep _ (by omega)) (keep _ (by omega))]
        exact h2 j hj hjl hjr (hback i j hi.le hpj)

/-- The loop ends with at most one tree in the queue, and touches no entry outside the ones it adds. -/
theorem mergeAll_spec {L total : Nat} (hL : L ≤ 256) (ht : total < 2 ^ 40) (k : Nat) (f : Forest) (q : List Nat)
    (Ts : List HTree) (g : Growing L total f q Ts) (hk : q.length ≤ k) :
    ∃ q' Us, Growing L total (mergeAll k f q) q' Us ∧ Us.length ≤ 1 ∧ f.n ≤ (mergeAll k f q).n ∧
      ∀ i, i < f.n ∨ (mergeAll k f q).n ≤ i → readNode (mergeAll k f q).nodes i = readNode f.nodes i := by
  have hlen : ∀ {f q Ts}, Growing L total f q Ts → Ts.length = q.length := fun g => by
    simpa using g.roots.length_eq
  induction k generalizing f q Ts with
  | zero => exact ⟨q, Ts, g, by rw [hlen g]; omega, le_rfl, fun _ _ => rfl⟩
  | succ k ih =>
    simp only [mergeAll]
    split
    · rename_i h
      rw [popMin_eq_none] at h
      exact ⟨q, Ts, g, by rw [hlen g, h]; simp, le_rfl, fun _ _ => rfl⟩
    · rename_i a q₁ ha
      split
      · rename_i h
        rw [popMin_eq_none] at h
        have := (popMin_spec ha).1.length_eq
        exact ⟨q, Ts, g, by rw [hlen g, this, h]; simp, le_rfl, fun _ _ => rfl⟩
      · rename_i b q₂ hb
        obtain ⟨Us, gu⟩ := g.merge hL ht ha hb
        have l1 := (popMin_spec ha).1.length_eq
        have l2 := (popMin_spec hb).1.length_eq
        simp only [List.length_cons] at l1 l2
        obtain ⟨q', Vs, gv, hv, hn, hr⟩ := ih _ _ _ gu (by simp; omega)
        simp only [Forest.push] at hn
        refine ⟨q', Vs, gv, hv, by simp only [Forest.push]; omega, fun i hi => ?_⟩
        rw [hr i (by simp only [Forest.push] at hi ⊢; omega)]
        simp only [Forest.push, readNode_writeNode]
        rw [if_neg (by simp only [Forest.push] at hi hn; omega)]

theorem sum_lt_of_bounded (l : List Nat) (g : Nat → Nat) (h : ∀ i ∈ l, g i < 2 ^ 32) (hl : l.length ≤ 256) :
    (l.map g).sum < 2 ^ 40 := by
  have : ∀ l : List Nat, (∀ i ∈ l, g i < 2 ^ 32) → (l.map g).sum ≤ l.length * (2 ^ 32 - 1) := by
    intro l
    induction l with
    | nil => simp
    | cons a l ih =>
      intro h
      have := ih fun i hi => h i (List.mem_cons_of_mem _ hi)
      have := h a (by simp)
      simp only [List.map_cons, List.sum_cons, List.length_cons]
      omega
  have := this l h
  omega

/-- The total symbol count of a table: the sum of its entries (R114 (e)). -/
def totalCount (freq : Memory Count) : Nat := (allSymbols.map fun i => (readFreq freq i).toNat).sum

theorem sum_present (freq : Memory Count) (g : Nat → Nat) (hg : ∀ i, readFreq freq i = 0#32 → g i = 0) :
    ((present freq).map g).sum = (allSymbols.map g).sum := by
  unfold present
  induction allSymbols with
  | nil => rfl
  | cons a l ih =>
    by_cases ha : readFreq freq a = 0#32
    · simp [ha, ih, hg a ha]
    · simp [ha, ih]

/-- The tree a table grows into. -/
structure Grown (freq : Memory Count) (f : Forest) (T : HTree) : Prop where
  rep : T.Rep f.nodes (present freq).length
  each : T.indices.Perm (List.range f.n)
  root : T.idx = f.n - 1
  leaves : T.leafCount = (present freq).length
  size : f.n + 1 = 2 * (present freq).length
  weight : (readNode f.nodes T.idx).weight.toNat = totalCount freq
  lowest : LowestMerged f.nodes (present freq).length f.n

theorem growForest_leaves (freq : Memory Count) (nodes : Memory Node) :
    ∀ j (h : j < (present freq).length),
      readNode (growForest freq nodes).nodes j = leafNode (present freq)[j] (readFreq freq (present freq)[j]) ∧
      (present freq).length ≤ (growForest freq nodes).n ∧
      (∀ i, (growForest freq nodes).n ≤ i → readNode (growForest freq nodes).nodes i = readNode nodes i) ∧
      ∃ T, Grown freq (growForest freq nodes) T := by
  intro j hj
  obtain ⟨hn, hleaf, hrest⟩ := placeLeaves_spec freq nodes
  have hlt : (present freq).length ≤ 256 := present_length_le freq
  have htot : totalCount freq < 2 ^ 40 := by
    refine sum_lt_of_bounded _ _ (fun i _ => (readFreq freq i).isLt) ?_
    simp [allSymbols]
  have g0 : Growing (present freq).length (totalCount freq) (placeLeaves freq nodes)
      (List.range (placeLeaves freq nodes).n) ((List.range (present freq).length).map HTree.leaf) := by
    refine ⟨?_, ?_, ?_, ?_, ?_, fun j hj _ => List.mem_range.2 hj, fun i h1 h2 => by omega⟩
    · rw [hn, List.map_map]
      simp only [Function.comp_def, HTree.idx, List.map_id']
      exact List.Perm.refl _
    · intro T hT
      obtain ⟨i, hi, rfl⟩ := List.mem_map.1 hT
      have hi := List.mem_range.1 hi
      exact ⟨hi, by rw [hleaf i hi]; rfl⟩
    · rw [hn, List.flatMap_map]
      simp only [HTree.indices, List.flatMap_singleton']
      exact List.Perm.refl _
    · rw [List.map_map]
      simp [Function.comp_def, HTree.leafCount]
    · rw [List.map_map, totalCount, ← sum_present freq _ (fun i hi => by rw [hi]; rfl)]
      refine congrArg List.sum (List.ext_getElem (by rw [List.length_map, List.length_map, List.length_range])
        fun i h1 h2 => ?_)
      simp only [List.length_map, List.length_range] at h1
      simp only [List.getElem_map, List.getElem_range, Function.comp, HTree.idx]
      rw [hleaf i h1]
      have := (readFreq freq (present freq)[i]).isLt
      simp only [leafNode, BitVec.toNat_setWidth]
      omega
  obtain ⟨q', Us, g, hUs, hge, hsame⟩ := mergeAll_spec hlt htot (placeLeaves freq nodes).n (placeLeaves freq nodes)
    (List.range (placeLeaves freq nodes).n) _ g0 (by simp)
  have hgrow : growForest freq nodes = mergeAll (placeLeaves freq nodes).n (placeLeaves freq nodes)
    (List.range (placeLeaves freq nodes).n) := rfl
  rw [← hgrow] at g hge hsame
  rw [hn] at hge hsame
  refine ⟨by rw [hsame j (Or.inl hj), hleaf j hj], hge, fun i hi => ?_, ?_⟩
  · rw [hsame i (Or.inr hi), hrest i (by omega)]
  · have hne := g.n_eq
    rcases Us with _ | ⟨T, _ | ⟨_, _⟩⟩
    · have := g.each.length_eq
      simp only [List.flatMap_nil, List.length_nil, List.length_range] at this
      omega
    · simp only [List.length_singleton] at hne
      have heach : T.indices.Perm (List.range (growForest freq nodes).n) := by simpa using g.each
      have hrep := g.rep T (by simp)
      refine ⟨T, hrep, heach, ?_, by simpa using g.leaves, hne, by simpa using g.weights, g.lowest⟩
      have h1 : T.idx < (growForest freq nodes).n := List.mem_range.1 (heach.mem_iff.1 T.idx_mem)
      have h2 := hrep.le_idx ((growForest freq nodes).n - 1) (heach.mem_iff.2 (List.mem_range.2 (by omega)))
      omega
    · simp only [List.length_cons] at hUs
      omega

/-- BuildTree's tree when some symbol is present (R112, R114). -/
theorem growForest_spec (freq : Memory Count) (nodes : Memory Node) (h : present freq ≠ []) :
    (∀ j (h : j < (present freq).length),
      readNode (growForest freq nodes).nodes j = leafNode (present freq)[j] (readFreq freq (present freq)[j])) ∧
    (∀ i, (growForest freq nodes).n ≤ i → readNode (growForest freq nodes).nodes i = readNode nodes i) ∧
    ∃ T, Grown freq (growForest freq nodes) T := by
  have h0 : 0 < (present freq).length := List.length_pos_of_ne_nil h
  obtain ⟨_, _, h1, h2⟩ := growForest_leaves freq nodes 0 h0
  exact ⟨fun j hj => (growForest_leaves freq nodes j hj).1, h1, h2⟩

theorem foldl_addLeaf_empty (freq : Memory Count) (l : List Nat) (f : Forest)
    (h : l.filter (fun i => readFreq freq i != 0#32) = []) : l.foldl (addLeaf freq) f = f := by
  induction l generalizing f with
  | nil => rfl
  | cons a l ih =>
    have ha : readFreq freq a = 0#32 := by
      by_contra hne
      simp [hne] at h
    have hf : addLeaf freq f a = f := by simp [addLeaf, ha]
    rw [List.foldl_cons, hf]
    exact ih f (by simpa [ha] using h)

/-- BuildTree of the empty table writes no node (R117). -/
theorem growForest_empty (freq : Memory Count) (nodes : Memory Node) (h : present freq = []) :
    growForest freq nodes = ⟨nodes, 0⟩ := by
  have : placeLeaves freq nodes = ⟨nodes, 0⟩ := foldl_addLeaf_empty freq allSymbols ⟨nodes, 0⟩ h
  simp [growForest, this, mergeAll]

end Sys2Proof.Machine
end

