-- ==== Sys2Proof/Laws/Table.lean ====
section
/-!
SUPPORT. What GenTable leaves (spec rules R130 to R134): each leaf's path, stored and read back as its symbol's code.
-/
namespace Sys2Proof.Machine

theorem getLsbD_setBit {n : Nat} (w : BitVec n) (i k : Nat) (b : Bool) (h : i < n) :
    (setBit w i b).getLsbD k = if k = i then b else w.getLsbD k := by
  unfold setBit
  by_cases hk : k < n
  · cases b
    · simp only [Bool.false_eq_true, if_false, BitVec.getLsbD_and, BitVec.getLsbD_not, BitVec.getLsbD_shiftLeft,
        BitVec.getLsbD_one, hk]
      by_cases he : k = i
      · subst he; simp; omega
      · by_cases hl : k < i
        · simp [hl, he]
        · have : k - i ≠ 0 := by omega
          simp [this, he]
    · simp only [if_true, BitVec.getLsbD_or, BitVec.getLsbD_shiftLeft, BitVec.getLsbD_one, hk]
      by_cases he : k = i
      · subst he; simp; omega
      · by_cases hl : k < i
        · simp [hl, he]
        · have : k - i ≠ 0 := by omega
          simp [this, he]
  · have : k ≠ i := by omega
    rw [if_neg this, BitVec.getLsbD_of_ge _ _ (by omega), BitVec.getLsbD_of_ge _ _ (by omega)]

theorem getLsbD_placeBits (c : BitString) (j k : Nat) (w : BitVec 256) (h : j + c.length ≤ 256) (hk : k < 256) :
    (placeBits j c w).getLsbD k =
      if j ≤ 255 - k ∧ 255 - k < j + c.length then c.getD (255 - k - j) false else w.getLsbD k := by
  induction c generalizing j w with
  | nil =>
    simp only [placeBits, List.length_nil]
    rw [if_neg (by omega)]
  | cons b c ih =>
    simp only [List.length_cons] at h
    simp only [placeBits]
    rw [ih (j + 1) _ (by omega), getLsbD_setBit _ _ _ _ (by omega)]
    simp only [List.length_cons]
    by_cases he : k = 255 - j
    · rw [if_neg (by omega), if_pos he, if_pos (by omega)]
      rw [show 255 - k - j = 0 by omega]
      simp
    · by_cases hin : j + 1 ≤ 255 - k ∧ 255 - k < j + 1 + c.length
      · rw [if_pos hin, if_pos (by omega), show 255 - k - j = 255 - k - (j + 1) + 1 by omega]
        simp
      · rw [if_neg hin, if_neg he, if_neg (by omega)]

theorem codeEntry_clen (c : BitString) (h : c.length ≤ 255) : (codeEntry c).clen.toNat = c.length := by
  simp only [codeEntry, BitVec.toNat_ofNat]
  omega

/-- A stored code reads back (R29, R130, R134). -/
theorem codeBits_codeEntry (c : BitString) (h : c.length ≤ 255) : codeBits (codeEntry c) = c := by
  unfold codeBits
  rw [codeEntry_clen c h]
  refine List.ext_getElem (by simp) fun j h1 h2 => ?_
  simp only [List.getElem_map, List.getElem_range, codeEntry]
  rw [getLsbD_placeBits c 0 (255 - j) _ (by omega) (by omega), if_pos (by omega)]
  rw [show 255 - (255 - j) - 0 = j by omega]
  simp [h2]

/-- The bits of CBITS below the code are 0 (R29). -/
theorem codeEntry_low (c : BitString) (h : c.length ≤ 255) (k : Nat) (hk : k < 256 - c.length) :
    (codeEntry c).cbits.getLsbD k = false := by
  simp only [codeEntry]
  rw [getLsbD_placeBits c 0 k _ (by omega) (by omega), if_neg (by omega)]
  simp

namespace HTree

/-- The leaves with their paths from the root, left before right (R130). -/
def codes : HTree → List (Nat × BitString)
  | leaf i => [(i, [])]
  | node _ l r => (l.codes.map fun p => (p.1, false :: p.2)) ++ r.codes.map fun p => (p.1, true :: p.2)

theorem codes_length_le (T : HTree) : ∀ p ∈ T.codes, p.2.length ≤ T.depth := by
  induction T with
  | leaf i => simp [codes, depth]
  | node i l r hl hr =>
    intro p hp
    simp only [codes, List.mem_append, List.mem_map] at hp
    simp only [depth]
    rcases hp with ⟨q, hq, rfl⟩ | ⟨q, hq, rfl⟩
    · have := hl q hq; simp only [List.length_cons]; omega
    · have := hr q hq; simp only [List.length_cons]; omega

theorem codes_mem_indices (T : HTree) : ∀ p ∈ T.codes, p.1 ∈ T.indices := by
  induction T with
  | leaf i => simp [codes, indices]
  | node i l r hl hr =>
    intro p hp
    simp only [codes, List.mem_append, List.mem_map] at hp
    simp only [indices, List.mem_cons, List.mem_append]
    rcases hp with ⟨q, hq, rfl⟩ | ⟨q, hq, rfl⟩
    · exact Or.inr (Or.inl (hl q hq))
    · exact Or.inr (Or.inr (hr q hq))

theorem codes_leaf {m : Memory Node} {L : Nat} (T : HTree) (h : T.Rep m L) :
    ∀ p ∈ T.codes, p.1 < L ∧ (readNode m p.1).leaf = true := by
  induction T with
  | leaf i => simpa [codes, Rep] using h
  | node i l r hl hr =>
    obtain ⟨_, _, h1, h2⟩ := h
    intro p hp
    simp only [codes, List.mem_append, List.mem_map] at hp
    rcases hp with ⟨q, hq, rfl⟩ | ⟨q, hq, rfl⟩
    · exact hl h1 q hq
    · exact hr h2 q hq

/-- Every leaf index of the tree has a path. -/
theorem mem_codes {m : Memory Node} {L : Nat} (T : HTree) (h : T.Rep m L) :
    ∀ i ∈ T.indices, i < L → ∃ c, (i, c) ∈ T.codes := by
  induction T with
  | leaf i =>
    intro j hj _
    simp only [indices, List.mem_singleton] at hj
    exact ⟨[], by simp [codes, hj]⟩
  | node i l r hl hr =>
    obtain ⟨⟨hL, _⟩, _, h1, h2⟩ := h
    intro j hj hjL
    simp only [indices, List.mem_cons, List.mem_append] at hj
    rcases hj with rfl | hj | hj
    · omega
    · obtain ⟨c, hc⟩ := hl h1 j hj hjL
      exact ⟨false :: c, by simp [codes, hc]⟩
    · obtain ⟨c, hc⟩ := hr h2 j hj hjL
      exact ⟨true :: c, by simp [codes, hc]⟩

theorem codes_nodup (T : HTree) (h : T.indices.Nodup) : (T.codes.map Prod.fst).Nodup := by
  induction T with
  | leaf i => simp [codes]
  | node i l r hl hr =>
    simp only [indices, List.nodup_cons, List.nodup_append] at h
    obtain ⟨_, h1, h2, h3⟩ := h
    simp only [codes, List.map_append, List.map_map, Function.comp_def, List.nodup_append]
    refine ⟨hl h1, hr h2, fun a ha b hb => ?_⟩
    obtain ⟨p, hp, rfl⟩ := List.mem_map.1 ha
    obtain ⟨q, hq, rfl⟩ := List.mem_map.1 hb
    exact h3 _ (l.codes_mem_indices p hp) _ (r.codes_mem_indices q hq)

/-- No path is a prefix of another leaf's path (R133 (c)). -/
theorem codes_prefix_free (T : HTree) (h : T.indices.Nodup) :
    ∀ p ∈ T.codes, ∀ q ∈ T.codes, p.1 ≠ q.1 → ¬p.2 <+: q.2 := by
  induction T with
  | leaf i =>
    intro p hp q hq hne
    simp only [codes, List.mem_singleton] at hp hq
    exact absurd (by rw [hp, hq]) hne
  | node i l r hl hr =>
    simp only [indices, List.nodup_cons, List.nodup_append] at h
    obtain ⟨_, h1, h2, h3⟩ := h
    intro p hp q hq hne
    simp only [codes, List.mem_append, List.mem_map] at hp hq
    rcases hp with ⟨p, hp, rfl⟩ | ⟨p, hp, rfl⟩ <;> rcases hq with ⟨q, hq, rfl⟩ | ⟨q, hq, rfl⟩
    · simpa [List.cons_prefix_cons] using hl h1 p hp q hq hne
    · simp [List.cons_prefix_cons]
    · simp [List.cons_prefix_cons]
    · simpa [List.cons_prefix_cons] using hr h2 p hp q hq hne

end HTree

/-- Assign on a tree no deeper than its bound stores exactly the leaves' paths (R130). -/
theorem assign_spec {m : Memory Node} {L : Nat} (hL : L ≤ 256) (T : HTree) (h : T.Rep m L) (fuel : Nat)
    (hd : T.depth ≤ fuel) (i : NodeIdx) (hi : i.toNat = T.idx) (path : BitString) (t : Memory CodeEntry) :
    assign m fuel i path t =
      .ok (T.codes.foldl (fun t p => setCode t (readNode m p.1).sym (path ++ p.2)) t) := by
  induction T generalizing fuel i path t with
  | leaf j =>
    obtain ⟨hj, hl⟩ := h
    simp only [HTree.idx] at hi
    have hx : fetchNode m i = .ok (readNode m j) := by rw [fetchNode_of_lt (by omega), hi]
    rw [assign, hx]
    simp [hl, HTree.codes]
  | node j l r hl hr =>
    obtain ⟨⟨_, hj, hlj, hrj, _⟩, ⟨hleaf, _, hleft, hright, _⟩, h1, h2⟩ := h
    simp only [HTree.idx] at hi
    simp only [HTree.depth] at hd
    have hx : fetchNode m i = .ok (readNode m j) := by rw [fetchNode_of_lt (by omega), hi]
    obtain ⟨k, rfl⟩ : ∃ k, fuel = k + 1 := ⟨fuel - 1, by omega⟩
    rw [assign, hx]
    simp only [hleaf, Bool.false_eq_true, if_false]
    rw [hl h1 k (by omega) _ hleft]
    simp only
    rw [hr h2 k (by omega) _ hright]
    simp [HTree.codes, List.foldl_append, List.foldl_map]

theorem readCode_foldl_setCode (m : Memory Node) (cs : List (Nat × BitString)) (t : Memory CodeEntry) (s : Sym)
    (hn : (cs.map fun p => (readNode m p.1).sym).Nodup) :
    (∀ p ∈ cs, (readNode m p.1).sym = s →
      readCode (cs.foldl (fun t p => setCode t (readNode m p.1).sym p.2) t) s = codeEntry p.2) ∧
    ((∀ p ∈ cs, (readNode m p.1).sym ≠ s) →
      readCode (cs.foldl (fun t p => setCode t (readNode m p.1).sym p.2) t) s = readCode t s) := by
  induction cs generalizing t with
  | nil => simp
  | cons a cs ih =>
    simp only [List.map_cons, List.nodup_cons] at hn
    obtain ⟨ha, hn⟩ := hn
    simp only [List.foldl_cons]
    constructor
    · intro p hp hs
      rcases List.mem_cons.1 hp with rfl | hp
      · rw [(ih _ hn).2 fun q hq he => ha (List.mem_map.2 ⟨q, hq, by rw [he, hs]⟩)]
        rw [setCode, readCode_writeCode, if_pos hs.symm]
      · exact (ih _ hn).1 p hp hs
    · intro hs
      rw [(ih _ hn).2 fun q hq => hs q (List.mem_cons_of_mem _ hq)]
      rw [setCode, readCode_writeCode, if_neg fun e => hs a (by simp) e.symm]

theorem symOf_inj {i j : Nat} (hi : i < 256) (hj : j < 256) (h : symOf i = symOf j) : i = j := by
  have := congrArg BitVec.toNat h
  simp only [symOf, BitVec.toNat_ofNat] at this
  omega

@[simp] theorem symOf_toNat (s : Sym) : symOf s.toNat = s := by simp [symOf]

theorem toNat_symOf {i : Nat} (h : i < 256) : (symOf i).toNat = i := by
  simp only [symOf, BitVec.toNat_ofNat]; omega

/-- The code of each symbol: its leaf's path, or "0" when the tree is one leaf (R130, R132); none for an absent symbol. -/
structure CodesOf (freq : Memory Count) (T : HTree) (c : Memory CodeEntry) : Prop where
  code : ∀ j (h : j < (present freq).length) (path : BitString), (j, path) ∈ T.codes →
    readCode c (symOf (present freq)[j]) = codeEntry (if (present freq).length = 1 then [false] else path)
  absent : ∀ s : Sym, readFreq freq s.toNat = 0#32 → readCode c s = CodeEntry.zero

/-- GenTable on the tree of a table with at least one symbol (R130, R133). -/
theorem genTable_spec (freq : Memory Count) (nodes : Memory Node) (h : present freq ≠ []) :
    ∃ T c, Grown freq (growForest freq nodes) T ∧ CodesOf freq T c ∧
      genTable (BitVec.ofNat 9 (growForest freq nodes).n) (BitVec.ofNat 9 ((growForest freq nodes).n - 1))
        (growForest freq nodes).nodes = .ok c := by
  obtain ⟨hleaf, _, T, g⟩ := growForest_spec freq nodes h
  have hlt := present_length_le freq
  have hsize := g.size
  have h0 : 0 < (present freq).length := List.length_pos_of_ne_nil h
  generalize hf : growForest freq nodes = f at *
  have hroot : (BitVec.ofNat 9 (f.n - 1) : NodeIdx).toNat = T.idx := by
    rw [g.root, BitVec.toNat_ofNat]; omega
  have hnn : (BitVec.ofNat 9 f.n : BitVec 9) ≠ 0#9 := by
    intro he
    have := congrArg BitVec.toNat he
    simp only [BitVec.toNat_ofNat] at this
    omega
  have hfetch : fetchNode f.nodes (BitVec.ofNat 9 (f.n - 1)) = .ok (readNode f.nodes T.idx) := by
    rw [fetchNode_of_lt (by rw [hroot, g.root]; omega), hroot]
  have hsym : ∀ j (hj : j < (present freq).length), (readNode f.nodes j).sym = symOf (present freq)[j] := by
    intro j hj
    rw [hleaf j hj]; rfl
  have hpres : ∀ j (hj : j < (present freq).length), (present freq)[j] < 256 ∧ readFreq freq (present freq)[j] ≠ 0#32 :=
    fun j hj => mem_present.1 (List.getElem_mem hj)
  rcases T with i | ⟨i, l, r⟩
  · have hi : i = 0 ∧ (present freq).length = 1 := by
      have h1 := g.leaves
      have h2 := g.root
      simp only [HTree.leafCount, HTree.idx] at h1 h2
      omega
    obtain ⟨rfl, hone⟩ := hi
    refine ⟨_, setCode [] (readNode f.nodes 0).sym [false], g, ⟨fun j hj path hp => ?_, fun s hs => ?_⟩, ?_⟩
    · have hj0 : j = 0 := by omega
      subst hj0
      rw [setCode, readCode_writeCode, if_pos (hsym 0 hj).symm, if_pos hone]
    · rw [setCode, readCode_writeCode, if_neg]
      · rfl
      · intro he
        rw [hsym 0 h0] at he
        rw [he, toNat_symOf (hpres 0 h0).1] at hs
        exact (hpres 0 h0).2 hs
    · have hl := g.rep.2
      simp only [HTree.idx] at hfetch
      rw [genTable, if_neg hnn, hfetch]
      simp [hl]
  · have hnl := g.rep.2.1.1
    have hnodup : (HTree.node i l r).indices.Nodup := g.each.nodup_iff.2 List.nodup_range
    have hcs : ((HTree.node i l r).codes.map fun p => (readNode f.nodes p.1).sym).Nodup := by
      have := (HTree.node i l r).codes_nodup hnodup
      rw [show (fun p : Nat × BitString => (readNode f.nodes p.1).sym) =
        (fun j => (readNode f.nodes j).sym) ∘ Prod.fst from rfl, ← List.map_map]
      refine List.Nodup.map_on ?_ this
      intro x hx y hy hxy
      obtain ⟨p, hp, rfl⟩ := List.mem_map.1 hx
      obtain ⟨q, hq, rfl⟩ := List.mem_map.1 hy
      have h1 := ((HTree.node i l r).codes_leaf g.rep p hp).1
      have h2 := ((HTree.node i l r).codes_leaf g.rep q hq).1
      rw [hsym _ h1, hsym _ h2] at hxy
      have := symOf_inj (hpres _ h1).1 (hpres _ h2).1 hxy
      exact (List.Nodup.getElem_inj_iff (present_nodup freq)).1 this
    refine ⟨_, (HTree.node i l r).codes.foldl (fun t p => setCode t (readNode f.nodes p.1).sym p.2) [], g,
      ⟨fun j hj path hp => ?_, fun s hs => ?_⟩, ?_⟩
    · rw [(readCode_foldl_setCode f.nodes _ _ _ hcs).1 (j, path) hp (hsym j hj), if_neg]
      have h1 := g.leaves
      have := l.leafCount_pos
      have := r.leafCount_pos
      simp only [HTree.leafCount] at h1
      omega
    · rw [(readCode_foldl_setCode f.nodes _ _ _ hcs).2]
      · rfl
      · intro p hp he
        have h1 := ((HTree.node i l r).codes_leaf g.rep p hp).1
        rw [hsym _ h1] at he
        rw [← he, toNat_symOf (hpres _ h1).1] at hs
        exact (hpres _ h1).2 hs
    · rw [genTable, if_neg hnn, hfetch]
      simp only [HTree.idx, hnl, Bool.false_eq_true, if_false]
      have hd := (HTree.node i l r).depth_lt
      rw [g.leaves] at hd
      rw [assign_spec hlt _ g.rep 255 (by omega) _ hroot]
      simp

/-- GenTable on the empty tree (R117, R130). -/
theorem genTable_empty (root : NodeIdx) (m : Memory Node) : genTable 0#9 root m = .ok [] := rfl

end Sys2Proof.Machine
end

