-- ==== Sys2Proof/Laws/Encoder.lean ====
section
/-!
SUPPORT. What PutBit does to the payload (spec rule R140): it writes ACC, BITCNT and OUTB only, and appends its bit to the bits
packed so far.
-/
namespace Sys2Proof.Machine

open Sys2Proof.Safety

theorem putBit_frame (s : State) (b : Bool) :
    ∃ a n o, putBit s b = { s with acc := a, bitcnt := n, outb := o } ∧ s.outb <+: o ∧ n = s.bitcnt + 1#64 := by
  unfold putBit
  simp only
  split
  · exact ⟨_, _, _, rfl, List.prefix_append _ _, rfl⟩
  · exact ⟨_, _, _, rfl, List.prefix_rfl, rfl⟩

theorem putBits_frame (c : BitString) (s : State) :
    ∃ a n o, putBits c s = { s with acc := a, bitcnt := n, outb := o } ∧ s.outb <+: o := by
  induction c generalizing s with
  | nil => exact ⟨_, _, _, rfl, List.prefix_rfl⟩
  | cons b c ih =>
    obtain ⟨a, n, o, h, ho, _⟩ := putBit_frame s b
    obtain ⟨a', n', o', h', ho'⟩ := ih (putBit s b)
    refine ⟨a', n', o', ?_, ?_⟩
    · rw [show putBits (b :: c) s = putBits c (putBit s b) from rfl, h', h]
    · rw [h] at ho'
      exact ho.trans ho'

theorem bitsOf_eq (b : Byte) : bitsOf b = (List.range 8).map fun j => b.getLsbD (7 - j) := rfl

theorem take_bitsOf (b : Byte) (n : Nat) : (bitsOf b).take n = (List.range (min n 8)).map fun j => b.getLsbD (7 - j) := by
  rw [bitsOf_eq, ← List.map_take, List.take_range]

/-- One payload bit: ACC stays clean and the bit follows those packed before (R31, R63, R140). -/
theorem putBit_packed (s : State) (b : Bool) (hc : AccClean s) (hn : s.bitcnt.toNat + 1 < 2 ^ 64) :
    (putBit s b).bitcnt.toNat = s.bitcnt.toNat + 1 ∧ packedBits (putBit s b) = packedBits s ++ [b] ∧
      AccClean (putBit s b) := by
  have hcnt : (s.bitcnt + 1#64).toNat = s.bitcnt.toNat + 1 := by
    rw [BitVec.toNat_add]; simp; omega
  have hbits : ∀ n, n = s.bitcnt.toNat % 8 →
      (bitsOf (setBit s.acc (7 - n) b)).take (n + 1) = (bitsOf s.acc).take n ++ [b] := by
    intro n he
    rw [take_bitsOf, take_bitsOf, Nat.min_eq_left (by omega), Nat.min_eq_left (by omega), List.range_succ,
      List.map_append]
    congr 1
    · refine List.map_congr_left fun j hj => ?_
      have := List.mem_range.1 hj
      rw [getLsbD_setBit _ _ _ _ (by omega), if_neg (by omega)]
    · simp only [List.map_cons, List.map_nil]
      rw [getLsbD_setBit _ _ _ _ (by omega), if_pos rfl]
  by_cases h : (s.bitcnt.toNat + 1) % 8 = 0
  · have he : putBit s b = { s with
        acc := 0#8, bitcnt := s.bitcnt + 1#64, outb := s.outb ++ [setBit s.acc (7 - s.bitcnt.toNat % 8) b] } := by
      unfold putBit
      simp only [hcnt, h, if_true]
      rfl
    rw [he]
    refine ⟨hcnt, ?_, fun k _ => by simp⟩
    simp only [packedBits, hcnt, h, List.take_zero, List.append_nil, List.flatMap_append, List.flatMap_singleton]
    rw [List.append_assoc, ← hbits _ rfl, show s.bitcnt.toNat % 8 + 1 = 8 by omega]
    simp [bitsOf]
  · have he : putBit s b = { s with
        acc := setBit s.acc (7 - s.bitcnt.toNat % 8) b, bitcnt := s.bitcnt + 1#64 } := by
      unfold putBit
      simp only [hcnt, h, if_false]
    rw [he]
    refine ⟨hcnt, ?_, ?_⟩
    · simp only [packedBits, hcnt]
      rw [List.append_assoc, ← hbits _ rfl, show (s.bitcnt.toNat + 1) % 8 = s.bitcnt.toNat % 8 + 1 by omega]
    · intro k hk
      simp only [hcnt] at hk
      simp only
      rw [getLsbD_setBit _ _ _ _ (by omega), if_neg (by omega)]
      exact hc k (by omega)

/-- A whole bit string (R142). -/
theorem putBits_packed (c : BitString) (s : State) (hc : AccClean s) (hn : s.bitcnt.toNat + c.length < 2 ^ 64) :
    (putBits c s).bitcnt.toNat = s.bitcnt.toNat + c.length ∧ packedBits (putBits c s) = packedBits s ++ c ∧
      AccClean (putBits c s) := by
  induction c generalizing s with
  | nil => simp [putBits, hc]
  | cons b c ih =>
    simp only [List.length_cons] at hn
    obtain ⟨h1, h2, h3⟩ := putBit_packed s b hc (by omega)
    obtain ⟨h4, h5, h6⟩ := ih (putBit s b) h3 (by omega)
    rw [show putBits (b :: c) s = putBits c (putBit s b) from rfl]
    refine ⟨by rw [h4, h1]; simp only [List.length_cons]; omega, ?_, h6⟩
    rw [h5, h2]
    simp

theorem length_lookup (m : Memory CodeEntry) (x : Sym) : (lookup m x).length = (readCode m x).clen.toNat := by
  simp [lookup, codeBits]

/-- The declared length never reaches 2 ^ 48 (R13, R141). -/
theorem declaredLength_lt (freq : Memory Count) (code : Memory CodeEntry) : declaredLength freq code < 2 ^ 48 := by
  have : ∀ l : List Nat, (l.map fun i => (readFreq freq i).toNat * (readCode code (symOf i)).clen.toNat).sum ≤
      l.length * ((2 ^ 32 - 1) * 255) := by
    intro l
    induction l with
    | nil => simp
    | cons a l ih =>
      have h1 := (readFreq freq a).isLt
      have h2 := (readCode code (symOf a)).clen.isLt
      have : (readFreq freq a).toNat * (readCode code (symOf a)).clen.toNat ≤ (2 ^ 32 - 1) * 255 :=
        Nat.mul_le_mul (by omega) (by omega)
      simp only [List.map_cons, List.sum_cons, List.length_cons]
      omega
  have := this allSymbols
  have hl : allSymbols.length = 256 := by simp [allSymbols]
  rw [hl] at this
  unfold declaredLength
  omega

end Sys2Proof.Machine
end

