-- ==== Sys2Proof/Laws/Current.lean ====
section
/-!
SUPPORT. The tree of FREQ and the code table made of it, as the phases hold them (spec rules R71, R113, R130 to R133): from
`TreeOfFreq` to the one tree in NODE, to the table GenTable makes of it, to the code of each present symbol.
-/
namespace Sys2Proof.Machine

open Sys2Proof.Safety

theorem present_eq_nil {m : Memory Count} : present m = [] ↔ ∀ i, i < 256 → readFreq m i = 0#32 := by
  simp [present, List.filter_eq_nil_iff, allSymbols, Config.nsym]

theorem presentCount_eq (m : Memory Count) : presentCount m = (present m).length := rfl

/-- No symbol is present exactly in the empty table (R116). -/
theorem freqEmpty_iff {m : Memory Count} : freqEmpty m = true ↔ present m = [] := by
  simp [freqEmpty, present_eq_nil, allSymbols, Config.nsym]

theorem present_congr {m m' : Memory Count} (h : ∀ i, i < 256 → readFreq m i = readFreq m' i) :
    present m = present m' :=
  List.filter_congr fun i hi => by rw [h i (by simpa [allSymbols] using hi)]

theorem foldl_addLeaf_congr {m m' : Memory Count} (l : List Nat) (h : ∀ i ∈ l, readFreq m i = readFreq m' i) (f : Forest) :
    l.foldl (addLeaf m) f = l.foldl (addLeaf m') f := by
  induction l generalizing f with
  | nil => rfl
  | cons a l ih =>
    have : addLeaf m f a = addLeaf m' f a := by simp [addLeaf, h a (by simp)]
    rw [List.foldl_cons, List.foldl_cons, this, ih fun i hi => h i (List.mem_cons_of_mem _ hi)]

/-- BuildTree's forest is a function of what the table reads as (R113). -/
theorem growForest_congr {m m' : Memory Count} (h : ∀ i, i < 256 → readFreq m i = readFreq m' i) (nodes : Memory Node) :
    growForest m nodes = growForest m' nodes ∧ (placeLeaves m nodes).n = (placeLeaves m' nodes).n := by
  have : placeLeaves m nodes = placeLeaves m' nodes :=
    foldl_addLeaf_congr _ (fun i hi => h i (by simpa [allSymbols] using hi)) _
  simp only [growForest, this, and_self]

theorem growForest_n_le (m : Memory Count) (nodes : Memory Node) : (growForest m nodes).n ≤ 511 := by
  have := present_length_le m
  by_cases h : present m = []
  · simp [growForest_empty m nodes h]
  · obtain ⟨_, _, T, g⟩ := growForest_spec m nodes h
    have := g.size
    omega

/-- The registers of `TreeOfFreq`, written out. -/
theorem treeOfFreq_iff {s : State} : TreeOfFreq s ↔
    s.node = (growForest s.freq []).nodes ∧ s.nleaf = BitVec.ofNat 9 (present s.freq).length ∧
    s.nn = BitVec.ofNat 9 (growForest s.freq []).n ∧
    s.root = if (growForest s.freq []).n = 0 then 0#9 else BitVec.ofNat 9 ((growForest s.freq []).n - 1) := by
  rw [← (placeLeaves_spec s.freq []).1]
  exact Iff.rfl

/-- On a NODE at its reset value, BuildTree leaves the tree of FREQ. -/
theorem treeOfFreq_buildTree {s t : State} (h : s.node = []) (hf : t.freq = s.freq) (h1 : t.node = (buildTree s).node)
    (h2 : t.nleaf = (buildTree s).nleaf) (h3 : t.nn = (buildTree s).nn) (h4 : t.root = (buildTree s).root) :
    TreeOfFreq t := by
  rw [treeOfFreq_iff, hf, h1, h2, h3, h4, ← (placeLeaves_spec s.freq []).1]
  simp only [buildTree, h]
  exact ⟨trivial, trivial, trivial, trivial⟩

/-- In the tree of FREQ either there is no symbol and no node, or NODE holds one tree with ROOT at its top. -/
theorem treeOfFreq_cases {s : State} (h : TreeOfFreq s) :
    (present s.freq = [] ∧ s.nn = 0#9 ∧ s.node = [] ∧ s.root = 0#9) ∨
    ∃ T : HTree, present s.freq ≠ [] ∧ Grown s.freq (growForest s.freq []) T ∧ T.Rep s.node (present s.freq).length ∧
      T.indices.Perm (List.range s.nn.toNat) ∧ s.root.toNat = T.idx ∧ s.nn.toNat = (growForest s.freq []).n ∧
      s.nn.toNat ≤ 511 := by
  obtain ⟨h1, h2, h3, h4⟩ := treeOfFreq_iff.1 h
  by_cases hp : present s.freq = []
  · left
    rw [growForest_empty _ _ hp] at h1 h3 h4
    exact ⟨hp, h3, h1, h4⟩
  · right
    obtain ⟨_, _, T, g⟩ := growForest_spec s.freq [] hp
    have hle := growForest_n_le s.freq []
    have hsize := g.size
    have hpos := List.length_pos_of_ne_nil hp
    have hn : s.nn.toNat = (growForest s.freq []).n := by
      rw [h3, BitVec.toNat_ofNat]; omega
    refine ⟨T, hp, g, by rw [h1]; exact g.rep, by rw [hn]; exact g.each, ?_, hn, by omega⟩
    rw [h4, if_neg (by omega), BitVec.toNat_ofNat, g.root]
    omega

/-- GenTable always answers on the tree of FREQ (R130, R133). -/
theorem treeOfFreq_genTable {s : State} (h : TreeOfFreq s) :
    (present s.freq = [] ∧ genTable s.nn s.root s.node = .ok []) ∨
    ∃ T c, present s.freq ≠ [] ∧ Grown s.freq (growForest s.freq []) T ∧ T.Rep s.node (present s.freq).length ∧
      CodesOf s.freq T c ∧ genTable s.nn s.root s.node = .ok c ∧ s.root.toNat = T.idx := by
  obtain ⟨h1, h2, h3, h4⟩ := treeOfFreq_iff.1 h
  by_cases hp : present s.freq = []
  · left
    rw [growForest_empty _ _ hp] at h3
    rw [h3]
    exact ⟨hp, genTable_empty _ _⟩
  · right
    obtain ⟨T, c, g, hc, he⟩ := genTable_spec s.freq [] hp
    have hsize := g.size
    have hpos := List.length_pos_of_ne_nil hp
    have hle := growForest_n_le s.freq []
    rw [if_neg (by omega)] at h4
    refine ⟨T, c, hp, g, by rw [h1]; exact g.rep, hc, by rw [h1, h3, h4]; exact he, ?_⟩
    rw [h4, g.root, BitVec.toNat_ofNat]
    omega

/-- Node `j` of the tree of FREQ is the leaf of the `j`-th present symbol (R112, R114 (b)). -/
theorem treeOfFreq_leaf {s : State} (h : TreeOfFreq s) (j : Nat) (hj : j < (present s.freq).length) :
    readNode s.node j = leafNode (present s.freq)[j] (readFreq s.freq (present s.freq)[j]) := by
  rw [(treeOfFreq_iff.1 h).1]
  exact (growForest_leaves s.freq [] j hj).1

/-- The code of a present symbol: the path of its leaf, or "0" for the only leaf. -/
theorem CodesOf.present {freq : Memory Count} {f : Forest} {T : HTree} {c : Memory CodeEntry} (g : Grown freq f T)
    (hc : CodesOf freq T c) (x : Sym) (hx : readFreq freq x.toNat ≠ 0#32) :
    ∃ j p, ∃ hj : j < (present freq).length, (present freq)[j] = x.toNat ∧ (j, p) ∈ T.codes ∧ p.length ≤ 255 ∧
      ((present freq).length ≠ 1 → p ≠ []) ∧
      readCode c x = codeEntry (if (present freq).length = 1 then [false] else p) ∧
      lookup c x = if (present freq).length = 1 then [false] else p := by
  obtain ⟨j, hj, he⟩ := List.getElem_of_mem (mem_present.2 ⟨x.isLt, hx⟩)
  have hjn : j ∈ T.indices := g.each.mem_iff.2 (List.mem_range.2 (by have := g.size; omega))
  obtain ⟨p, hp⟩ := T.mem_codes g.rep j hjn hj
  have hcode := hc.code j hj p hp
  rw [he, symOf_toNat] at hcode
  have hl : p.length ≤ 255 := by
    have := T.codes_length_le _ hp
    have := T.depth_lt
    have := g.leaves
    have := present_length_le freq
    simp only at *
    omega
  refine ⟨j, p, hj, he, hp, hl, ?_, hcode, ?_⟩
  · rintro h1 rfl
    have hleaves := g.leaves
    cases T with
    | leaf i => simp only [HTree.leafCount] at hleaves; omega
    | node i l r => simp [HTree.codes] at hp
  · unfold lookup
    rw [hcode, codeBits_codeEntry]
    split
    · simp
    · exact hl

/-- A present symbol has a code of at least one bit (R133 (a)). -/
theorem CodesOf.clen_ne {freq : Memory Count} {f : Forest} {T : HTree} {c : Memory CodeEntry} (g : Grown freq f T)
    (hc : CodesOf freq T c) (x : Sym) (hx : readFreq freq x.toNat ≠ 0#32) : (readCode c x).clen ≠ 0#8 := by
  obtain ⟨j, p, hj, _, _, hl, hne, hr, _⟩ := hc.present g x hx
  rw [hr]
  split
  · decide
  · intro e
    have := codeEntry_clen p hl
    rw [e] at this
    have := List.length_pos_of_ne_nil (hne ‹_›)
    simp at *
    omega

end Sys2Proof.Machine
end

