-- ==== Sys2Proof/Laws/Decoder.lean ====
section
/-!
SUPPORT. What the decoder's rules can do (spec rules R160 to R168): which registers a header byte and a payload byte write,
what they raise, and the walk of one code.
-/
namespace Sys2Proof.Machine

open Sys2Proof.Safety

/-- Everything a header byte can do when it is taken: parse on, or end the header (R161, R162). -/
theorem headerByte_ok {b : Byte} {s t : State} (h : headerByte b s = .ok t) :
    (∃ n y v m, t = { s with hn := n, hsym := y, hshift := v, freq := m, hcnt := s.hcnt + 1#11, phase := .dhdr }) ∨
    (3 < s.hcnt.toNat ∧ headerEnd (shiftIn s.hshift b) s = .ok t) := by
  unfold headerByte at h
  split at h
  · unfold magicByte at h
    split at h
    · cases h; exact Or.inl ⟨_, _, _, _, rfl⟩
    · cases h
  split at h
  · unfold sizeByte at h
    simp only at h
    split at h
    · cases h
    · cases h; exact Or.inl ⟨_, _, _, _, rfl⟩
  split at h
  · unfold pairByte at h
    simp only at h
    split at h
    · split at h
      · cases h
      · cases h; exact Or.inl ⟨_, _, _, _, rfl⟩
    split at h
    · cases h; exact Or.inl ⟨_, _, _, _, rfl⟩
    · split at h
      · cases h
      · cases h; exact Or.inl ⟨_, _, _, _, rfl⟩
  · unfold lengthByte at h
    simp only at h
    split at h
    · cases h; exact Or.inl ⟨_, _, _, _, rfl⟩
    · exact Or.inr ⟨by omega, h⟩

/-- The end of the header, when it is taken (R162). -/
theorem headerEnd_ok {v : BitLen} {s t : State} (h : headerEnd v s = .ok t) :
    ¬((buildTree s).nleaf = 0#9 ∧ v ≠ 0#64) ∧
    t = { buildTree s with
      dlen := v, hshift := 0#64, bitcnt := 0#64, hcnt := s.hcnt + 1#11, phase := if v = 0#64 then .dtail else .dpay } := by
  unfold headerEnd at h
  simp only at h
  split at h
  · cases h
  · rename_i hn
    cases h
    exact ⟨hn, rfl⟩

/-- A header byte stops nothing and raises only CorruptArtifact (R194). -/
theorem headerByte_error {b : Byte} {s : State} {e : Halt} (h : headerByte b s = .error e) :
    e = .raised .corruptArtifact := by
  unfold headerByte magicByte sizeByte pairByte lengthByte headerEnd corrupt at h
  simp only at h
  repeat' split at h
  all_goals first
    | cases h; done
    | (cases h; rfl)

/-- What one walked bit writes (R163). -/
theorem decBit_ok {b : Bool} {s t : State} (h : decBit b s = .ok t) :
    ∃ w o, t = { s with walk := w, outs := o, bitcnt := s.bitcnt + 1#64 } ∧ s.outs <+: o := by
  unfold decBit corrupt at h
  simp only at h
  repeat' split at h
  all_goals first
    | cases h; done
    | (cases h; exact ⟨_, _, rfl, List.prefix_append _ _⟩)
    | (cases h; exact ⟨_, _, rfl, List.prefix_rfl⟩)

theorem payloadBit_ok {b : Bool} {s t : State} (h : payloadBit b s = .ok t) :
    ∃ w o n, t = { s with walk := w, outs := o, bitcnt := n } ∧ s.outs <+: o := by
  unfold payloadBit corrupt at h
  repeat' split at h
  all_goals first
    | cases h; done
    | (rename_i hd _
       obtain ⟨w, o, rfl, ho⟩ := decBit_ok hd
       cases h; exact ⟨_, _, _, rfl, ho⟩)
    | (cases h; exact ⟨_, _, _, rfl, List.prefix_rfl⟩)

theorem payloadBits_ok {c : BitString} {s t : State} (h : payloadBits c s = .ok t) :
    ∃ w o n, t = { s with walk := w, outs := o, bitcnt := n } ∧ s.outs <+: o := by
  induction c generalizing s with
  | nil => cases h; exact ⟨_, _, _, rfl, List.prefix_rfl⟩
  | cons b c ih =>
    simp only [payloadBits] at h
    split at h
    · cases h
    · rename_i u hu
      obtain ⟨w, o, n, rfl, ho⟩ := payloadBit_ok hu
      obtain ⟨w', o', n', rfl, ho'⟩ := ih h
      exact ⟨w', o', n', rfl, ho.trans ho'⟩

theorem payloadByte_ok {b : Byte} {s t : State} (h : payloadByte b s = .ok t) :
    ∃ w o n p, t = { s with walk := w, outs := o, bitcnt := n, phase := p } ∧ s.outs <+: o ∧
      (p = s.phase ∨ p = .dtail) := by
  unfold payloadByte at h
  split at h
  · cases h
  · rename_i u hu
    obtain ⟨w, o, n, rfl, ho⟩ := payloadBits_ok hu
    cases h
    split
    · exact ⟨_, _, _, _, rfl, ho, Or.inr rfl⟩
    · exact ⟨_, _, _, _, rfl, ho, Or.inl rfl⟩

theorem fetchNode_error {m : Memory Node} {i : NodeIdx} {e : Halt} (h : fetchNode m i = .error e) :
    e = .stopped .noSuchNode := by
  unfold fetchNode at h
  split at h
  · cases h
  · cases h; rfl

theorem decBit_error {b : Bool} {s : State} {e : Halt} (h : decBit b s = .error e) :
    e = .raised .corruptArtifact ∨ e = .stopped .noSuchNode := by
  unfold decBit corrupt at h
  simp only at h
  split at h
  · rename_i hf; cases h; exact Or.inr (fetchNode_error hf)
  split at h
  · split at h
    · cases h; exact Or.inl rfl
    · cases h
  split at h
  · rename_i hf; cases h; exact Or.inr (fetchNode_error hf)
  split at h
  · rename_i hf; cases h; exact Or.inr (fetchNode_error hf)
  split at h <;> cases h

theorem payloadBits_error {c : BitString} {s : State} {e : Halt} (h : payloadBits c s = .error e) :
    e = .raised .corruptArtifact ∨ e = .stopped .noSuchNode := by
  induction c generalizing s with
  | nil => cases h
  | cons b c ih =>
    simp only [payloadBits] at h
    split at h
    · rename_i e' he
      cases h
      unfold payloadBit corrupt at he
      split at he
      · split at he
        · rename_i hd; cases he; exact decBit_error hd
        · split at he
          · cases he; exact Or.inl rfl
          · cases he
      · split at he
        · cases he; exact Or.inl rfl
        · cases he
    · exact ih h

theorem payloadByte_error {b : Byte} {s : State} {e : Halt} (h : payloadByte b s = .error e) :
    e = .raised .corruptArtifact ∨ e = .stopped .noSuchNode := by
  unfold payloadByte at h
  split at h
  · rename_i hp; cases h; exact payloadBits_error hp
  · cases h

/-- A string of payload bits in two parts (R164). -/
theorem payloadBits_append (c c' : BitString) (s : State) :
    payloadBits (c ++ c') s = match payloadBits c s with
      | .error e => .error e
      | .ok t => payloadBits c' t := by
  induction c generalizing s with
  | nil => rfl
  | cons b c ih =>
    simp only [List.cons_append, payloadBits]
    split
    · rfl
    · exact ih _

/-- The walk of the turns from an internal node to a leaf of its subtree emits the leaf's symbol and comes back to the root
(R163). -/
theorem payloadBits_path {L : Nat} (X : HTree) (s : State) (h : X.Rep s.node L)
    (hx : s.walk.toNat = X.idx) (hr : s.root.toNat < 511) (hroot : (readNode s.node s.root.toNat).leaf = false)
    (j : Nat) (c : BitString) (hc : (j, c) ∈ X.codes) (hne : c ≠ [])
    (hlen : s.bitcnt.toNat + c.length ≤ s.dlen.toNat) :
    payloadBits c s = .ok { s with
      walk := s.root, outs := s.outs ++ [(readNode s.node j).sym], bitcnt := s.bitcnt + BitVec.ofNat 64 c.length } := by
  induction X generalizing s c with
  | leaf i =>
    simp only [HTree.codes, List.mem_singleton, Prod.mk.injEq] at hc
    exact absurd hc.2 hne
  | node i l r hl hr' =>
    have hrep := h
    obtain ⟨⟨_, hi, hli, hri, _⟩, ⟨hleaf, _, hleft, hright, _⟩, h1, h2⟩ := h
    simp only [HTree.idx] at hx
    have hdl := s.dlen.isLt
    -- one turn towards the subtree `Y`
    have key : ∀ (b : Bool) (Y : HTree) (d : BitString), Y.Rep s.node L →
        (if b then (readNode s.node i).right else (readNode s.node i).left).toNat = Y.idx → Y.idx < i →
        (j, d) ∈ Y.codes → c = b :: d →
        (∀ u : State, Y.Rep u.node L → u.walk.toNat = Y.idx → u.root.toNat < 511 →
          (readNode u.node u.root.toNat).leaf = false → (j, d) ∈ Y.codes → d ≠ [] →
          u.bitcnt.toNat + d.length ≤ u.dlen.toNat →
          payloadBits d u = .ok { u with
            walk := u.root, outs := u.outs ++ [(readNode u.node j).sym],
            bitcnt := u.bitcnt + BitVec.ofNat 64 d.length }) →
        payloadBits c s = .ok { s with
          walk := s.root, outs := s.outs ++ [(readNode s.node j).sym],
          bitcnt := s.bitcnt + BitVec.ofNat 64 c.length } := by
      intro b Y d hY hchild hYi hjd hcd ih
      subst hcd
      simp only [List.length_cons] at hlen
      have hlt : s.bitcnt < s.dlen := by rw [BitVec.lt_def]; omega
      have hcnt : (s.bitcnt + 1#64).toNat = s.bitcnt.toNat + 1 := by
        rw [BitVec.toNat_add]; simp; omega
      have hnx : fetchNode s.node (if b then (readNode s.node i).right else (readNode s.node i).left) =
          .ok (readNode s.node Y.idx) := by
        rw [fetchNode_of_lt (by rw [hchild]; omega), hchild]
      have hdec : decBit b s =
          if (readNode s.node Y.idx).leaf then
            .ok (bitTaken { emitSym (readNode s.node Y.idx).sym s with walk := s.root })
          else .ok (bitTaken { s with walk := if b then (readNode s.node i).right else (readNode s.node i).left }) := by
        unfold decBit
        rw [fetchNode_of_lt hr]
        simp only [hroot, Bool.false_eq_true, if_false]
        rw [fetchNode_of_lt (by rw [hx]; omega), hx]
        simp only [hnx]
      rcases Y with k | ⟨k, l', r'⟩
      · obtain ⟨_, hk⟩ := hY
        simp only [HTree.codes, List.mem_singleton, Prod.mk.injEq] at hjd
        obtain ⟨rfl, rfl⟩ := hjd
        simp only [payloadBits, payloadBit, hlt, if_true, hdec, HTree.idx, hk]
        rw [if_neg (by simp [bitTaken])]
        rfl
      · have hk := hY.2.1.1
        have hd : d ≠ [] := by
          rintro rfl
          simp [HTree.codes] at hjd
        have hd0 : 0 < d.length := List.length_pos_of_ne_nil hd
        simp only [payloadBits, payloadBit, hlt, if_true, hdec, HTree.idx, hk]
        simp only [Bool.false_eq_true, if_false]
        have hnd : (bitTaken { s with walk := if b then (readNode s.node i).right else (readNode s.node i).left }).bitcnt ≠
            s.dlen := by
          intro e
          have := congrArg BitVec.toNat e
          simp only [bitTaken_bitcnt, hcnt] at this
          omega
        rw [if_neg (fun e => hnd e.1)]
        simp only
        rw [ih (bitTaken { s with walk := if b then (readNode s.node i).right else (readNode s.node i).left })
          hY hchild hr hroot hjd hd (by simp only [bitTaken_bitcnt, bitTaken_dlen, hcnt]; omega)]
        have : s.bitcnt + 1#64 + BitVec.ofNat 64 d.length = s.bitcnt + BitVec.ofNat 64 (d.length + 1) := by
          apply BitVec.eq_of_toNat_eq
          simp only [BitVec.toNat_add, BitVec.toNat_ofNat]
          omega
        simp only [bitTaken, List.length_cons]
        rw [this]
    simp only [HTree.codes, List.mem_append, List.mem_map, Prod.mk.injEq] at hc
    rcases hc with ⟨⟨j', d⟩, hp, rfl, rfl⟩ | ⟨⟨j', d⟩, hp, rfl, rfl⟩
    · exact key false l d h1 (by simpa using hleft) hli hp rfl
        fun u a b c' d' e f g => hl u a b c' d' d e f g
    · exact key true r d h2 (by simpa using hright) hri hp rfl
        fun u a b c' d' e f g => hr' u a b c' d' d e f g

end Sys2Proof.Machine
end

