-- ==== Sys2Proof/Laws/Effects.lean ====
section
/-!
SUPPORT. Everything a command can do, said once: the codes its own rule can raise (spec rule R191), and what its rule can write
(R68, R100). Invariants and frames over all commands follow from `exec_cases` without unfolding a rule.
-/
namespace Sys2Proof.Machine

/-- Assign stops the model or answers a table: it raises nothing. -/
theorem assign_error (m : Memory Node) (fuel : Nat) (i : NodeIdx) (p : BitString) (t : Memory CodeEntry) (e : Halt)
    (h : assign m fuel i p t = .error e) : ∃ f, e = .stopped f := by
  induction fuel generalizing i p t with
  | zero =>
    unfold assign at h
    split at h
    · rename_i hf
      cases h
      exact ⟨_, fetchNode_error hf⟩
    · split at h
      · cases h
      · cases h
        exact ⟨_, rfl⟩
  | succ k ih =>
    unfold assign at h
    split at h
    · rename_i hf
      cases h
      exact ⟨_, fetchNode_error hf⟩
    · split at h
      · cases h
      · simp only at h
        split at h
        · rename_i ha
          cases h
          exact ih _ _ _ ha
        · exact ih _ _ _ h

theorem genRule_error {s : State} {e : Halt} (h : genRule s = .error e) : ∃ f, e = .stopped f := by
  unfold genRule at h
  split at h
  · rename_i hg
    cases h
    unfold genTable at hg
    split at hg
    · cases hg
    · split at hg
      · rename_i hf
        cases hg
        exact ⟨_, fetchNode_error hf⟩
      · split at hg
        · cases hg
        · exact assign_error _ _ _ _ _ _ hg
  · cases h

theorem dbyteRule_error {b : Byte} {s : State} {e : Halt} (ha : accepts (.dbyte b) s.phase = true)
    (h : dbyteRule b s = .error e) : e = .raised .corruptArtifact ∨ e = .stopped .noSuchNode := by
  unfold dbyteRule at h
  split at h
  · exact Or.inl (headerByte_error h)
  · exact Or.inl (headerByte_error h)
  · exact payloadByte_error h
  · cases h; exact Or.inl rfl
  all_goals (rename_i hp; rw [hp] at ha; cases ha)

/-- The codes each command's own rule raises (R191). -/
theorem ruleOf_raised {i : Instr} {s : State} {e : Err} (ha : accepts i s.phase = true)
    (h : ruleOf i s = .error (.raised e)) :
    (e = .emptyInput ∧ i = .build) ∨ (e = .unsupportedSymbol ∧ ∃ x, i = .enc x) ∨
    (e = .corruptArtifact ∧ ((∃ b, i = .dbyte b) ∨ i = .dend)) ∨ (e = .countOverflow ∧ ∃ x, i = .cnt x) ∨
    (e = .lengthMismatch ∧ ((∃ x, i = .enc x) ∨ i = .flush)) := by
  cases i with
  | nop => cases h
  | rst => cases h
  | cfg imm => cases h
  | cnt x =>
    simp only [ruleOf, cntRule] at h
    split at h
    · cases h; simp
    · cases h
  | build =>
    simp only [ruleOf, buildRule] at h
    split at h
    · cases h; simp
    · cases h
  | gen =>
    obtain ⟨f, hf⟩ := genRule_error h
    cases hf
  | emith => cases h
  | enc x =>
    simp only [ruleOf, encRule] at h
    split at h
    · cases h; simp
    · split at h
      · cases h; simp
      · cases h
  | flush =>
    simp only [ruleOf, flushRule] at h
    split at h
    · cases h; simp
    · split at h <;> cases h
  | dbyte b =>
    rcases dbyteRule_error ha h with h | h
    · cases h; simp
    · cases h
  | dend =>
    simp only [ruleOf, dendRule, corrupt] at h
    split at h
    · cases h
    · cases h; simp

/-- What the own rule of command `i` leaves of the state `s` in the state `t`: the writers each register, memory and stream
names (R21 to R34, R68), and the phases it can move between (R22, R100). -/
structure Effects (i : Instr) (s t : State) : Prop where
  err : t.err = s.err
  einfo : t.einfo = s.einfo
  host : t.host = s.host
  statData : t.statData = s.statData
  outbGrows : s.outb <+: t.outb
  outsGrows : s.outs <+: t.outs
  oneStream : t.outb = s.outb ∨ t.outs = s.outs
  freq : (∀ x, i ≠ .cnt x) → (∀ b, i ≠ .dbyte b) → t.freq = s.freq
  tree : i ≠ .build → (∀ b, i ≠ .dbyte b) →
    t.node = s.node ∧ t.nleaf = s.nleaf ∧ t.nn = s.nn ∧ t.root = s.root ∧ t.walk = s.walk
  code : i ≠ .gen → t.code = s.code
  outb : i ≠ .emith → (∀ x, i ≠ .enc x) → i ≠ .flush → t.outb = s.outb
  outs : (∀ b, i ≠ .dbyte b) → t.outs = s.outs
  ctrl : (∀ b, i ≠ .cfg b) → t.ctrl = s.ctrl
  dlen : i ≠ .emith → (∀ b, i ≠ .dbyte b) → t.dlen = s.dlen
  bitcnt : i ≠ .emith → (∀ x, i ≠ .enc x) → (∀ b, i ≠ .dbyte b) → t.bitcnt = s.bitcnt
  acc : i ≠ .emith → (∀ x, i ≠ .enc x) → i ≠ .flush → t.acc = s.acc
  header : (∀ b, i ≠ .dbyte b) → t.hcnt = s.hcnt ∧ t.hn = s.hn ∧ t.hsym = s.hsym ∧ t.hshift = s.hshift
  phase : t.phase ≠ s.phase →
    ((∃ x, i = .cnt x) ∧ s.phase = .idle ∧ t.phase = .count) ∨
    (i = .build ∧ (s.phase = .idle ∨ s.phase = .count) ∧ t.phase = .tree) ∨
    (i = .gen ∧ s.phase = .tree ∧ t.phase = .table) ∨
    (i = .emith ∧ s.phase = .table ∧ t.phase = .encode) ∨
    (i = .flush ∧ s.phase = .encode ∧ t.phase = .edone) ∨
    ((∃ b, i = .dbyte b) ∧ s.phase = .idle ∧ (s.hcnt = 0#11 → t.phase = .dhdr) ∧
      (t.phase = .dhdr ∨ t.phase = .dpay ∨ t.phase = .dtail)) ∨
    ((∃ b, i = .dbyte b) ∧ s.phase = .dhdr ∧ (t.phase = .dpay ∨ t.phase = .dtail)) ∨
    ((∃ b, i = .dbyte b) ∧ s.phase = .dpay ∧ t.phase = .dtail) ∨
    (i = .dend ∧ s.phase = .dtail ∧ t.phase = .ddone)

theorem headerByte_effects {b : Byte} {s t : State} (hp : s.phase = .idle ∨ s.phase = .dhdr)
    (h : headerByte b s = .ok t) : Effects (.dbyte b) s t := by
  rcases headerByte_ok h with ⟨n, y, v, m, rfl⟩ | ⟨hk, he⟩
  · constructor <;> try simp
    intro hne
    rcases hp with hp | hp <;> simp_all
  · obtain ⟨_, rfl⟩ := headerEnd_ok he
    constructor <;> try simp
    have : s.hcnt ≠ 0#11 := by rintro e; rw [e] at hk; simp at hk
    intro hne
    rcases hp with hp | hp <;> split <;> simp_all

theorem ruleOf_effects {i : Instr} {s t : State} (hi : i ≠ .rst) (ha : accepts i s.phase = true)
    (h : ruleOf i s = .ok t) : Effects i s t := by
  cases i with
  | nop => cases h; constructor <;> simp
  | rst => exact absurd rfl hi
  | cfg imm => cases h; constructor <;> simp
  | cnt x =>
    simp only [ruleOf, cntRule] at h
    split at h
    · cases h
    · cases h
      constructor <;> simp
      intro hne
      simp [accepts] at ha
      tauto
  | build =>
    simp only [ruleOf, buildRule] at h
    split at h
    · cases h
    · cases h
      constructor <;> simp
      intro hne
      simp [accepts] at ha
      tauto
  | gen =>
    simp only [ruleOf, genRule] at h
    split at h
    · cases h
    · cases h
      constructor <;> simp
      intro hne
      simp [accepts] at ha
      tauto
  | emith =>
    simp only [ruleOf, emithRule] at h
    cases h
    constructor <;> simp
    intro hne
    simp [accepts] at ha
    tauto
  | enc x =>
    simp only [ruleOf, encRule] at h
    split at h
    · cases h
    · split at h
      · cases h
      · cases h
        obtain ⟨a, n, o, he, ho⟩ := putBits_frame (lookup s.code x) s
        rw [he]
        constructor <;> simp [ho]
  | flush =>
    simp only [ruleOf, flushRule] at h
    have hp : s.phase = .encode := by simpa [accepts] using ha
    split at h
    · cases h
    · split at h <;> cases h <;> constructor <;> simp [hp]
  | dbyte b =>
    simp only [ruleOf, dbyteRule] at h
    split at h
    · exact headerByte_effects (Or.inl ‹_›) h
    · exact headerByte_effects (Or.inr ‹_›) h
    · obtain ⟨w, o, n, p, rfl, ho, hp⟩ := payloadByte_ok h
      constructor <;> try simp [ho]
      intro hne
      rcases hp with hp | hp
      · exact absurd hp hne
      · exact Or.inr (Or.inr ⟨‹_›, hp⟩)
    all_goals cases h
  | dend =>
    simp only [ruleOf, dendRule] at h
    split at h
    · cases h; constructor <;> simp [*]
    · cases h

/-- A command that answers a next state was ignored or did nothing, or raised a fault and left all else, or completed in a
phase that accepts it, with the effects of its own rule. RST alone does not go through these steps. -/
theorem exec_cases {i : Instr} {s t : State} (hi : i ≠ .rst) (h : exec i s = .next t) :
    t = s ∨
    (∃ e, s.err = .noFault ∧ e ≠ .noFault ∧ t = { s with err := e, einfo := encode i }) ∨
    (s.err = .noFault ∧ accepts i s.phase = true ∧ ruleOf i s = .ok t ∧ Effects i s t) := by
  rw [exec_eq_execute _ hi] at h
  rcases execute_cases h with ⟨_, rfl⟩ | ⟨he, _, rfl⟩ | ⟨he, ha, hr⟩ | ⟨e, he, ha, hr, rfl⟩
  · exact Or.inl rfl
  · exact Or.inr (Or.inl ⟨_, he, by simp, rfl⟩)
  · exact Or.inr (Or.inr ⟨he, ha, hr, ruleOf_effects hi ha hr⟩)
  · refine Or.inr (Or.inl ⟨e, he, ?_, rfl⟩)
    rcases ruleOf_raised ha hr with h | h | h | h | h <;> rw [h.1] <;> simp

end Sys2Proof.Machine
end

