-- ==== Sys2Proof/Laws/PerInstr.lean ====
section
/-!
SUPPORT. A statement about every command as syntax, one lemma per constructor: its word is well formed, so the "must be 0" fields
of its format are 0 (spec rules R81, R84).
-/
namespace Sys2Proof.Laws.EncodesWellFormed

/-- The word of a command is one of the 777 valid words (R83, R84). -/
def Statement (i : Instr) : Prop := WellFormed (encode i) = true

theorem nop : Statement .nop := rfl
theorem rst : Statement .rst := rfl
theorem cfg (imm : BitVec 1) : Statement (.cfg imm) := by
  revert imm; unfold Statement; decide
theorem cnt (sym : Sym) : Statement (.cnt sym) := by
  revert sym; unfold Statement; decide
theorem build : Statement .build := rfl
theorem gen : Statement .gen := rfl
theorem emith : Statement .emith := rfl
theorem enc (sym : Sym) : Statement (.enc sym) := by
  revert sym; unfold Statement; decide
theorem flush : Statement .flush := rfl
theorem dbyte (byte : Byte) : Statement (.dbyte byte) := by
  revert byte; unfold Statement; decide
theorem dend : Statement .dend := rfl

end Sys2Proof.Laws.EncodesWellFormed
end

