-- ==== Sys2Proof/Laws/Walk.lean ====
section
/-!
SUPPORT. The payload walk as a whole (spec rules R163 to R165): how many bits a string of payload bits takes, that the codes of
a symbol string walk to that string, and the other direction, that whatever was walked was the codes of what was emitted.
-/
namespace Sys2Proof.Machine

open Sys2Proof.Safety

/-- What a string of payload bits that is taken leaves: the bits up to DLEN are counted, a walk that reaches DLEN is back at the
root, and every later bit is 0 (R164). -/
theorem payloadBits_taken (c : BitString) {s t : State} (h : payloadBits c s = .ok t)
    (hle : s.bitcnt.toNat ≤ s.dlen.toNat) (hw : s.bitcnt = s.dlen → s.walk = s.root) :
    t.bitcnt.toNat = min (s.bitcnt.toNat + c.length) s.dlen.toNat ∧ (t.bitcnt = s.dlen → t.walk = s.root) ∧
      c.drop (s.dlen.toNat - s.bitcnt.toNat) = List.replicate (c.length - (s.dlen.toNat - s.bitcnt.toNat)) false := by
  induction c generalizing s with
  | nil => cases h; exact ⟨by simp; omega, hw, by simp⟩
  | cons b c ih =>
    simp only [payloadBits] at h
    split at h
    · cases h
    · rename_i u hu
      have hd := s.dlen.isLt
      unfold payloadBit at hu
      split at hu
      · rename_i hlt
        rw [BitVec.lt_def] at hlt
        split at hu
        · cases hu
        · rename_i v hv
          obtain ⟨w, o, rfl, _⟩ := decBit_ok hv
          split at hu
          · cases hu
          · rename_i hn
            cases hu
            have hc : (s.bitcnt + 1#64).toNat = s.bitcnt.toNat + 1 := by
              rw [BitVec.toNat_add]; simp; omega
            obtain ⟨h1, h2, h3⟩ := ih h (by simp only; omega) (by intro e; by_contra hx; exact hn ⟨e, hx⟩)
            refine ⟨by rw [h1]; simp only [List.length_cons]; omega, h2, ?_⟩
            simp only [hc] at h3
            rw [show s.dlen.toNat - s.bitcnt.toNat = s.dlen.toNat - (s.bitcnt.toNat + 1) + 1 by omega,
              List.drop_succ_cons, List.length_cons, Nat.add_sub_add_right]
            exact h3
      · rename_i hlt
        rw [BitVec.lt_def] at hlt
        split at hu
        · cases hu
        · rename_i hb
          cases hu
          obtain ⟨h1, h2, h3⟩ := ih h hle hw
          refine ⟨by rw [h1]; simp only [List.length_cons]; omega, h2, ?_⟩
          have he : s.dlen.toNat - s.bitcnt.toNat = 0 := by omega
          simp only [he, List.drop_zero, Nat.sub_zero] at h3 ⊢
          rw [List.length_cons, List.replicate_succ, ← h3]
          simpa using hb

/-- With every declared bit taken, only 0 bits are taken and nothing changes. -/
theorem payloadBits_pad (n : Nat) {s : State} (h : s.bitcnt = s.dlen) :
    payloadBits (List.replicate n false) s = .ok s := by
  induction n with
  | zero => rfl
  | succ n ih =>
    rw [List.replicate_succ, payloadBits, payloadBit, if_neg (by rw [h, BitVec.lt_def]; omega)]
    exact ih

/-- The single-leaf walk (R165): any 1 bit is corrupt; each declared 0 bit emits the symbol. -/
theorem payloadBits_single (c : BitString) (s : State) (hle : s.bitcnt.toNat ≤ s.dlen.toNat) (hr : s.root.toNat < 511)
    (hl : (readNode s.node s.root.toNat).leaf = true) (hw : s.walk = s.root) :
    payloadBits c s = if c.any id then corrupt else .ok { s with
      bitcnt := BitVec.ofNat 64 (min (s.bitcnt.toNat + c.length) s.dlen.toNat)
      outs := s.outs ++ List.replicate (min (s.bitcnt.toNat + c.length) s.dlen.toNat - s.bitcnt.toNat)
        (readNode s.node s.root.toNat).sym } := by
  induction c generalizing s with
  | nil =>
    simp [payloadBits]
    rw [Nat.min_eq_left hle]
    simp
  | cons b c ih =>
    have hd := s.dlen.isLt
    simp only [payloadBits, payloadBit]
    by_cases hlt : s.bitcnt < s.dlen
    · rw [if_pos hlt]
      simp only [decBit, fetchNode_of_lt hr, hl, if_true]
      cases b with
      | true => simp [corrupt]
      | false =>
        simp only [Bool.false_eq_true, if_false, bitTaken, emitSym, hw, ne_eq, not_true_eq_false, and_false]
        rw [BitVec.lt_def] at hlt
        have hc : (s.bitcnt + 1#64).toNat = s.bitcnt.toNat + 1 := by
          rw [BitVec.toNat_add]; simp; omega
        have := ih { s with
          bitcnt := s.bitcnt + 1#64, walk := s.root
          outs := s.outs ++ [(readNode s.node s.root.toNat).sym] } (by simp only [hc]; omega) hr hl rfl
        rw [← hw] at this ⊢
        refine Eq.trans this ?_
        simp only [List.any_cons, id, Bool.false_or, hc, List.length_cons, List.append_assoc]
        congr 2
        congr 2
        · congr 1; omega
        · rw [show min (s.bitcnt.toNat + (c.length + 1)) s.dlen.toNat - s.bitcnt.toNat =
            (min (s.bitcnt.toNat + 1 + c.length) s.dlen.toNat - (s.bitcnt.toNat + 1)) + 1 by omega, List.replicate_succ]
          rfl
    · rw [if_neg hlt]
      rw [BitVec.lt_def] at hlt
      cases b with
      | true => simp [corrupt]
      | false =>
        simp only [Bool.false_eq_true, if_false]
        rw [ih _ hle hr hl hw]
        simp only [List.any_cons, id, Bool.false_or, List.length_cons]
        rw [show min (s.bitcnt.toNat + (c.length + 1)) s.dlen.toNat = min (s.bitcnt.toNat + c.length) s.dlen.toNat by omega]

/-- One step down a tree, when there is one: left on 0, right on 1. -/
def HTree.child : HTree → Bool → Option HTree
  | .leaf _, _ => none
  | .node _ l _, false => some l
  | .node _ _ r, true => some r

/-- The subtree a string of turns leads to, when there is one. -/
def HTree.sub : HTree → BitString → Option HTree
  | T, [] => some T
  | .leaf _, _ :: _ => none
  | .node _ l _, false :: c => l.sub c
  | .node _ _ r, true :: c => r.sub c

theorem HTree.sub_nil (T : HTree) : T.sub [] = some T := by cases T <;> rfl

theorem HTree.sub_snoc (T : HTree) (c : BitString) (b : Bool) {X : HTree} (h : T.sub c = some X) :
    T.sub (c ++ [b]) = X.child b := by
  induction T generalizing c with
  | leaf i =>
    cases c with
    | nil => cases h; cases b <;> rfl
    | cons d c => cases h
  | node i l r hl hr =>
    cases c with
    | nil =>
      cases h
      cases b
      · exact l.sub_nil
      · exact r.sub_nil
    | cons d c =>
      cases d
      · exact hl c h
      · exact hr c h

theorem HTree.mem_codes_iff (T : HTree) (c : BitString) (j : Nat) : (j, c) ∈ T.codes ↔ T.sub c = some (.leaf j) := by
  induction T generalizing c with
  | leaf i => cases c <;> simp [HTree.codes, HTree.sub, eq_comm]
  | node i l r hl hr =>
    simp only [HTree.codes, List.mem_append, List.mem_map, Prod.mk.injEq, Prod.exists]
    cases c with
    | nil => simp [HTree.sub]
    | cons d c =>
      cases d
      · simp only [HTree.sub, ← hl]
        constructor
        · rintro (⟨a, e, h, rfl, h2⟩ | ⟨a, e, h, rfl, h2⟩)
          · cases h2; exact h
          · cases h2
        · exact fun h => Or.inl ⟨j, c, h, rfl, rfl⟩
      · simp only [HTree.sub, ← hr]
        constructor
        · rintro (⟨a, e, h, rfl, h2⟩ | ⟨a, e, h, rfl, h2⟩)
          · cases h2
          · cases h2; exact h
        · exact fun h => Or.inr ⟨j, c, h, rfl, rfl⟩

theorem HTree.Rep.sub {m : Memory Node} {L : Nat} {T X : HTree} (h : T.Rep m L) (c : BitString) (hc : T.sub c = some X) :
    X.Rep m L ∧ (c ≠ [] → X.idx < T.idx) := by
  induction T generalizing c with
  | leaf i =>
    cases c with
    | nil => cases hc; exact ⟨h, fun e => absurd rfl e⟩
    | cons d c => cases hc
  | node i l r hl hr =>
    have hrep := h
    obtain ⟨⟨_, _, hli, hri, _⟩, _, h1, h2⟩ := h
    cases c with
    | nil => cases hc; exact ⟨hrep, fun e => absurd rfl e⟩
    | cons d c =>
      have key : ∀ Y : HTree, Y.idx < i → Y.sub c = some X → (X.Rep m L ∧ (c ≠ [] → X.idx < Y.idx)) →
          X.Rep m L ∧ (d :: c ≠ [] → X.idx < i) := by
        intro Y hY hs hx
        refine ⟨hx.1, fun _ => ?_⟩
        by_cases hn : c = []
        · subst hn
          rw [Y.sub_nil] at hs
          cases hs
          exact hY
        · exact (hx.2 hn).trans hY
      cases d
      · exact key l hli hc (hl h1 c hc)
      · exact key r hri hc (hr h2 c hc)

/-- One walked bit from the internal node at the end of the turns `p` (R163): the walk goes on one turn, and at a leaf it emits
the leaf's symbol and goes back to the root. -/
theorem decBit_turn {m : Memory Node} {L : Nat} {T X : HTree} (hT : T.Rep m L) {s : State} (hm : s.node = m)
    (hroot : s.root.toNat = T.idx) (hr : s.root.toNat < 511) (hnl : (readNode s.node s.root.toNat).leaf = false)
    (p : BitString) (hp : T.sub p = some X) (hX : s.walk.toNat = X.idx) (hXl : (readNode s.node X.idx).leaf = false)
    (b : Bool) :
    ∃ Y, T.sub (p ++ [b]) = some Y ∧
      ((∃ j, Y = .leaf j ∧ decBit b s = .ok { s with
          walk := s.root, outs := s.outs ++ [(readNode s.node j).sym], bitcnt := s.bitcnt + 1#64 }) ∨
        ∃ w : NodeIdx, w.toNat = Y.idx ∧ (readNode s.node Y.idx).leaf = false ∧
          decBit b s = .ok { s with walk := w, bitcnt := s.bitcnt + 1#64 }) := by
  subst hm
  obtain ⟨hXr, hXT⟩ := hT.sub p hp
  have hX511 : X.idx < 511 := by
    by_cases hn : p = []
    · subst hn
      rw [T.sub_nil] at hp
      cases hp
      omega
    · have := hXT hn
      omega
  cases X with
  | leaf i =>
    simp only [HTree.idx] at hXl
    rw [hXr.2] at hXl
    cases hXl
  | node i l r =>
    obtain ⟨⟨_, _, hli, hri, _⟩, ⟨_, _, hleft, hright, _⟩, h1, h2⟩ := hXr
    simp only [HTree.idx] at hX hX511
    refine ⟨if b then r else l, by rw [T.sub_snoc p b hp]; cases b <;> rfl, ?_⟩
    have hchild : (if b then (readNode s.node i).right else (readNode s.node i).left).toNat = (if b then r else l).idx := by
      cases b <;> simp [hleft, hright]
    have hlt : (if b then r else l).idx < i := by cases b <;> simp [hli, hri]
    have hYr : (if b then r else l).Rep s.node L := by cases b <;> simp [h1, h2]
    generalize (if b then r else l) = Y at *
    have hdec : decBit b s =
        if (readNode s.node Y.idx).leaf then
          .ok (bitTaken { emitSym (readNode s.node Y.idx).sym s with walk := s.root })
        else .ok (bitTaken { s with walk := if b then (readNode s.node i).right else (readNode s.node i).left }) := by
      unfold decBit
      rw [fetchNode_of_lt hr]
      simp only [hnl, Bool.false_eq_true, if_false]
      rw [fetchNode_of_lt (by omega), hX]
      simp only
      rw [fetchNode_of_lt (by omega), hchild]
    cases Y with
    | leaf j =>
      left
      refine ⟨j, rfl, ?_⟩
      rw [hdec, if_pos (show (readNode s.node (HTree.leaf j).idx).leaf = true from hYr.2)]
      rfl
    | node j l' r' =>
      right
      have hl := hYr.2.1.1
      refine ⟨_, hchild, hl, ?_⟩
      rw [hdec, if_neg (by simp only [HTree.idx, hl, Bool.false_eq_true, not_false_eq_true])]
      rfl

/-- The children of an internal node of the tree are nodes of the tree (R38 (a)). -/
theorem HTree.Rep.child_mem {m : Memory Node} {L : Nat} {T : HTree} (h : T.Rep m L) {i : NodeIdx} (hi : i.toNat ∈ T.indices)
    (hl : (readNode m i.toNat).leaf = false) (b : Bool) : (childOf m i b).toNat ∈ T.indices := by
  induction T with
  | leaf j =>
    simp only [indices, List.mem_singleton] at hi
    rw [hi, h.2] at hl
    cases hl
  | node j l r ihl ihr =>
    obtain ⟨_, ⟨_, _, hleft, hright, _⟩, h1, h2⟩ := h
    simp only [indices, List.mem_cons, List.mem_append] at hi ⊢
    rcases hi with hi | hi | hi
    · cases b
      · simp [childOf, hi, hleft, l.idx_mem]
      · simp [childOf, hi, hright, r.idx_mem]
    · exact Or.inr (Or.inl (ihl h1 hi))
    · exact Or.inr (Or.inr (ihr h2 hi))

/-- In the tree of FREQ every index the walk meets names an entry, and the walk stays sound (R32, R163). -/
theorem treeOfFreq_walk {s : State} (ht : TreeOfFreq s) (hw : WalkSound s) (hr : (readNode s.node s.root.toNat).leaf = false)
    (b : Bool) :
    s.root.toNat < 511 ∧ s.walk.toNat < 511 ∧ (childOf s.node s.walk b).toNat < 511 ∧
      ((readNode s.node (childOf s.node s.walk b).toNat).leaf = false →
        WalkSound { s with walk := childOf s.node s.walk b }) := by
  rcases treeOfFreq_cases ht with ⟨_, h1, h2, h3⟩ | ⟨T, _, _, hrep, hperm, hroot, _, h511⟩
  · have hwalk : s.walk = s.root := hw.resolve_right fun h => by rw [h1] at h; exact absurd h.1 (by simp)
    have hc : childOf s.node s.walk b = s.root := by
      rw [h2, h3]; cases b <;> rfl
    rw [hc, hwalk, h3]
    exact ⟨by decide, by decide, by decide, fun _ => Or.inl rfl⟩
  · have hmem : ∀ i, i ∈ T.indices → i < s.nn.toNat := fun i hi => List.mem_range.1 (hperm.mem_iff.1 hi)
    have hrt : s.root.toNat ∈ T.indices := by rw [hroot]; exact T.idx_mem
    have hwm : s.walk.toNat ∈ T.indices ∧ (readNode s.node s.walk.toNat).leaf = false := by
      rcases hw with h | h
      · rw [h]; exact ⟨hrt, hr⟩
      · exact ⟨hperm.mem_iff.2 (List.mem_range.2 h.1), h.2⟩
    have hch := hmem _ (hrep.child_mem hwm.1 hwm.2 b)
    have := hmem _ hrt
    have := hmem _ hwm.1
    exact ⟨by omega, by omega, by omega, fun hl => Or.inr ⟨hch, hl⟩⟩

/-- One bit of the walk in the tree of FREQ (R163). -/
theorem decBit_childOf {s : State} (ht : TreeOfFreq s) (hw : WalkSound s) (hr : (readNode s.node s.root.toNat).leaf = false)
    (b : Bool) :
    decBit b s = .ok
      (if (readNode s.node (childOf s.node s.walk b).toNat).leaf then
        { s with
          outs := s.outs ++ [(readNode s.node (childOf s.node s.walk b).toNat).sym]
          walk := s.root, bitcnt := s.bitcnt + 1#64 }
      else { s with walk := childOf s.node s.walk b, bitcnt := s.bitcnt + 1#64 }) := by
  obtain ⟨h1, h2, h3, _⟩ := treeOfFreq_walk ht hw hr b
  unfold decBit
  rw [fetchNode_of_lt h1]
  simp only [hr, Bool.false_eq_true, if_false]
  rw [fetchNode_of_lt h2]
  change (match fetchNode s.node (childOf s.node s.walk b) with | .error h => _ | .ok x => _) = _
  rw [fetchNode_of_lt h3]
  simp only
  split <;> rfl

/-- Payload bits in the tree of FREQ (R163, R164): the declared ones walk, and what they walk is what is emitted; the string is
corrupt if the walk ends inside a code at DLEN or a later bit is 1. -/
theorem payloadBits_walkBits (c : BitString) {s : State} (ht : TreeOfFreq s) (hw : WalkSound s)
    (hr : (readNode s.node s.root.toNat).leaf = false) (hle : s.bitcnt.toNat ≤ s.dlen.toNat)
    (hb : s.bitcnt = s.dlen → s.walk = s.root) {n : BitLen} (hn : n.toNat = min (s.bitcnt.toNat + c.length) s.dlen.toNat) :
    payloadBits c s =
      if (n = s.dlen ∧ (walkBits s.node s.root s.walk (c.take (n.toNat - s.bitcnt.toNat))).2 ≠ s.root) ∨
          true ∈ c.drop (n.toNat - s.bitcnt.toNat) then corrupt
      else .ok { s with
        outs := s.outs ++ (walkBits s.node s.root s.walk (c.take (n.toNat - s.bitcnt.toNat))).1
        walk := (walkBits s.node s.root s.walk (c.take (n.toNat - s.bitcnt.toNat))).2, bitcnt := n } := by
  induction c generalizing s with
  | nil =>
    have : n = s.bitcnt := BitVec.eq_of_toNat_eq (by rw [hn]; simpa using hle)
    subst this
    rw [if_neg (by simpa [walkBits] using hb)]
    simp [payloadBits, walkBits]
  | cons b c ih =>
    have hd := s.dlen.isLt
    simp only [payloadBits, payloadBit]
    simp only [List.length_cons] at hn
    by_cases hlt : s.bitcnt < s.dlen
    · rw [if_pos hlt, decBit_childOf ht hw hr b]
      rw [BitVec.lt_def] at hlt
      have hc : (s.bitcnt + 1#64).toNat = s.bitcnt.toNat + 1 := by
        rw [BitVec.toNat_add]; simp; omega
      have hk : n.toNat - s.bitcnt.toNat = n.toNat - (s.bitcnt.toNat + 1) + 1 := by omega
      rw [hk, List.take_succ_cons, List.drop_succ_cons]
      simp only [walkBits]
      cases hl : (readNode s.node (childOf s.node s.walk b).toNat).leaf with
      | true =>
        simp only [if_true, ne_eq, not_true_eq_false, and_false, if_false]
        rw [ih (s := { s with
          outs := s.outs ++ [(readNode s.node (childOf s.node s.walk b).toNat).sym]
          walk := s.root, bitcnt := s.bitcnt + 1#64 }) ht (Or.inl rfl) hr (by simp only [hc]; omega) (fun _ => rfl)
          (by simp only [hc]; omega)]
        simp only [hc, List.append_assoc, List.cons_append, List.nil_append]
      | false =>
        have hw' := (treeOfFreq_walk ht hw hr b).2.2.2 hl
        simp only [Bool.false_eq_true, if_false]
        by_cases hend : s.bitcnt + 1#64 = s.dlen ∧ childOf s.node s.walk b ≠ s.root
        · have hz := congrArg BitVec.toNat hend.1
          rw [hc] at hz
          have hnd : n = s.dlen := BitVec.eq_of_toNat_eq (by omega)
          have h0 : n.toNat - (s.bitcnt.toNat + 1) = 0 := by omega
          rw [if_pos hend, if_pos (Or.inl ⟨hnd, by rw [h0]; simpa [walkBits] using hend.2⟩)]
          rfl
        · rw [if_neg hend]
          have := ih (s := { s with walk := childOf s.node s.walk b, bitcnt := s.bitcnt + 1#64 }) ht hw' hr
            (by simp only [hc]; omega) (fun e => by by_contra h; exact hend ⟨e, h⟩) (by simp only [hc]; omega)
          simp only [hc] at this
          exact this
    · rw [if_neg hlt]
      rw [BitVec.lt_def] at hlt
      have hz : n.toNat - s.bitcnt.toNat = 0 := by omega
      have hnd : n = s.dlen := BitVec.eq_of_toNat_eq (by omega)
      have hwr : s.walk = s.root := hb (BitVec.eq_of_toNat_eq (by omega))
      cases b with
      | true => simp [hz, corrupt]
      | false =>
        simp only [Bool.false_eq_true, if_false]
        rw [ih ht hw hr hle hb (by omega), hz]
        simp

/-- Whatever was walked from the end of the turns `p` was the codes of what was emitted, and then the turns `q` to where the
walk now is (R163). -/
theorem payloadBits_walked {m : Memory Node} {L : Nat} {T X : HTree} (hT : T.Rep m L) (c : BitString) {s t : State}
    (hm : s.node = m) (hroot : s.root.toNat = T.idx) (hr : s.root.toNat < 511)
    (hnl : (readNode s.node s.root.toNat).leaf = false)
    (p : BitString) (hp : T.sub p = some X) (hX : s.walk.toNat = X.idx) (hXl : (readNode s.node X.idx).leaf = false)
    (hle : s.bitcnt.toNat ≤ s.dlen.toNat) (h : payloadBits c s = .ok t) :
    ∃ (es : List (Nat × BitString)) (q : BitString) (Y : HTree), (∀ e ∈ es, e ∈ T.codes) ∧
      t.outs = s.outs ++ es.map (fun e => (readNode s.node e.1).sym) ∧
      p ++ c.take (s.dlen.toNat - s.bitcnt.toNat) = es.flatMap Prod.snd ++ q ∧
      T.sub q = some Y ∧ t.walk.toNat = Y.idx := by
  induction c generalizing s p X with
  | nil => cases h; exact ⟨[], p, X, by simp, by simp, by simp, hp, hX⟩
  | cons b c ih =>
    have hd := s.dlen.isLt
    simp only [payloadBits] at h
    split at h
    · cases h
    · rename_i u hu
      unfold payloadBit at hu
      split at hu
      · rename_i hlt
        rw [BitVec.lt_def] at hlt
        have hc : (s.bitcnt + 1#64).toNat = s.bitcnt.toNat + 1 := by
          rw [BitVec.toNat_add]; simp; omega
        have htake : (b :: c).take (s.dlen.toNat - s.bitcnt.toNat) = b :: c.take (s.dlen.toNat - (s.bitcnt.toNat + 1)) := by
          rw [show s.dlen.toNat - s.bitcnt.toNat = s.dlen.toNat - (s.bitcnt.toNat + 1) + 1 by omega, List.take_succ_cons]
        rw [htake]
        obtain ⟨Y, hY, ⟨j, rfl, hdec⟩ | ⟨w, hw, hwl, hdec⟩⟩ := decBit_turn hT hm hroot hr hnl p hp hX hXl b
        · rw [hdec] at hu
          simp only at hu
          split at hu
          · cases hu
          · cases hu
            obtain ⟨es, q, Z, h1, h2, h3, h4, h5⟩ := ih (X := T) (p := [])
              (s := { s with walk := s.root, outs := s.outs ++ [(readNode s.node j).sym], bitcnt := s.bitcnt + 1#64 })
              hm hroot hr hnl T.sub_nil hroot (by rw [← hroot]; exact hnl) (by simp only [hc]; omega) h
            refine ⟨(j, p ++ [b]) :: es, q, Z, ?_, ?_, ?_, h4, h5⟩
            · intro e he
              rcases List.mem_cons.1 he with rfl | he
              · exact (T.mem_codes_iff _ _).2 hY
              · exact h1 e he
            · rw [h2]; simp
            · simp only [hc, List.nil_append] at h3
              rw [List.flatMap_cons, List.append_assoc, ← h3]
              simp
        · rw [hdec] at hu
          simp only at hu
          split at hu
          · cases hu
          · cases hu
            obtain ⟨es, q, Z, h1, h2, h3, h4, h5⟩ := ih (X := Y) (p := p ++ [b])
              (s := { s with walk := w, bitcnt := s.bitcnt + 1#64 })
              hm hroot hr hnl hY hw hwl (by simp only [hc]; omega) h
            refine ⟨es, q, Z, h1, h2, ?_, h4, h5⟩
            simp only [hc] at h3
            rw [← h3]
            simp
      · rename_i hlt
        rw [BitVec.lt_def] at hlt
        split at hu
        · cases hu
        · cases hu
          obtain ⟨es, q, Z, h1, h2, h3, h4, h5⟩ := ih hm hroot hr hnl p hp hX hXl hle h
          refine ⟨es, q, Z, h1, h2, ?_, h4, h5⟩
          rw [show s.dlen.toNat - s.bitcnt.toNat = 0 by omega] at h3 ⊢
          simpa using h3

end Sys2Proof.Machine
end

