-- ==== Sys2Proof/Laws/Runs.lean ====
section
/-!
SUPPORT. Several commands of one kind in a row (spec rules R69, R87): the count pass, the encode pass, the bytes of a header,
and the bytes of a payload, which are one string of payload bits.
-/
namespace Sys2Proof.Machine

open Sys2Proof.Safety

theorem runCommands_append (a b : List Instr) (s : State) :
    runCommands (a ++ b) s = match runCommands a s with
      | .next t => runCommands b t
      | .fault f => .fault f
      | .refused r => .refused r := by
  induction a generalizing s with
  | nil => rfl
  | cons i a ih =>
    simp only [List.cons_append, runCommands]
    split
    · exact ih _
    · rfl
    · rfl

theorem runCommands_cons {i : Instr} {is : List Instr} {s t : State} (h : exec i s = .next t) :
    runCommands (i :: is) s = runCommands is t := by
  rw [runCommands, h]

theorem runCommands_append_next {a b : List Instr} {s t : State} (h : runCommands a s = .next t) :
    runCommands (a ++ b) s = runCommands b t := by
  rw [runCommands_append, h]

/-- After a fault nothing but RST is carried out (R201). -/
theorem runCommands_faulted (is : List Instr) {s : State} (he : s.err ≠ .noFault) (h : ∀ i ∈ is, i ≠ .rst) :
    runCommands is s = .next s := by
  induction is with
  | nil => rfl
  | cons i is ih =>
    have : exec i s = .next s := by
      rw [exec_eq_execute _ (h i (by simp))]
      exact execute_ignored he
    rw [runCommands_cons this]
    exact ih fun j hj => h j (List.mem_cons_of_mem _ hj)

/-- The count pass (R110). -/
theorem runCommands_cnt (S : List Sym) (s : State) (he : s.err = .noFault) (hp : s.phase = .idle ∨ s.phase = .count)
    (hb : ∀ x : Sym, (readFreq s.freq x.toNat).toNat + S.count x < 2 ^ 32) :
    ∃ m, runCommands (S.map .cnt) s = .next { s with freq := m, phase := if S = [] then s.phase else .count } ∧
      ∀ x : Sym, (readFreq m x.toNat).toNat = (readFreq s.freq x.toNat).toNat + S.count x := by
  induction S generalizing s with
  | nil => exact ⟨s.freq, rfl, by simp⟩
  | cons y S ih =>
    have hy := hb y
    rw [List.count_cons_self] at hy
    have hne : readFreq s.freq y.toNat ≠ 0xFFFFFFFF#32 := by
      intro e
      rw [e] at hy
      simp at hy
      omega
    have hacc : accepts (.cnt y) s.phase = true := by rcases hp with hp | hp <;> rw [hp] <;> rfl
    have hex : exec (.cnt y) s = .next { s with
        freq := writeFreq s.freq y.toNat (readFreq s.freq y.toNat + 1#32), phase := .count } := by
      rw [exec_cnt]
      exact execute_ok he hacc (by simp only [cntRule]; rw [if_neg hne])
    have hread : ∀ x : Sym, (readFreq (writeFreq s.freq y.toNat (readFreq s.freq y.toNat + 1#32)) x.toNat).toNat =
        (readFreq s.freq x.toNat).toNat + [y].count x := by
      intro x
      rw [readFreq_writeFreq]
      by_cases hxy : x = y
      · subst hxy
        rw [if_pos rfl, BitVec.toNat_add]
        simp
        omega
      · rw [if_neg (fun e => hxy (BitVec.eq_of_toNat_eq e)), List.count_singleton, if_neg (by simpa using Ne.symm hxy)]
        rfl
    have hsplit : ∀ x : Sym, (y :: S).count x = [y].count x + S.count x := fun x => by
      rw [← List.count_append]; rfl
    obtain ⟨m, h1, h2⟩ := ih { s with
      freq := writeFreq s.freq y.toNat (readFreq s.freq y.toNat + 1#32), phase := .count } he (Or.inr rfl) (by
        intro x
        have := hb x
        rw [hsplit] at this
        simp only [hread]
        omega)
    refine ⟨m, ?_, fun x => ?_⟩
    · rw [List.map_cons, runCommands_cons hex, h1]
      simp
    · rw [h2, hread, hsplit]
      omega

/-- The encode pass (R142): every symbol has a code and the codes fit the declared length. -/
theorem runCommands_enc (S : List Sym) (s : State) (he : s.err = .noFault) (hp : s.phase = .encode) (hc : AccClean s)
    (hl : ∀ x ∈ S, (readCode s.code x).clen ≠ 0#8)
    (hb : s.bitcnt.toNat + (S.map fun x => (lookup s.code x).length).sum ≤ s.dlen.toNat) :
    ∃ a n o, runCommands (S.map .enc) s = .next { s with acc := a, bitcnt := n, outb := o } ∧ s.outb <+: o ∧
      n.toNat = s.bitcnt.toNat + (S.map fun x => (lookup s.code x).length).sum ∧
      packedBits { s with acc := a, bitcnt := n, outb := o } = packedBits s ++ S.flatMap (lookup s.code) ∧
      AccClean { s with acc := a, bitcnt := n, outb := o } := by
  induction S generalizing s with
  | nil => exact ⟨s.acc, s.bitcnt, s.outb, rfl, List.prefix_rfl, by simp, by simp, hc⟩
  | cons y S ih =>
    have hd := s.dlen.isLt
    simp only [List.map_cons, List.sum_cons] at hb ⊢
    have hne : (readCode s.code y).clen.toNat ≠ 0 := fun e => hl y (by simp) (BitVec.eq_of_toNat_eq e)
    obtain ⟨a, n, o, h, ho⟩ := putBits_frame (lookup s.code y) s
    obtain ⟨p1, p2, p3⟩ := putBits_packed (lookup s.code y) s hc (by omega)
    rw [h] at p1 p2 p3
    have hex : exec (.enc y) s = .next { s with acc := a, bitcnt := n, outb := o } := by
      rw [exec_enc]
      refine execute_ok he (by simp [accepts, hp]) ?_
      simp only [encRule]
      rw [if_neg hne, if_neg (by rw [← length_lookup]; omega), h]
    obtain ⟨a', n', o', h1, h2, h3, h4, h5⟩ := ih { s with acc := a, bitcnt := n, outb := o } he hp p3
      (fun x hx => hl x (List.mem_cons_of_mem _ hx)) (by simp only at p1 ⊢; omega)
    simp only at p1
    refine ⟨a', n', o', ?_, ho.trans h2, ?_, ?_, h5⟩
    · rw [runCommands_cons hex, h1]
    · rw [h3]; simp only; omega
    · rw [h4, p2]; simp

/-- A shifted-in byte as arithmetic (R13, R161). -/
theorem shiftIn_toNat {n : Nat} (hn : 8 ≤ n) (v : BitVec n) (b : Byte) :
    (shiftIn v b).toNat = (256 * v.toNat + b.toNat) % 2 ^ n := by
  have hb := b.isLt
  have h8 : (2 : Nat) ^ 8 ≤ 2 ^ n := Nat.pow_le_pow_right (by decide) hn
  have e : 2 ^ n = 2 ^ (n - 8) * 256 := by
    rw [show (256 : Nat) = 2 ^ 8 by rfl, ← Nat.pow_add]; congr 1; omega
  have e2 : v.toNat * 2 ^ 8 % 2 ^ n = (v.toNat % 2 ^ (n - 8)) <<< 8 := by
    rw [Nat.shiftLeft_eq, e, show (2 : Nat) ^ 8 = 256 by rfl, Nat.mul_mod_mul_right]
  have hm := Nat.mod_lt v.toNat (Nat.two_pow_pos (n - 8))
  unfold shiftIn
  rw [BitVec.toNat_or, BitVec.toNat_shiftLeft, BitVec.toNat_setWidth, Nat.mod_eq_of_lt (by omega : b.toNat < 2 ^ n),
    Nat.shiftLeft_eq, e2, ← Nat.shiftLeft_add_eq_or_of_lt (by omega : b.toNat < 2 ^ 8), Nat.shiftLeft_eq, e]
  generalize 2 ^ (n - 8) = M at *
  have hd := Nat.div_add_mod v.toNat M
  have : 256 * v.toNat + b.toNat = (v.toNat % M * 2 ^ 8 + b.toNat) + (M * 256) * (v.toNat / M) := by
    rw [show M * 256 * (v.toNat / M) = 256 * (M * (v.toNat / M)) by ring]; omega
  rw [this, Nat.add_mul_mod_self_left, Nat.mod_eq_of_lt (a := v.toNat % M * 2 ^ 8 + b.toNat) (by omega)]

/-- Shifting in the big-endian bytes of a field puts its low bytes below what was there (R64, R161). -/
theorem foldl_shiftIn_bigEndian {n w : Nat} (hn : 8 ≤ n) (k : Nat) (x : BitVec w) (v : BitVec n) :
    ((bigEndian k x).foldl shiftIn v).toNat = (v.toNat * 256 ^ k + x.toNat % 256 ^ k) % 2 ^ n := by
  induction k generalizing v with
  | zero =>
    have := v.isLt
    simp [bigEndian, Nat.mod_one, Nat.mod_eq_of_lt this]
  | succ k ih =>
    simp only [bigEndian, List.foldl_cons]
    rw [ih, shiftIn_toNat hn, BitVec.extractLsb'_toNat, Nat.shiftRight_eq_div_pow,
      show (2 : Nat) ^ (8 * k) = 256 ^ k by rw [Nat.pow_mul], show (2 : Nat) ^ 8 = 256 by rfl, Nat.add_mod,
      Nat.mod_mul_mod, ← Nat.add_mod, Nat.pow_succ, Nat.mod_mul]
    congr 1
    ring

theorem length_bigEndian {w : Nat} (k : Nat) (x : BitVec w) : (bigEndian k x).length = k := by
  induction k with
  | zero => rfl
  | succ k ih => simp [bigEndian, ih]

/-- A header byte that is taken (R160, R161). -/
theorem exec_headerByte {s t : State} {b : Byte} (he : s.err = .noFault) (hp : s.phase = .idle ∨ s.phase = .dhdr)
    (h : headerByte b s = .ok t) : exec (.dbyte b) s = .next t := by
  rw [exec_dbyte]
  rcases hp with hp | hp
  · exact execute_ok he (by rw [hp]; rfl) (by unfold dbyteRule; rw [hp]; exact h)
  · exact execute_ok he (by rw [hp]; rfl) (by unfold dbyteRule; rw [hp]; exact h)

/-- The length bytes before the last (R161 item 4). -/
theorem runCommands_length (bs : List Byte) (s : State) (he : s.err = .noFault) (hp : s.phase = .dhdr)
    (h6 : 6 + 5 * s.hn.toNat ≤ s.hcnt.toNat) (hk : s.hcnt.toNat + bs.length ≤ 13 + 5 * s.hn.toNat)
    (hn : s.hn.toNat ≤ 256) :
    ∃ k : BitVec 11, k.toNat = s.hcnt.toNat + bs.length ∧
      runCommands (bs.map .dbyte) s = .next { s with hshift := bs.foldl shiftIn s.hshift, hcnt := k } := by
  induction bs generalizing s with
  | nil => exact ⟨s.hcnt, rfl, rfl⟩
  | cons b bs ih =>
    simp only [List.length_cons] at hk
    have hc : (s.hcnt + 1#11).toNat = s.hcnt.toNat + 1 := by
      rw [BitVec.toNat_add]; simp; omega
    have hex : exec (.dbyte b) s = .next { s with hshift := shiftIn s.hshift b, hcnt := s.hcnt + 1#11 } := by
      refine exec_headerByte he (Or.inr hp) ?_
      rw [headerByte, if_neg (by omega), if_neg (by omega), if_neg (by omega), lengthByte, if_pos (by omega)]
      simp [headerTaken, hp]
    obtain ⟨k, h1, h2⟩ := ih { s with hshift := shiftIn s.hshift b, hcnt := s.hcnt + 1#11 } he hp
      (by simp only [hc]; omega) (by simp only [hc]; omega) hn
    refine ⟨k, by rw [h1]; simp only [hc, List.length_cons]; omega, ?_⟩
    rw [List.map_cons, runCommands_cons hex, h2]
    rfl

/-- The five bytes of one pair (R161 item 3). -/
theorem runCommands_pair (x : Sym) (c : Count) (j : Nat) (s : State) (he : s.err = .noFault) (hp : s.phase = .dhdr)
    (hj : s.hcnt.toNat = 6 + 5 * j) (hjn : j < s.hn.toNat) (hn : s.hn.toNat ≤ 256) (hs : s.hshift = 0#64)
    (hx : j = 0 ∨ s.hsym < x) (hc0 : c ≠ 0#32) :
    ∃ k : BitVec 11, k.toNat = 6 + 5 * (j + 1) ∧
      runCommands ((x :: bigEndian 4 c).map .dbyte) s =
        .next { s with hsym := x, freq := writeFreq s.freq x.toNat c, hcnt := k } := by
  have hadd : ∀ i : Nat, i ≤ 5 → (s.hcnt + BitVec.ofNat 11 i).toNat = 6 + 5 * j + i := by
    intro i hi
    rw [BitVec.toNat_add, BitVec.toNat_ofNat, hj]; omega
  have hstep : ∀ i : Nat, s.hcnt + BitVec.ofNat 11 i + 1#11 = s.hcnt + BitVec.ofNat 11 (i + 1) := by
    intro i
    rw [BitVec.add_assoc]
    congr 1
    apply BitVec.eq_of_toNat_eq
    simp
  -- the three middle bytes
  have hmid : ∀ (b : Byte) (v : BitLen) (i : Nat), 1 ≤ i → i ≤ 3 →
      exec (.dbyte b) { s with hsym := x, hshift := v, hcnt := s.hcnt + BitVec.ofNat 11 i } =
        .next { s with hsym := x, hshift := shiftIn v b, hcnt := s.hcnt + BitVec.ofNat 11 (i + 1) } := by
    intro b v i h1 h3
    refine exec_headerByte he (Or.inr hp) ?_
    have ha := hadd i (by omega)
    rw [headerByte, if_neg (by simp only [ha]; omega), if_neg (by simp only [ha]; omega),
      if_pos (by simp only [ha]; omega), pairByte, if_neg (by simp only [ha]; omega), if_pos (by simp only [ha]; omega)]
    simp only [headerTaken, hstep, hp]
  have hfirst : exec (.dbyte x) s = .next { s with hsym := x, hshift := 0#64, hcnt := s.hcnt + BitVec.ofNat 11 1 } := by
    refine exec_headerByte he (Or.inr hp) ?_
    rw [headerByte, if_neg (by omega), if_neg (by omega), if_pos (by omega), pairByte, if_pos (by omega), if_neg]
    · simp only [headerTaken, hp, hs]
    · rintro ⟨h0, hle⟩
      rcases hx with hx | hx
      · omega
      · rw [BitVec.le_def] at hle
        rw [BitVec.lt_def] at hx
        omega
  have hval := foldl_shiftIn_bigEndian (n := 64) (by omega) 4 c (0#64)
  have hlast : exec (.dbyte (c.extractLsb' (8 * 0) 8)) { s with
        hsym := x
        hshift := shiftIn (shiftIn (shiftIn 0#64 (c.extractLsb' (8 * 3) 8)) (c.extractLsb' (8 * 2) 8)) (c.extractLsb' (8 * 1) 8)
        hcnt := s.hcnt + BitVec.ofNat 11 4 } =
      .next { s with hsym := x, freq := writeFreq s.freq x.toNat c, hcnt := s.hcnt + BitVec.ofNat 11 5 } := by
    refine exec_headerByte he (Or.inr hp) ?_
    have ha := hadd 4 (by omega)
    have hc : (shiftIn (shiftIn (shiftIn (shiftIn 0#64 (c.extractLsb' (8 * 3) 8)) (c.extractLsb' (8 * 2) 8))
        (c.extractLsb' (8 * 1) 8)) (c.extractLsb' (8 * 0) 8)).setWidth 32 = c := by
      apply BitVec.eq_of_toNat_eq
      rw [BitVec.toNat_setWidth]
      have := c.isLt
      simp only [bigEndian, List.foldl_cons, List.foldl_nil, BitVec.toNat_ofNat, Nat.zero_mod, Nat.zero_mul,
        Nat.zero_add] at hval
      rw [hval]
      omega
    rw [headerByte, if_neg (by simp only [ha]; omega), if_neg (by simp only [ha]; omega),
      if_pos (by simp only [ha]; omega), pairByte, if_neg (by simp only [ha]; omega), if_neg (by simp only [ha]; omega)]
    simp only [hc]
    rw [if_neg hc0]
    simp only [headerTaken, hstep, hp, hs]
  refine ⟨s.hcnt + BitVec.ofNat 11 5, by rw [hadd 5 (by omega)]; omega, ?_⟩
  simp only [bigEndian, List.map_cons, List.map_nil]
  rw [runCommands_cons hfirst, runCommands_cons (hmid _ _ 1 (by omega) (by omega)),
    runCommands_cons (hmid _ _ 2 (by omega) (by omega)), runCommands_cons (hmid _ _ 3 (by omega) (by omega)),
    runCommands_cons hlast]
  rfl

/-- The table a list of pairs leaves. -/
def writePairs (freq : Memory Count) (l : List Nat) (m : Memory Count) : Memory Count :=
  l.foldl (fun m i => writeFreq m i (readFreq freq i)) m

theorem readFreq_writePairs (freq : Memory Count) (l : List Nat) (m : Memory Count) (i : Nat) :
    readFreq (writePairs freq l m) i = if i ∈ l then readFreq freq i else readFreq m i := by
  induction l generalizing m with
  | nil => simp [writePairs]
  | cons a l ih =>
    rw [show writePairs freq (a :: l) m = writePairs freq l (writeFreq m a (readFreq freq a)) from rfl, ih, readFreq_writeFreq]
    by_cases h : i = a
    · subst h; simp
    · simp [h]

/-- All pairs of an ascending list of present symbols (R161 item 3). -/
theorem runCommands_pairs (freq : Memory Count) (l : List Nat) (j : Nat) (s : State) (hl : l.Pairwise (· < ·))
    (h256 : ∀ i ∈ l, i < 256 ∧ readFreq freq i ≠ 0#32) (he : s.err = .noFault) (hp : s.phase = .dhdr)
    (hj : s.hcnt.toNat = 6 + 5 * j) (hn : s.hn.toNat = j + l.length) (hn256 : s.hn.toNat ≤ 256) (hs : s.hshift = 0#64)
    (hx : j = 0 ∨ ∀ i ∈ l, s.hsym.toNat < i) :
    ∃ (k : BitVec 11) (y : Sym), k.toNat = 6 + 5 * (j + l.length) ∧
      runCommands ((l.flatMap (pairBytes freq)).map .dbyte) s =
        .next { s with hsym := y, freq := writePairs freq l s.freq, hcnt := k } := by
  induction l generalizing j s with
  | nil => exact ⟨s.hcnt, s.hsym, by simpa using hj, rfl⟩
  | cons a l ih =>
    obtain ⟨ha, hne⟩ := h256 a (by simp)
    simp only [List.length_cons] at hn
    have hb : pairBytes freq a = symOf a :: bigEndian 4 (readFreq freq a) := by simp [pairBytes, hne]
    obtain ⟨k, h1, h2⟩ := runCommands_pair (symOf a) (readFreq freq a) j s he hp hj (by omega) hn256 hs
      (hx.imp id fun h => by rw [BitVec.lt_def, toNat_symOf ha]; exact h a (by simp)) hne
    rw [toNat_symOf ha] at h2
    obtain ⟨k', y, h3, h4⟩ := ih (j + 1) { s with hsym := symOf a, freq := writeFreq s.freq a (readFreq freq a), hcnt := k }
      (List.pairwise_cons.1 hl).2 (fun i hi => h256 i (List.mem_cons_of_mem _ hi)) he hp h1 (by simp only; omega) hn256 hs
      (Or.inr fun i hi => by rw [toNat_symOf ha]; exact (List.pairwise_cons.1 hl).1 i hi)
    refine ⟨k', y, by rw [h3, List.length_cons]; omega, ?_⟩
    rw [List.flatMap_cons, hb, List.map_append, runCommands_append_next h2, h4]
    rfl

theorem flatMap_pairBytes (freq : Memory Count) :
    allSymbols.flatMap (pairBytes freq) = (present freq).flatMap (pairBytes freq) := by
  unfold present
  induction allSymbols with
  | nil => rfl
  | cons a l ih =>
    by_cases h : readFreq freq a = 0#32
    · simp [h, ih, pairBytes]
    · simp [h, ih]

/-- A whole header, from the start of a call, up to its last byte (R161). -/
theorem runCommands_header (freq : Memory Count) (nleaf : BitVec 9) (dlen : BitLen) (s : State)
    (hn : nleaf.toNat = presentCount freq) (he : s.err = .noFault) (hp : s.phase = .idle) (hk : s.hcnt = 0#11)
    (hh : s.hn = 0#16) (hs : s.hshift = 0#64) (hd : presentCount freq ≠ 0 ∨ dlen = 0#64)
    (hf : ∀ i, readFreq s.freq i = 0#32) :
    ∃ (m : Memory Count) (k : BitVec 11) (n : BitVec 16) (y : Sym), (∀ i, i < 256 → readFreq m i = readFreq freq i) ∧
      runCommands ((headerBytes nleaf freq dlen).map .dbyte) s =
        .next { buildTree { s with freq := m } with
          dlen := dlen, bitcnt := 0#64, hcnt := k, hn := n, hsym := y, phase := if dlen = 0#64 then .dtail else .dpay } := by
  have hle := present_length_le freq
  rw [presentCount_eq] at hn hd
  -- magic and size
  have h1 : runCommands (Config.magic.map .dbyte) s = .next { s with hcnt := 4#11, phase := .dhdr } := by
    have hm : ∀ (i : Nat) (b : Byte) (p : Phase), i < 4 → Config.magic[i]? = some b → (p = .idle ∨ p = .dhdr) →
        exec (.dbyte b) { s with hcnt := BitVec.ofNat 11 i, phase := p } =
          .next { s with hcnt := BitVec.ofNat 11 (i + 1), phase := .dhdr } := by
      intro i b p hi hb hpp
      refine exec_headerByte he hpp ?_
      have hv : (BitVec.ofNat 11 i).toNat = i := by rw [BitVec.toNat_ofNat]; omega
      rw [headerByte, if_pos (by simp only [hv]; omega), magicByte, if_pos (by simp only [hv]; exact hb)]
      simp only [headerTaken]
      congr 2
      apply BitVec.eq_of_toNat_eq
      simp
    have h0 : s = { s with hcnt := BitVec.ofNat 11 0, phase := .idle } := by
      rw [show BitVec.ofNat 11 0 = s.hcnt by rw [hk], ← hp]
    rw [h0]
    simp only [Config.magic, List.map_cons, List.map_nil]
    rw [runCommands_cons (hm 0 _ _ (by omega) rfl (Or.inl rfl)), runCommands_cons (hm 1 _ _ (by omega) rfl (Or.inr rfl)),
      runCommands_cons (hm 2 _ _ (by omega) rfl (Or.inr rfl)), runCommands_cons (hm 3 _ _ (by omega) rfl (Or.inr rfl))]
    rfl
  have h2 : ∃ n : BitVec 16, n.toNat = (present freq).length ∧
      runCommands ((bigEndian 2 (nleaf.setWidth 16)).map .dbyte) { s with hcnt := 4#11, phase := .dhdr } =
        .next { s with hn := n, hcnt := 6#11, phase := .dhdr } := by
    have hval := foldl_shiftIn_bigEndian (n := 16) (by omega) 2 (nleaf.setWidth 16) (0#16)
    simp only [bigEndian, List.foldl_cons, List.foldl_nil, BitVec.toNat_ofNat, Nat.zero_mod, Nat.zero_mul, Nat.zero_add,
      BitVec.toNat_setWidth] at hval
    have hfinal : (shiftIn (shiftIn 0#16 ((nleaf.setWidth 16).extractLsb' (8 * 1) 8))
        ((nleaf.setWidth 16).extractLsb' (8 * 0) 8)).toNat = (present freq).length := by
      rw [hval]; omega
    refine ⟨_, hfinal, ?_⟩
    have e1 : exec (.dbyte ((nleaf.setWidth 16).extractLsb' (8 * 1) 8)) { s with hcnt := 4#11, phase := .dhdr } =
        .next { s with
          hn := shiftIn 0#16 ((nleaf.setWidth 16).extractLsb' (8 * 1) 8), hcnt := 5#11, phase := .dhdr } := by
      refine exec_headerByte he (Or.inr rfl) ?_
      rw [headerByte, if_neg (by simp), if_pos (by simp), sizeByte, if_neg (by simp)]
      simp only [headerTaken, hh]
      rfl
    have e2 : exec (.dbyte ((nleaf.setWidth 16).extractLsb' (8 * 0) 8)) { s with
          hn := shiftIn 0#16 ((nleaf.setWidth 16).extractLsb' (8 * 1) 8), hcnt := 5#11, phase := .dhdr } =
        .next { s with
          hn := shiftIn (shiftIn 0#16 ((nleaf.setWidth 16).extractLsb' (8 * 1) 8))
            ((nleaf.setWidth 16).extractLsb' (8 * 0) 8)
          hcnt := 6#11, phase := .dhdr } := by
      refine exec_headerByte he (Or.inr rfl) ?_
      rw [headerByte, if_neg (by simp), if_pos (by simp), sizeByte, if_neg (by simp only; omega)]
      simp only [headerTaken]
      rfl
    simp only [bigEndian, List.map_cons, List.map_nil]
    rw [runCommands_cons e1, runCommands_cons e2]
    rfl
  obtain ⟨n, hnn, h2⟩ := h2
  obtain ⟨k, y, hk3, h3⟩ := runCommands_pairs freq (present freq) 0 { s with hn := n, hcnt := 6#11, phase := .dhdr }
    (present_sorted freq) (fun i hi => mem_present.1 hi) he rfl (by simp) (by simp only [hnn]; omega)
    (by simp only [hnn]; exact hle) hs (Or.inl rfl)
  simp only [Nat.zero_add] at hk3
  -- the length: seven bytes, then the last
  obtain ⟨bs, b, hbs, hlen⟩ : ∃ bs b, bigEndian 8 dlen = bs ++ [b] ∧ bs.length = 7 :=
    ⟨[_, _, _, _, _, _, _], _, rfl, rfl⟩
  obtain ⟨k4, hk4, h4⟩ := runCommands_length bs
    { s with hn := n, hcnt := k, phase := .dhdr, hsym := y, freq := writePairs freq (present freq) s.freq } he rfl
    (by simp only [hk3, hnn]; omega) (by simp only [hk3, hnn, hlen]; omega) (by simp only [hnn]; exact hle)
  have hv : shiftIn (bs.foldl shiftIn s.hshift) b = dlen := by
    have := foldl_shiftIn_bigEndian (n := 64) (by omega) 8 dlen s.hshift
    rw [hbs, List.foldl_append, hs] at this
    rw [hs]
    apply BitVec.eq_of_toNat_eq
    have hlt := dlen.isLt
    simp only [List.foldl_cons, List.foldl_nil] at this
    rw [this]
    simp
    omega
  have hm : ∀ i, i < 256 → readFreq (writePairs freq (present freq) s.freq) i = readFreq freq i := by
    intro i hi
    rw [readFreq_writePairs]
    split
    · rfl
    · rename_i h
      rw [hf]
      by_contra hne
      exact h (mem_present.2 ⟨hi, fun e => hne e.symm⟩)
  refine ⟨writePairs freq (present freq) s.freq, k4 + 1#11, n, y, hm, ?_⟩
  have h5 : exec (.dbyte b) { s with
        hn := n, hcnt := k4, phase := .dhdr, hsym := y, freq := writePairs freq (present freq) s.freq
        hshift := bs.foldl shiftIn s.hshift } =
      .next { buildTree { s with freq := writePairs freq (present freq) s.freq } with
          dlen := dlen, bitcnt := 0#64, hcnt := k4 + 1#11, hn := n, hsym := y
          phase := if dlen = 0#64 then .dtail else .dpay } := by
    refine exec_headerByte he (Or.inr rfl) ?_
    rw [hlen, hk3] at hk4
    rw [headerByte, if_neg (by simp only [hk4]; omega), if_neg (by simp only [hk4]; omega),
      if_neg (by simp only [hk4, hnn]; omega), lengthByte, if_neg (by simp only [hk4, hnn]; omega)]
    simp only [hv, headerEnd]
    rw [if_neg]
    · simp only [buildTree, hs]
    · rintro ⟨h0, h1⟩
      rcases hd with hd | hd
      · apply hd
        have := congrArg BitVec.toNat h0
        simp only [buildTree, (placeLeaves_spec _ _).1, present_congr hm, BitVec.toNat_ofNat] at this
        omega
      · exact h1 hd
  simp only [headerBytes, List.map_append]
  rw [flatMap_pairBytes, List.append_assoc, List.append_assoc, runCommands_append_next h1, runCommands_append_next h2,
    runCommands_append_next h3, hbs, List.map_append, runCommands_append_next h4]
  exact runCommands_cons h5

/-- A payload byte is its eight bits, and then the phase (R164). -/
theorem exec_payloadByte {s : State} (b : Byte) (he : s.err = .noFault) (hp : s.phase = .dpay) :
    exec (.dbyte b) s = match payloadBits (bitsOf b) s with
      | .ok t => .next (if t.bitcnt = t.dlen then { t with phase := .dtail } else t)
      | .error (.raised e) => .next { s with err := e, einfo := encode (.dbyte b) }
      | .error (.stopped f) => .fault f := by
  rw [exec_dbyte, execute, if_pos he, if_pos (by rw [hp]; rfl)]
  simp only [dbyteRule, hp, payloadByte]
  split
  · rename_i h; split at h <;> cases h; simp [*]
  · rename_i h; split at h <;> cases h; simp [*, raise]
  · rename_i h; split at h <;> cases h; simp [*]

/-- Exactly the bytes of the declared bits: one string of bits, after which the payload is complete (R164, R166). -/
theorem runCommands_payload (bs : List Byte) (s : State) (he : s.err = .noFault) (hp : s.phase = .dpay)
    (hlt : s.bitcnt.toNat < s.dlen.toNat) (h8 : s.bitcnt.toNat % 8 = 0)
    (hlen : bs.length = (s.dlen.toNat - s.bitcnt.toNat + 7) / 8) :
    (∀ t, payloadBits (bs.flatMap bitsOf) s = .ok t → runCommands (bs.map .dbyte) s = .next { t with phase := .dtail }) ∧
    ∀ t, runCommands (bs.map .dbyte) s = .next t → t.err = .noFault →
      ∃ u, payloadBits (bs.flatMap bitsOf) s = .ok u ∧ t = { u with phase := .dtail } := by
  induction bs generalizing s with
  | nil => simp at hlen; omega
  | cons b bs ih =>
    simp only [List.length_cons] at hlen
    rw [List.flatMap_cons, payloadBits_append, List.map_cons, runCommands, exec_payloadByte b he hp]
    cases hb : payloadBits (bitsOf b) s with
    | error h =>
      refine ⟨fun t ht => (by cases ht), fun t ht hterr => ?_⟩
      exfalso
      rcases payloadBits_error hb with rfl | rfl
      · simp only at ht
        rw [runCommands_faulted _ (by simp) (by simp)] at ht
        cases ht
        cases hterr
      · cases ht
    | ok u =>
      obtain ⟨h1, _, _⟩ := payloadBits_taken _ hb (by omega) (by intro e; rw [e] at hlt; omega)
      obtain ⟨w, o, n, rfl, _⟩ := payloadBits_ok hb
      simp only [show (bitsOf b).length = 8 from rfl] at h1
      simp only
      by_cases hn : n = s.dlen
      · rw [if_pos hn]
        rw [hn] at h1
        have : bs = [] := List.eq_nil_of_length_eq_zero (by omega)
        subst this
        simp only [List.flatMap_nil, List.map_nil, payloadBits, runCommands]
        exact ⟨fun t ht => by cases ht; rfl, fun t ht _ => by cases ht; exact ⟨_, rfl, rfl⟩⟩
      · rw [if_neg hn]
        have hne : n.toNat ≠ s.dlen.toNat := fun e => hn (BitVec.eq_of_toNat_eq e)
        exact ih { s with walk := w, outs := o, bitcnt := n } he hp (by simp only; omega) (by simp only; omega)
          (by simp only; omega)

/-- Payload bytes, and bytes after the payload, raise nothing but CorruptArtifact (R164, R167). -/
theorem runCommands_payload_err (bs : List Byte) {s t : State} (he : s.err = .noFault ∨ s.err = .corruptArtifact)
    (hp : s.phase = .dpay ∨ s.phase = .dtail) (h : runCommands (bs.map .dbyte) s = .next t) :
    t.err = .noFault ∨ t.err = .corruptArtifact := by
  induction bs generalizing s with
  | nil => cases h; exact he
  | cons b bs ih =>
    rw [List.map_cons, runCommands] at h
    split at h
    · rename_i u hu
      have ha : accepts (.dbyte b) s.phase = true := by rcases hp with hp | hp <;> rw [hp] <;> rfl
      rw [exec_dbyte] at hu
      rcases execute_cases hu with ⟨_, rfl⟩ | ⟨_, hn, _⟩ | ⟨hs, _, hr⟩ | ⟨e, _, _, hr, rfl⟩
      · exact ih he hp h
      · rw [ha] at hn; cases hn
      · unfold dbyteRule at hr
        rcases hp with hp | hp <;> simp only [hp] at hr
        · obtain ⟨w, o, n, p, rfl, _, hph⟩ := payloadByte_ok hr
          refine ih ?_ ?_ h
          · exact Or.inl hs
          · exact hph.imp (fun e => e.trans hp) id
        · cases hr
      · rcases dbyteRule_error ha hr with e' | e'
        · cases e'
          refine ih ?_ ?_ h
          · exact Or.inr rfl
          · exact hp
        · cases e'
    · cases h
    · cases h

end Sys2Proof.Machine
end

