-- ==== Sys2Proof/Laws/Step.lean ====
section
/-!
SUPPORT. Everything one step can do, said once (spec rules R62, R84, R100, R201, R220): an invariant that every step keeps is
proved by these cases.
-/
namespace Sys2Proof.Machine

/-- Taking the host's oldest event, the step serves it; with nothing presented the block waits. -/
theorem step_cases {s t : State} (h : step s = .next t) :
    t = s ∨
    (∃ rest v, t = { s with host := rest, statData := v }) ∨
    (∃ rest, t = { State.reset with host := rest }) ∨
    (∃ rest w, s.err = .noFault ∧ t = { s with host := rest, err := .illegalCommand, einfo := w }) ∨
    ∃ rest i, exec i { s with host := rest } = .next t := by
  unfold step at h
  split at h
  · cases h; exact Or.inl rfl
  · rename_i e rest _
    cases e with
    | command w =>
      simp only [serve, presentWord] at h
      split at h
      · exact Or.inr (Or.inr (Or.inr (Or.inr ⟨rest, _, h⟩)))
      · cases h
        unfold illegalWord
        split
        · rename_i he
          exact Or.inr (Or.inr (Or.inr (Or.inl ⟨rest, w, he, rfl⟩)))
        · exact Or.inr (Or.inl ⟨rest, s.statData, rfl⟩)
    | statRead a => cases h; exact Or.inr (Or.inl ⟨rest, _, rfl⟩)
    | hardReset => cases h; exact Or.inr (Or.inr (Or.inl ⟨rest, rfl⟩))

/-- A step answers a next state if every command it may carry out does. -/
theorem step_next {s : State} (h : ∀ i rest, ∃ t, exec i { s with host := rest } = .next t) : ∃ t, step s = .next t := by
  unfold step
  split
  · exact ⟨_, rfl⟩
  · rename_i e rest _
    cases e with
    | command w =>
      simp only [serve, presentWord]
      split
      · exact h _ _
      · exact ⟨_, rfl⟩
    | statRead a => exact ⟨_, rfl⟩
    | hardReset => exact ⟨_, rfl⟩

end Sys2Proof.Machine
end

