-- ==== Sys2Proof/Machine/Assembler.lean ====
section
/-!
DEFINITION. The assembler text of spec rule R86 and the two pseudo-instructions of R87: from characters to commands. Text that
is not of that form stands for no command (log entries 18 and 19).
-/
namespace Sys2Proof.Machine

/-- The pieces of a line. -/
inductive Token where
  | word (cs : List Char)
  | quoted (c : Char)
  | comma
  deriving DecidableEq, Repr

/-- The value of a digit below `base`. -/
def digitOf (base : Nat) (c : Char) : Option Nat :=
  let n := c.toNat
  let v :=
    if 48 ≤ n ∧ n ≤ 57 then n - 48
    else if 65 ≤ n ∧ n ≤ 70 then n - 55
    else if 97 ≤ n ∧ n ≤ 102 then n - 87
    else base
  if v < base then some v else none

/-- The value of digits after the value `n`. -/
def digitsOf (base : Nat) : Nat → List Char → Option Nat
  | n, [] => some n
  | n, c :: cs =>
    match digitOf base c with
    | none => none
    | some d => digitsOf base (base * n + d) cs

/-- A hex number `0x..`, or bare digits in the given base (R86). -/
def numberOf (base : Nat) : List Char → Option Nat
  | [] => none
  | '0' :: 'x' :: c :: cs => digitsOf 16 0 (c :: cs)
  | cs => digitsOf base 0 cs

/-- The value of an operand: a number, or a character in quotes, which stands for its ASCII code (R86). -/
def operandOf (base : Nat) : Token → Option Nat
  | .word cs => numberOf base cs
  | .quoted c => if c.toNat < 128 then some c.toNat else none
  | .comma => none

/-- The token of the characters gathered so far, if there are any. -/
def endWord (cs : List Char) : List Token := if cs = [] then [] else [.word cs]

/-- The tokens of a line, after the characters `w` of the word being read; `;` starts a comment (R86). -/
def tokens : List Char → List Char → List Token
  | w, [] => endWord w
  | w, ';' :: _ => endWord w
  | w, ',' :: cs => endWord w ++ .comma :: tokens [] cs
  | w, '\'' :: c :: '\'' :: cs => endWord w ++ .quoted c :: tokens [] cs
  | w, c :: cs => if c = ' ' ∨ c = '\t' ∨ c = '\r' then endWord w ++ tokens [] cs else tokens (w ++ [c]) cs

/-- The bytes of a row of operands, bare digits in the given base. -/
def bytesOf (base : Nat) : List Token → Option (List Byte)
  | [] => some []
  | o :: os =>
    match operandOf base o, bytesOf base os with
    | some n, some bs => if n < 256 then some (BitVec.ofNat 8 n :: bs) else none
    | _, _ => none

/-- One operand of one bit. -/
def bitOf (o : Token) : Option (BitVec 1) :=
  match operandOf 10 o with
  | some n => if n < 2 then some (BitVec.ofNat 1 n) else none
  | none => none

/-- A command without operand. -/
def plainLine (i : Instr) (ts : List Token) : Option (List Instr) := if ts = [] then some [i] else none

/-- A command with one 8-bit operand (R82). -/
def byteLine (f : Byte → Instr) (ts : List Token) : Option (List Instr) :=
  match bytesOf 10 ts with
  | some [b] => some [f b]
  | _ => none

/-- CFG and its one-bit operand (R82, R103). -/
def cfgLine : List Token → Option (List Instr)
  | [o] => (bitOf o).map fun imm => [.cfg imm]
  | _ => none

/-- `COMPRESS p, s0 s1 ..` (R87). DESIGN CHOICE, log entry 19: R87 gives its operands no numeral form, and they are read in the
forms of R86, bare digits as decimal. -/
def compressLine : List Token → Option (List Instr)
  | o :: .comma :: ts =>
    match bitOf o, bytesOf 10 ts with
    | some p, some syms => some (Instr.compress p syms)
    | _, _ => none
  | _ => none

/-- `DECOMPRESS b0 b1 ..` (R87). DESIGN CHOICE, log entry 19: R87 gives its bytes no numeral form, and bare digits are read as
hex, as 95_test_vectors.md writes byte sequences and this very line (P3c). -/
def decompressLine (ts : List Token) : Option (List Instr) := (bytesOf 16 ts).map Instr.decompress

/-- The commands of a mnemonic and its operands (R83, R86, R87). -/
def mnemonicLine (m : List Char) (ts : List Token) : Option (List Instr) :=
  if m = ['N', 'O', 'P'] then plainLine .nop ts
  else if m = ['R', 'S', 'T'] then plainLine .rst ts
  else if m = ['C', 'F', 'G'] then cfgLine ts
  else if m = ['C', 'N', 'T'] then byteLine .cnt ts
  else if m = ['B', 'U', 'I', 'L', 'D'] then plainLine .build ts
  else if m = ['G', 'E', 'N'] then plainLine .gen ts
  else if m = ['E', 'M', 'I', 'T', 'H'] then plainLine .emith ts
  else if m = ['E', 'N', 'C'] then byteLine .enc ts
  else if m = ['F', 'L', 'U', 'S', 'H'] then plainLine .flush ts
  else if m = ['D', 'B', 'Y', 'T', 'E'] then byteLine .dbyte ts
  else if m = ['D', 'E', 'N', 'D'] then plainLine .dend ts
  else if m = ['C', 'O', 'M', 'P', 'R', 'E', 'S', 'S'] then compressLine ts
  else if m = ['D', 'E', 'C', 'O', 'M', 'P', 'R', 'E', 'S', 'S'] then decompressLine ts
  else none

/-- The commands of one line; an empty line or a comment has none. -/
def assembleLine (cs : List Char) : Option (List Instr) :=
  match tokens [] cs with
  | [] => some []
  | .word m :: ts => mnemonicLine m ts
  | _ => none

/-- The lines of a text, after the characters `l` of the line being read. -/
def linesOf : List Char → List Char → List (List Char)
  | l, [] => [l]
  | l, c :: cs => if c = '\n' then l :: linesOf [] cs else linesOf (l ++ [c]) cs

def assembleLines : List (List Char) → Option (List Instr)
  | [] => some []
  | l :: ls =>
    match assembleLine l, assembleLines ls with
    | some is, some js => some (is ++ js)
    | _, _ => none

/-- The commands of a text, one command or pseudo-instruction a line (R86, R87). -/
def assemble (text : List Char) : Option (List Instr) := assembleLines (linesOf [] text)

end Sys2Proof.Machine
end

