-- ==== Sys2Proof/Tests/Slice0.lean ====
section
/-!
SUPPORT. Small tests, each on one word or one step, with the expected values of the spec's rules and vectors
(95_test_vectors.md); and a named witness for the hypotheses of every statement that has any, clause by clause.
-/
namespace Sys2Proof.Tests

open Sys2Proof.Machine Sys2Proof.Safety

/-! ### States: the call of "aaab" (S1, P1, P4), one per phase -/

/-- "aaab" counted. -/
def counted : State := { State.reset with phase := .count, freq := [(0x61, 3#32), (0x62, 1#32)] }

/-- Its tree (R118). -/
def treed : State := { counted with
  phase := .tree, nleaf := 2#9, nn := 3#9, root := 2#9, walk := 2#9
  node := [(0, ⟨true, 0x61#8, 3#40, 0#9, 0#9⟩), (1, ⟨true, 0x62#8, 1#40, 0#9, 0#9⟩), (2, ⟨false, 0#8, 4#40, 0#9, 1#9⟩)] }

/-- Its table: a = "0", b = "1" (V37). -/
def tabled : State := { treed with phase := .table, code := [(0x61, ⟨1#8, 0#256⟩), (0x62, ⟨1#8, 1#256 <<< 255⟩)] }

/-- After its EMITH, three bits packed (V42). -/
def encoding : State := { tabled with phase := .encode, dlen := 4#64, bitcnt := 3#64 }

/-- Its header parsed, no payload bit taken (R162). -/
def decoding : State := { treed with
  phase := .dpay, dlen := 4#64, hcnt := 24#11, hn := 2#16, hsym := 0x62#8 }

/-- A header in progress: `k` bytes taken. -/
def parsing (k : BitVec 11) (n : BitVec 16) : State := { State.reset with phase := .dhdr, hcnt := k, hn := n }

/-- The single-leaf tree of "aaaa" (S2). -/
def single : State := { State.reset with
  phase := .tree, freq := [(0x61, 4#32)], nleaf := 1#9, nn := 1#9, node := [(0, ⟨true, 0x61#8, 4#40, 0#9, 0#9⟩)] }

/-- a, b, c with counts 1, 1, 2 (V30): node 3 merges a and b, node 4 merges c and node 3; c = "1", b = "00", a = "01". -/
def three : State := { State.reset with phase := .count, freq := [(0x61, 1#32), (0x62, 1#32), (0x63, 2#32)] }

/-- Its payload walk at the start, with `n` bits declared. -/
def walking (n : BitLen) : State := { buildTree three with phase := .dpay, dlen := n }

/-- A fault stands. -/
def faulted : State := { State.reset with err := .sequence, einfo := 0x21000061#32 }

/-- The state a command answers. -/
def after (i : Instr) (s : State) : State :=
  match exec i s with
  | .next t => t
  | _ => State.reset

/-- A test that an outcome is this next state. -/
def answers (o : Outcome) (t : State) : Bool :=
  match o with
  | .next u => u == t
  | _ => false

theorem of_answers {o : Outcome} {t : State} (h : answers o t = true) : o = .next t := by
  unfold answers at h
  split at h
  · rw [eq_of_beq h]
  · cases h

/-! ### Well-formed and ill-formed words (R84) -/

theorem test_ill_formed_unused_op : WellFormed 0x03000000#32 = false ∧ WellFormed 0xFFFFFFFF#32 = false := by decide
theorem test_ill_formed_zero_field_z : WellFormed 0x11000001#32 = false := by decide
theorem test_ill_formed_zero_field_a : WellFormed 0x10000161#32 = false := by decide
theorem test_ill_formed_cfg_operand : WellFormed 0x02000002#32 = false := by decide
theorem test_well_formed : WellFormed 0x10000061#32 = true ∧ WellFormed 0x02000001#32 = true := by decide

/-! ### Decoding: words written out from the bits of R81 to R83 -/

theorem test_decode_nop : decode (0x00#8 ++ 0#24) = .ok .nop := by decide
theorem test_decode_rst : decode (0x01#8 ++ 0#24) = .ok .rst := by decide
theorem test_decode_cfg : decode (0x02#8 ++ 0#16 ++ 0b00000001#8) = .ok (.cfg 1#1) := by decide
theorem test_decode_cnt : decode (0x10#8 ++ 0#16 ++ 0b01100001#8) = .ok (.cnt 0x61#8) := by decide
theorem test_decode_build : decode (0x11#8 ++ 0#24) = .ok .build := by decide
theorem test_decode_gen : decode (0x12#8 ++ 0#24) = .ok .gen := by decide
theorem test_decode_emith : decode (0x20#8 ++ 0#24) = .ok .emith := by decide
theorem test_decode_enc : decode (0x21#8 ++ 0#16 ++ 0b11111111#8) = .ok (.enc 0xFF#8) := by decide
theorem test_decode_flush : decode (0x22#8 ++ 0#24) = .ok .flush := by decide
theorem test_decode_dbyte : decode (0x30#8 ++ 0#16 ++ 0b01001000#8) = .ok (.dbyte 0x48#8) := by decide
theorem test_decode_dend : decode (0x31#8 ++ 0#24) = .ok .dend := by decide

/-- Reserved words of 95_test_vectors.md part 2, by reason. -/
theorem test_decode_reserved :
    decode 0x7F000000#32 = .error .unusedOp ∧ decode 0x01000001#32 = .error .nonzeroField ∧
    decode 0x21000100#32 = .error .nonzeroField ∧ decode 0x02000002#32 = .error .cfgOperand ∧
    decode 0x02000100#32 = .error .nonzeroField := by decide

/-! ### Assembler text (R86, R87) -/

theorem test_assemble_quoted : assemble ['C', 'N', 'T', ' ', '\'', 'a', '\''] = some [.cnt 0x61#8] := by decide
theorem test_assemble_hex_comment :
    assemble ['E', 'N', 'C', ' ', '0', 'x', '6', '2', ' ', ';', ' ', 'b'] = some [.enc 0x62#8] := by decide
theorem test_assemble_lines :
    assemble ['C', 'F', 'G', ' ', '1', '\n', 'B', 'U', 'I', 'L', 'D'] = some [.cfg 1#1, .build] := by decide
theorem test_assemble_compress :
    assemble ['C', 'O', 'M', 'P', 'R', 'E', 'S', 'S', ' ', '0', ',', ' ', '9', '7'] =
      some [.rst, .cfg 0#1, .cnt 97#8, .build, .gen, .emith, .enc 97#8, .flush] := by decide
/-- The first bytes of P3c: bare digits after DECOMPRESS are hex. -/
theorem test_assemble_decompress :
    assemble ['D', 'E', 'C', 'O', 'M', 'P', 'R', 'E', 'S', 'S', ' ', '4', '8', ' ', '5', '5', ' ', '0', '1'] =
      some [.rst, .dbyte 0x48#8, .dbyte 0x55#8, .dbyte 0x01#8, .dend] := by decide

/-! ### The table's words, as the first command after reset -/

theorem test_table_words :
    (decodeTableWord 32 0x00000000 = some .nop ∧ decodeTableWord 32 0x01000000 = some .rst ∧
    decodeTableWord 32 0x02000001 = some (.cfg 1#1) ∧ decodeTableWord 32 0x10000061 = some (.cnt 0x61#8)) ∧
    decodeTableWord 32 0x30000048 = some (.dbyte 0x48#8) ∧ decodeTableWord 32 0x02000002 = none := by decide
theorem test_first_step_cnt :
    step (State.reset.withFetchWord 32 0x10000061) =
      .next { State.reset with freq := [(0x61, 1#32)], phase := .count } :=
  of_answers (by decide)
theorem test_first_step_build :
    step (State.reset.withFetchWord 32 0x11000000) = .next { State.reset with phase := .tree } :=
  of_answers (by decide +kernel)
theorem test_first_step_gen :
    step (State.reset.withFetchWord 32 0x12000000) =
      .next { State.reset with err := .sequence, einfo := 0x12000000#32 } :=
  of_answers (by decide)
theorem test_first_step_dbyte :
    step (State.reset.withFetchWord 32 0x30000048) =
      .next { State.reset with hcnt := 1#11, phase := .dhdr } :=
  of_answers (by decide)
/-- With nothing presented the block waits (R220). -/
theorem test_waits : step State.reset = .next State.reset :=
  of_answers (by decide)

/-! ### One step of each command -/

/-- V6: RST leaves the streams. -/
theorem test_rst : exec .rst { treed with outb := [0x48#8] } = .next { State.reset with outb := [0x48#8] } :=
  of_answers (by decide)
/-- V22: a reserved RST word is ignored after a fault. -/
theorem test_rst_reserved_ignored :
    step { faulted with host := [.command 0x01000001#32] } = .next faulted :=
  of_answers (by decide)
theorem test_nop : exec .nop encoding = .next encoding :=
  of_answers (by decide)
/-- V3. -/
theorem test_cfg : exec (.cfg 0#1) { State.reset with ctrl := 1#1 } = .next State.reset :=
  of_answers (by decide)
/-- V12. -/
theorem test_cfg_after_build :
    exec (.cfg 1#1) treed = .next { treed with err := .sequence, einfo := 0x02000001#32 } :=
  of_answers (by decide)
/-- V24. -/
theorem test_cnt_zero :
    exec (.cnt 0x00#8) State.reset = .next { State.reset with freq := [(0, 1#32)], phase := .count } :=
  of_answers (by decide)
/-- V25. -/
theorem test_cnt_overflow :
    exec (.cnt 0x61#8) { counted with freq := [(0x61, 0xFFFFFFFF#32)] } =
      .next { counted with freq := [(0x61, 0xFFFFFFFF#32)], err := .countOverflow, einfo := 0x10000061#32 } :=
  of_answers (by decide)
/-- R118, V26: the first node popped is 'b', which becomes the right child. -/
theorem test_build : exec .build counted = .next treed :=
  of_answers (by decide +kernel)
/-- V36. -/
theorem test_build_empty_forbidden :
    exec .build { State.reset with ctrl := 1#1 } =
      .next { State.reset with ctrl := 1#1, err := .emptyInput, einfo := 0x11000000#32 } :=
  of_answers (by decide +kernel)
/-- V30: a leaf is popped before an internal node of equal weight. -/
theorem test_build_tie :
    readNode (after .build three).node 4 =
      ⟨false, 0#8, 4#40, 3#9, 2#9⟩ := by decide +kernel
/-- V37. -/
theorem test_gen : exec .gen treed = .next tabled :=
  of_answers (by decide +kernel)
/-- V39: the single-leaf code is "0". -/
theorem test_gen_single : lookup (after .gen single).code 0x61#8 = [false] := by decide +kernel
/-- V41: the last bytes of the header of "aaab". -/
theorem test_emith :
    (after .emith tabled).outb =
      [0x48#8, 0x55#8, 0x46#8, 0x01#8, 0x00#8, 0x02#8, 0x61#8, 0x00#8, 0x00#8, 0x00#8, 0x03#8, 0x62#8,
        0x00#8, 0x00#8, 0x00#8, 0x01#8, 0x00#8, 0x00#8, 0x00#8, 0x00#8, 0x00#8, 0x00#8, 0x00#8, 0x04#8] := by
  decide +kernel
/-- V42: 'b' packs a 1 at bit 4. -/
theorem test_enc : exec (.enc 0x62#8) encoding = .next { encoding with acc := 0x10#8, bitcnt := 4#64 } :=
  of_answers (by decide +kernel)
/-- V47: UnsupportedSymbol comes before LengthMismatch. -/
theorem test_enc_unsupported :
    exec (.enc 0x63#8) { encoding with bitcnt := 4#64 } =
      .next { encoding with bitcnt := 4#64, err := .unsupportedSymbol, einfo := 0x21000063#32 } :=
  of_answers (by decide +kernel)
/-- R143: the last byte of "aaab" is padded. -/
theorem test_flush :
    exec .flush { encoding with acc := 0x10#8, bitcnt := 4#64 } =
      .next { encoding with phase := .edone, bitcnt := 4#64, outb := [0x10#8] } :=
  of_answers (by decide)
theorem test_flush_short :
    exec .flush encoding = .next { encoding with err := .lengthMismatch, einfo := 0x22000000#32 } :=
  of_answers (by decide)
/-- R160: 0x49 is not the first magic byte. -/
theorem test_dbyte_magic :
    exec (.dbyte 0x49#8) State.reset =
      .next { State.reset with err := .corruptArtifact, einfo := 0x30000049#32 } :=
  of_answers (by decide)
/-- R164: the payload byte of "aaab". -/
theorem test_dbyte_payload :
    exec (.dbyte 0x10#8) decoding =
      .next { decoding with phase := .dtail, bitcnt := 4#64, outs := [0x61#8, 0x61#8, 0x61#8, 0x62#8] } :=
  of_answers (by decide +kernel)
theorem test_dend : exec .dend { decoding with phase := .dtail } = .next { decoding with phase := .ddone } :=
  of_answers (by decide)
/-- R168: a cut payload. -/
theorem test_dend_cut :
    exec .dend decoding = .next { decoding with err := .corruptArtifact, einfo := 0x31000000#32 } :=
  of_answers (by decide)
/-- V37's status reads. -/
theorem test_status :
    statRead tabled 0x1610#13 = 1#32 ∧ statRead tabled 0x1620#13 = 1#32 ∧ statRead tabled 0x1621#13 = 0x80000000#32 ∧
    statRead tabled 0x1622#13 = 0#32 ∧ statRead tabled 0x0002#13 = 3#32 ∧ statRead faulted 0x0002#13 = 0x100#32 := by
  decide +kernel

/-! ### Witnesses: for each statement with hypotheses, a state and operands that meet all of them -/

/-- `EncodeOfDecode`. -/
theorem witness_encode_of_decode : decode 0x10000061#32 = .ok (.cnt 0x61#8) := by decide
/-- `RejectedWordsAreIllFormed`: a word on each side. -/
theorem witness_rejected_words :
    decode 0x02000002#32 = .error .cfgOperand ∧ WellFormed 0x02000002#32 = false ∧ WellFormed 0x02000001#32 = true := by
  decide
/-- `StepRunsDecodedCommand`. -/
theorem witness_step_runs_decoded_command :
    ({ State.reset with host := [.command 0x10000061#32, .hardReset] } : State).host =
        .command 0x10000061#32 :: [.hardReset] ∧ decode 0x10000061#32 = .ok (.cnt 0x61#8) := by decide
/-- `ReservedWordRaisesIllegalCommand`. -/
theorem witness_reserved_word :
    ({ State.reset with host := [.command 0x02000002#32] } : State).host = .command 0x02000002#32 :: [] ∧
      WellFormed 0x02000002#32 = false ∧ ({ State.reset with host := [.command 0x02000002#32] } : State).err = .noFault := by
  decide
/-- `FaultFreezesTheBlock`, with a valid word and with a reserved one. -/
theorem witness_fault_freezes :
    (({ faulted with host := [.command 0x10000061#32] } : State).host = .command 0x10000061#32 :: [] ∧
      ({ faulted with host := [.command 0x10000061#32] } : State).err ≠ .noFault ∧
      (0x10000061#32 : Word) ≠ 0x01000000#32) ∧
    ({ faulted with host := [.command 0x01000001#32] } : State).host = .command 0x01000001#32 :: [] ∧
      (0x01000001#32 : Word) ≠ 0x01000000#32 := by decide
/-- `StatusReadChangesNothing`. -/
theorem witness_status_read :
    ({ faulted with host := [.statRead 0x0003#13] } : State).host = .statRead 0x0003#13 :: [] := by decide
/-- `HardwareResetClearsAll`. -/
theorem witness_hardware_reset : ({ treed with host := [.hardReset] } : State).host = .hardReset :: [] := by decide
/-- `StatusMapShowsEveryRegister`: the ends of each range of its last clause, and the last address of each clause before it, so
that no address falls under two clauses. -/
theorem witness_status_map :
    (510 < 511 ∧ 255 < 256) ∧
    (∀ a ∈ [0x000D, 0x000F, 0x0016, 0x00FF],
      a < 0x0100 ∧ a ≠ 0x0000 ∧ ¬(1 ≤ a ∧ a ≤ 0x000C) ∧ ¬(0x0010 ≤ a ∧ a ≤ 0x0015)) ∧
    (∀ a ∈ [0x0200, 0x07FF], 0x0200 ≤ a ∧ a < 0x0800) ∧ (∀ a ∈ [0x0FFC, 0x0FFF], 0x0FFC ≤ a ∧ a < 0x1000) ∧
    (∀ a ∈ [0x1009, 0x100F, 0x1FF9, 0x1FFF], 0x1000 ≤ a ∧ a < 0x2000 ∧ 9 ≤ a % 16) ∧
    (0x0100 + 255 = 0x01FF ∧ 0x0800 + 4 * 510 + 3 = 0x0FFB ∧ 0x1000 + 16 * 255 + 1 + 255 / 32 = 0x1FF8) := by decide

/-- `SequenceFaultOutsideAcceptedPhases` (first clause), `FaultsArePrecise`: a command out of phase. -/
theorem witness_out_of_phase :
    treed.err = .noFault ∧ treed.phase ∉ acceptedPhases (.cnt 0x61#8) ∧
      exec (.cnt 0x61#8) treed = .next { treed with err := .sequence, einfo := 0x10000061#32 } ∧
      ({ treed with err := .sequence, einfo := 0x10000061#32 } : State).err ≠ .noFault :=
  ⟨rfl, by decide, of_answers (by decide), by decide⟩
/-- `SequenceFaultOutsideAcceptedPhases` (second clause): a command in phase. -/
theorem witness_in_phase :
    treed.err = .noFault ∧ treed.phase ∈ acceptedPhases .gen ∧ exec .gen treed = .next tabled := ⟨rfl, by decide, test_gen⟩
/-- `EachFaultHasItsCommands`: a command for each clause, each from a state without a fault. -/
theorem witness_each_fault :
    (∀ s ∈ [{ State.reset with ctrl := 1#1 }, encoding, State.reset, decoding,
      { counted with freq := [(0x61, 0xFFFFFFFF#32)] }, { encoding with bitcnt := 4#64 }], s.err = .noFault) ∧
    (after .build { State.reset with ctrl := 1#1 }).err = .emptyInput ∧
    (after (.enc 0x63#8) encoding).err = .unsupportedSymbol ∧
    (after (.dbyte 0x49#8) State.reset).err = .corruptArtifact ∧ (after .dend decoding).err = .corruptArtifact ∧
    (after (.cnt 0x61#8) { counted with freq := [(0x61, 0xFFFFFFFF#32)] }).err = .countOverflow ∧
    (after (.enc 0x62#8) { encoding with bitcnt := 4#64 }).err = .lengthMismatch ∧
    (after .flush encoding).err = .lengthMismatch := by decide +kernel
/-- `PhaseMovesOnlyAsListed`: a phase change, and the first byte of a header. -/
theorem witness_phase_moves :
    (exec .gen treed = .next tabled ∧ tabled.phase ≠ treed.phase) ∧
    exec (.dbyte 0x48#8) State.reset = .next (parsing 1#11 0#16) ∧ (parsing 1#11 0#16).phase ≠ State.reset.phase ∧
      State.reset.hcnt = 0#11 :=
  ⟨⟨test_gen, by decide⟩, of_answers (by decide), by decide, rfl⟩
/-- `CommandsLeaveOtherMemories`, `CommandsLeaveOtherRegisters`, `StreamsOnlyGrow`: DEND meets the premises of all their
clauses. -/
theorem witness_frames :
    exec .dend { decoding with phase := .dtail } = .next { decoding with phase := .ddone } ∧
    (.dend : Instr) ≠ .rst ∧ (∀ x, Instr.dend ≠ .cnt x) ∧ (∀ b, Instr.dend ≠ .dbyte b) ∧ Instr.dend ≠ .build ∧
    Instr.dend ≠ .gen ∧ Instr.dend ≠ .emith ∧ (∀ x, Instr.dend ≠ .enc x) ∧ Instr.dend ≠ .flush ∧
    (∀ b, Instr.dend ≠ .cfg b) ∧
    ({ decoding with phase := .ddone } : State).err = ({ decoding with phase := .dtail } : State).err :=
  ⟨test_dend, by decide, by simp, by simp, by decide, by decide, by decide, by simp, by decide, by simp, rfl⟩
/-- `CfgWritesPolicyBit`: in IDLE and in COUNT. -/
theorem witness_cfg :
    (State.reset.err = .noFault ∧ State.reset.phase = .idle) ∧ counted.err = .noFault ∧ counted.phase = .count := by decide
/-- `CntCountsAndNeverWraps`: the last count that is added to, and the bound. -/
theorem witness_cnt :
    (({ counted with freq := [(0x61, 0xFFFFFFFE#32)] } : State).err = .noFault ∧
      ({ counted with freq := [(0x61, 0xFFFFFFFE#32)] } : State).phase = .count ∧
      readFreq ({ counted with freq := [(0x61, 0xFFFFFFFE#32)] } : State).freq (0x61#8 : Sym).toNat ≠ 0xFFFFFFFF#32) ∧
    ({ counted with freq := [(0x61, 0xFFFFFFFF#32)] } : State).err = .noFault ∧
      ({ counted with freq := [(0x61, 0xFFFFFFFF#32)] } : State).phase = .count ∧
      readFreq ({ counted with freq := [(0x61, 0xFFFFFFFF#32)] } : State).freq (0x61#8 : Sym).toNat = 0xFFFFFFFF#32 := by
  decide
/-- `PopMinTakesTheFirst`. -/
theorem witness_pop_min : [0, 1].Nodup ∧ [0, 1] ≠ [] ∧ popMin treed.node [0, 1] = some (1, [0]) := by decide
/-- `BuildBuildsTheTree`: a symbol is present; none is and the policy allows it; none is and the policy forbids it. -/
theorem witness_build :
    (counted.err = .noFault ∧ counted.phase = .count ∧
      ¬((∀ x : Sym, readFreq counted.freq x.toNat = 0#32) ∧ counted.ctrl = 1#1)) ∧
    (State.reset.err = .noFault ∧ State.reset.phase = .idle ∧
      ¬((∀ x : Sym, readFreq State.reset.freq x.toNat = 0#32) ∧ State.reset.ctrl = 1#1)) ∧
    ({ State.reset with ctrl := 1#1 } : State).err = .noFault ∧ ({ State.reset with ctrl := 1#1 } : State).phase = .idle ∧
      (∀ x : Sym, readFreq ({ State.reset with ctrl := 1#1 } : State).freq x.toNat = 0#32) ∧
      ({ State.reset with ctrl := 1#1 } : State).ctrl = 1#1 :=
  ⟨⟨rfl, rfl, fun h => absurd (h.1 0x61#8) (by decide)⟩, ⟨rfl, rfl, fun h => absurd h.2 (by decide)⟩, rfl, rfl, fun _ => rfl,
    rfl⟩
/-- `BuildTreeFrame`, `BuildTreeLeaves`, `BuildTreeInternalNodes`, `BuildTreeIsOneTree`, `BuildTreeRootWeight`: indices on both
sides of NLEAF = 2 and NN = 3, and node 2, the parent of nodes 0 and 1. -/
theorem witness_build_tree :
    (buildTree counted).nleaf = 2#9 ∧ (buildTree counted).nn = 3#9 ∧ (buildTree counted).nn ≠ 0#9 ∧
    (buildTree counted).root.toNat = 2 ∧ (buildTree counted).nn.toNat ≤ 3 ∧
    1 < (buildTree counted).nleaf.toNat ∧ (buildTree counted).nleaf.toNat ≤ 2 ∧ 2 < (buildTree counted).nn.toNat ∧
    Present counted 0x61#8 ∧
    (childOf (buildTree counted).node (BitVec.ofNat 9 2) false).toNat = 0 ∧
    (childOf (buildTree counted).node (BitVec.ofNat 9 2) true).toNat = 1 := by decide +kernel
/-- `BuildTreeInternalNodes`, its last clause: when node 3 merged nodes 0 and 1, node 2 was the child of none. -/
theorem witness_lowest :
    (buildTree three).nleaf.toNat ≤ 3 ∧ 3 < (buildTree three).nn.toNat ∧
    (readNode (buildTree three).node 3).left.toNat = 1 ∧ (readNode (buildTree three).node 3).right.toNat = 0 ∧
    ∀ p, (buildTree three).nleaf.toNat ≤ p → p < 3 →
      2 ≠ (readNode (buildTree three).node p).left.toNat ∧ 2 ≠ (readNode (buildTree three).node p).right.toNat := by
  have h : (buildTree three).nleaf.toNat = 3 := by decide +kernel
  exact ⟨h.le, by decide +kernel, by decide +kernel, by decide +kernel, fun p h1 h2 => by omega⟩
/-- `BuildTreeSizes`: both cases. -/
theorem witness_build_tree_sizes : presentCount State.reset.freq = 0 ∧ presentCount counted.freq ≠ 0 := by decide +kernel
/-- `BuildTreeDependsOnFreqAlone`: the same table, different NODE. -/
theorem witness_same_table :
    (∀ i, i < 256 → readFreq counted.freq i = readFreq decoding.freq i) ∧ counted.node ≠ decoding.node :=
  ⟨fun _ _ => rfl, by decide⟩
/-- `BuildTreeDegenerateCases`: no symbol; one symbol. -/
theorem witness_degenerate :
    (∀ x : Sym, readFreq State.reset.freq x.toNat = 0#32) ∧ Present single 0x61#8 ∧
    ∀ y : Sym, y ≠ 0x61#8 → readFreq single.freq y.toNat = 0#32 := by
  refine ⟨fun _ => rfl, by decide, fun y hy => ?_⟩
  have : y.toNat ≠ 0x61 := fun e => hy (BitVec.eq_of_toNat_eq e)
  simp [readFreq, Memory.read, single, this]
/-- `GenGivesEachPresentSymbolACode`, `GenCodesArePrefixFree`, `GenCodesAreRootToLeafPaths`, `GenLengthIsInternalWeight`. -/
theorem witness_gen :
    treed.err = .noFault ∧ treed.phase = .tree ∧ TreeOfFreq treed ∧ 2 ≤ treed.nleaf.toNat ∧ exec .gen treed = .next tabled ∧
    Present treed 0x61#8 ∧ Present treed 0x62#8 ∧ (0x61#8 : Sym) ≠ 0x62#8 ∧ 0 < (lookup tabled.code 0x62#8).length :=
  ⟨rfl, rfl, by unfold TreeOfFreq; decide +kernel, by decide, test_gen, by decide, by decide, by decide, by decide +kernel⟩
/-- `GenSingleLeafCode`. -/
theorem witness_gen_single :
    single.err = .noFault ∧ single.phase = .tree ∧ TreeOfFreq single ∧ Present single 0x61#8 ∧
    ∀ y : Sym, y ≠ 0x61#8 → readFreq single.freq y.toNat = 0#32 :=
  ⟨rfl, rfl, by unfold TreeOfFreq; decide +kernel, witness_degenerate.2⟩
/-- `EmithEmitsTheHeader`. -/
theorem witness_emith : tabled.err = .noFault ∧ tabled.phase = .table := by decide
/-- `EncPacksTheWholeCode`: the code ends exactly at DLEN. -/
theorem witness_enc :
    encoding.err = .noFault ∧ encoding.phase = .encode ∧ AccClean encoding ∧
    (readCode encoding.code 0x62#8).clen ≠ 0#8 ∧
    encoding.bitcnt.toNat + (readCode encoding.code 0x62#8).clen.toNat ≤ encoding.dlen.toNat := by
  refine ⟨rfl, rfl, fun k _ => ?_, by decide, by decide⟩
  simp [encoding, tabled, treed, counted, State.reset]
/-- `EncFaults`: no entry; one bit too many. -/
theorem witness_enc_faults :
    (encoding.err = .noFault ∧ encoding.phase = .encode ∧ (readCode encoding.code 0x63#8).clen = 0#8) ∧
    ({ encoding with bitcnt := 4#64 } : State).err = .noFault ∧ ({ encoding with bitcnt := 4#64 } : State).phase = .encode ∧
      (readCode ({ encoding with bitcnt := 4#64 } : State).code 0x62#8).clen ≠ 0#8 ∧
      ({ encoding with bitcnt := 4#64 } : State).dlen.toNat <
        ({ encoding with bitcnt := 4#64 } : State).bitcnt.toNat +
          (readCode ({ encoding with bitcnt := 4#64 } : State).code 0x62#8).clen.toNat := by decide
/-- `FlushPadsTheLastByte`: complete on a byte boundary, complete off it, and short. -/
theorem witness_flush :
    (∀ s ∈ [{ encoding with bitcnt := 8#64, dlen := 8#64 }, { encoding with bitcnt := 4#64 }, encoding],
      s.err = .noFault ∧ s.phase = .encode) ∧
    (({ encoding with bitcnt := 8#64, dlen := 8#64 } : State).bitcnt =
        ({ encoding with bitcnt := 8#64, dlen := 8#64 } : State).dlen ∧
      ({ encoding with bitcnt := 8#64, dlen := 8#64 } : State).bitcnt.toNat % 8 = 0) ∧
    (({ encoding with bitcnt := 4#64 } : State).bitcnt = ({ encoding with bitcnt := 4#64 } : State).dlen ∧
      ({ encoding with bitcnt := 4#64 } : State).bitcnt.toNat % 8 ≠ 0) ∧
    encoding.bitcnt ≠ encoding.dlen := by decide
/-- `HeaderMagicBytes`: the last magic byte right, in DHDR; the first one wrong, in IDLE. -/
theorem witness_magic :
    ((parsing 3#11 0#16).err = .noFault ∧ (parsing 3#11 0#16).phase = .dhdr ∧ (parsing 3#11 0#16).hcnt.toNat ≤ 3 ∧
      [0x48#8, 0x55#8, 0x46#8, 0x01#8][(parsing 3#11 0#16).hcnt.toNat]? = some 0x01#8) ∧
    State.reset.err = .noFault ∧ State.reset.phase = .idle ∧ State.reset.hcnt.toNat ≤ 3 ∧
      [0x48#8, 0x55#8, 0x46#8, 0x01#8][State.reset.hcnt.toNat]? ≠ some 0x49#8 := by decide
/-- `HeaderSizeBytes`: both bytes; 256 is taken, 257 is not. -/
theorem witness_size :
    ((parsing 4#11 0#16).err = .noFault ∧ (parsing 4#11 0#16).phase = .dhdr ∧ (parsing 4#11 0#16).hcnt.toNat = 4) ∧
    ((parsing 5#11 1#16).err = .noFault ∧ (parsing 5#11 1#16).phase = .dhdr ∧ (parsing 5#11 1#16).hcnt.toNat = 5) ∧
    exec (.dbyte 0x00#8) (parsing 5#11 1#16) = .next (parsing 6#11 256#16) ∧
    (after (.dbyte 0x01#8) (parsing 5#11 1#16)).err = .corruptArtifact :=
  ⟨by decide, by decide, of_answers (by decide), by decide⟩
/-- `HeaderPairBytes`: each byte of a pair (the first and the second symbol, frequency bytes 1 to 3, the last), up to the last
byte of the last pair. -/
theorem witness_pair :
    (∀ k ∈ [6#11, 7#11, 9#11, 11#11, 15#11], (parsing k 2#16).err = .noFault ∧ (parsing k 2#16).phase = .dhdr ∧
      6 ≤ (parsing k 2#16).hcnt.toNat ∧ (parsing k 2#16).hcnt.toNat < 6 + 5 * (parsing k 2#16).hn.toNat) ∧
    ((parsing 6#11 2#16).hcnt.toNat - 6) % 5 = 0 ∧
    (((parsing 11#11 2#16).hcnt.toNat - 6) % 5 = 0 ∧ 11 ≤ (parsing 11#11 2#16).hcnt.toNat) ∧
    (∀ k ∈ [7#11, 9#11], 1 ≤ ((parsing k 2#16).hcnt.toNat - 6) % 5 ∧ ((parsing k 2#16).hcnt.toNat - 6) % 5 ≤ 3) ∧
    ((parsing 15#11 2#16).hcnt.toNat - 6) % 5 = 4 := by decide
/-- `HeaderLengthBytes`: the first and the last byte of its range. -/
theorem witness_length :
    ∀ k ∈ [16#11, 22#11], (parsing k 2#16).err = .noFault ∧ (parsing k 2#16).phase = .dhdr ∧
      6 + 5 * (parsing k 2#16).hn.toNat ≤ (parsing k 2#16).hcnt.toNat ∧
      (parsing k 2#16).hcnt.toNat < 13 + 5 * (parsing k 2#16).hn.toNat := by decide
/-- `HeaderEndRebuildsTheTree`: the 24th byte of the "aaab" artifact (R162). -/
theorem witness_header_end :
    (parsing 23#11 2#16).err = .noFault ∧ (parsing 23#11 2#16).phase = .dhdr ∧
    (parsing 23#11 2#16).hcnt.toNat = 13 + 5 * (parsing 23#11 2#16).hn.toNat ∧
    exec (.dbyte 0x04#8) { parsing 23#11 2#16 with freq := counted.freq, hsym := 0x62#8 } = .next decoding :=
  ⟨rfl, rfl, by decide, of_answers (by decide +kernel)⟩
/-- `WalkOfACodeEmitsItsSymbol`. -/
theorem witness_walk :
    TreeOfFreq decoding ∧ genTable decoding.nn decoding.root decoding.node = .ok tabled.code ∧ Present decoding 0x62#8 ∧
    decoding.walk = decoding.root ∧ decoding.bitcnt.toNat + (lookup tabled.code 0x62#8).length ≤ decoding.dlen.toNat :=
  ⟨by unfold TreeOfFreq; decide +kernel, rfl, by decide, rfl, by decide +kernel⟩
/-- `PayloadByteTaken`, (1) and (2): DLEN is reached in the byte, with pad bits after it; and it is not reached. -/
theorem witness_payload :
    (decoding.err = .noFault ∧ decoding.phase = .dpay ∧ decoding.bitcnt.toNat < decoding.dlen.toNat ∧
      payloadBits (bitsOf 0x10#8) decoding =
        .ok { decoding with bitcnt := 4#64, outs := [0x61#8, 0x61#8, 0x61#8, 0x62#8] } ∧
      exec (.dbyte 0x10#8) decoding =
        .next { decoding with phase := .dtail, bitcnt := 4#64, outs := [0x61#8, 0x61#8, 0x61#8, 0x62#8] } ∧
      decoding.dlen.toNat ≤ decoding.bitcnt.toNat + 4) ∧
    (after (.dbyte 0x10#8) { decoding with dlen := 9#64 }).err = .noFault ∧
      (after (.dbyte 0x10#8) { decoding with dlen := 9#64 }).bitcnt = 8#64 :=
  ⟨⟨rfl, rfl, by decide, rfl, test_dbyte_payload, by decide⟩, by decide +kernel, by decide +kernel⟩
/-- `PayloadByteTaken`, (3): the bits 1, 0, 0 are the codes of c and b; with two of them declared the walk ends inside a code;
and a pad bit that is 1. -/
theorem witness_payload_walk :
    ((walking 3#64).err = .noFault ∧ (walking 3#64).phase = .dpay ∧ (walking 3#64).bitcnt.toNat < (walking 3#64).dlen.toNat ∧
      (readNode (walking 3#64).node (walking 3#64).root.toNat).leaf = false) ∧ Sound (walking 3#64) ∧
    (after (.dbyte 0x80#8) (walking 3#64)).outs = [0x63#8, 0x62#8] ∧
    (after (.dbyte 0x80#8) (walking 2#64)).err = .corruptArtifact ∧
    (after (.dbyte 0x81#8) (walking 3#64)).err = .corruptArtifact :=
  ⟨by decide +kernel,
    ⟨⟨by rw [if_pos (by decide +kernel)]; unfold TreeOfFreq; decide +kernel,
      by rw [if_neg (by decide +kernel)]; decide +kernel⟩, by unfold WalkSound; decide +kernel⟩,
    by decide +kernel, by decide +kernel, by decide +kernel⟩
/-- `SingleLeafPayloadByte`. -/
theorem witness_single :
    ({ single with phase := .dpay, dlen := 4#64 } : State).err = .noFault ∧
    ({ single with phase := .dpay, dlen := 4#64 } : State).phase = .dpay ∧
    ({ single with phase := .dpay, dlen := 4#64 } : State).bitcnt.toNat <
      ({ single with phase := .dpay, dlen := 4#64 } : State).dlen.toNat ∧
    ({ single with phase := .dpay, dlen := 4#64 } : State).root.toNat < 511 ∧
    (readNode ({ single with phase := .dpay, dlen := 4#64 } : State).node
      ({ single with phase := .dpay, dlen := 4#64 } : State).root.toNat).leaf = true ∧
    ({ single with phase := .dpay, dlen := 4#64 } : State).walk =
      ({ single with phase := .dpay, dlen := 4#64 } : State).root := by decide
/-- `TrailingByteIsCorrupt`, `DendEndsTheCall`: DTAIL, and each phase that cuts the artifact. -/
theorem witness_dend :
    (({ decoding with phase := .dtail } : State).err = .noFault ∧
      ({ decoding with phase := .dtail } : State).phase = .dtail) ∧
    (State.reset.err = .noFault ∧ State.reset.phase = .idle) ∧
    ((parsing 6#11 2#16).err = .noFault ∧ (parsing 6#11 2#16).phase = .dhdr) ∧
    decoding.err = .noFault ∧ decoding.phase = .dpay := by decide
/-- A decode call in its payload, with a NOP presented. -/
def decodingNop : State := { decoding with host := [.command 0x00000000#32] }
/-- `StepKeepsMemoriesCanonical`, `StepKeepsEinfoQuiet`, `SoundStateNeverStops`. -/
theorem witness_invariants :
    MemoriesCanonical decodingNop ∧ EinfoQuiet decodingNop ∧ Sound decodingNop ∧ step decodingNop = .next decoding :=
  ⟨⟨by decide, by decide, by decide⟩, fun _ => rfl,
    ⟨by simp [TablesCurrent, decodingNop, decoding, hasTree, hasTable, TreeOfFreq]; decide +kernel, Or.inl rfl⟩,
    of_answers (by decide)⟩
/-- `StepKeepsPayloadSound`, `StepKeepsHeaderSound`. -/
theorem witness_register_invariants :
    PayloadSound decodingNop ∧ HeaderSound decodingNop ∧ step decodingNop = .next decoding := by
  refine ⟨⟨by decide, fun k _ => ?_, by decide, by decide, by decide⟩, ⟨by decide, by decide, by decide, by decide⟩,
    of_answers (by decide)⟩
  simp [decodingNop, decoding, treed, counted, State.reset]
/-- The register invariants also hold in an encode call. -/
theorem witness_register_invariants_encode : PayloadSound encoding ∧ HeaderSound encoding := by
  refine ⟨⟨by decide, fun k _ => ?_, (by decide +kernel : encoding.dlen.toNat = declaredLength encoding.freq encoding.code)⟩,
    ⟨by decide, by decide, by decide, by decide⟩⟩
  simp [encoding, tabled, treed, counted, State.reset]
/-- `EncodeCallEmitsTheArtifact`, `RoundTrip`, `ChangedPayloadIsNeverTheOriginal`: the empty call, and one of two symbols; two
payloads of equal length that differ (S4). `witness_payload_walk` shows a byte that fails with CorruptArtifact. -/
theorem witness_calls :
    ((∀ x, ([] : List Sym).count x < 2 ^ 32) ∧ (0#1 : BitVec 1) = 0#1) ∧
    ((∀ x, [0x61#8, 0x62#8].count x < 2 ^ 32) ∧ [0x61#8, 0x62#8] ≠ []) ∧
    [0x90#8].length = [0x10#8].length ∧ [0x90#8] ≠ [0x10#8] :=
  ⟨⟨by simp, rfl⟩, ⟨fun x => lt_of_le_of_lt List.count_le_length (by decide), by decide⟩, rfl, by decide⟩

end Sys2Proof.Tests
end

section
/-!
The step at the host's oldest event, said once for each of its two parts: what is taken from the queue (spec rules R8, R69), and
what a word that decodes does at the command port (R100).
-/
namespace Sys2Proof.Machine

/-- R8, R69: the oldest event leaves the queue, and the step serves it on the state without it. -/
theorem step_of_host_cons {s : State} {e : HostEvent} {rest : List HostEvent} (h : s.host = e :: rest) :
    step s = serve e { s with host := rest } := by
  simp only [step, h]

/-- R100: a word that decodes is its command at the command port. -/
theorem presentWord_of_decode {w : Word} {i : Instr} (h : decode w = .ok i) (s : State) : presentWord w s = exec i s := by
  simp only [presentWord, h]

/-- Settles O5: the step takes the word from the queue and serves it, and the word served is the command it decodes to. -/
theorem stepRunsDecodedCommand : Obligations.StepRunsDecodedCommand := by
  intro s w rest i hhost hdecode
  calc step s
      _ = serve (.command w) { s with host := rest } := step_of_host_cons hhost
      _ = presentWord w { s with host := rest } := rfl
      _ = exec i { s with host := rest } := presentWord_of_decode hdecode _

end Sys2Proof.Machine
end

section
/-!
Invariants of the step, packaged once: a predicate on states is kept by every step if it holds of a cleared call, does not look
at the host's side of the state, outlives a raised fault (spec rule R190), and is kept by the own rule of each command.
-/
namespace Sys2Proof.Machine

open Sys2Proof.Safety

/-- What a predicate needs so that every step keeps it. -/
structure KeptByRules (P : State → Prop) : Prop where
  cleared : ∀ s, P (clearCall s)
  hostSide : ∀ s rest v, P s → P { s with host := rest, statData := v }
  fault : ∀ s e w, e ≠ .noFault → P s → P { s with err := e, einfo := w }
  rule : ∀ i s t, i ≠ .rst → accepts i s.phase = true → ruleOf i s = .ok t → Effects i s t → P s → P t

theorem KeptByRules.exec {P : State → Prop} (hP : KeptByRules P) {i : Instr} {s t : State} (hs : P s)
    (h : exec i s = .next t) : P t := by
  by_cases hi : i = .rst
  · subst hi
    cases h
    exact hP.cleared s
  · rcases exec_cases hi h with rfl | ⟨e, _, he, rfl⟩ | ⟨_, ha, hr, heff⟩
    · exact hs
    · exact hP.fault s e _ he hs
    · exact hP.rule i s t hi ha hr heff hs

theorem KeptByRules.step {P : State → Prop} (hP : KeptByRules P) {s t : State} (hs : P s) (h : step s = .next t) : P t := by
  rcases step_cases h with rfl | ⟨rest, v, rfl⟩ | ⟨rest, rfl⟩ | ⟨rest, w, _, rfl⟩ | ⟨rest, i, hexec⟩
  · exact hs
  · exact hP.hostSide s rest v hs
  · exact hP.cleared { State.reset with host := rest }
  · exact hP.fault _ .illegalCommand w (by simp) (hP.hostSide s rest s.statData hs)
  · exact hP.exec (hP.hostSide s rest s.statData hs) hexec

/-- R24: a raise sets ERR together with EINFO, and no rule writes either. -/
theorem einfoQuiet_kept : KeptByRules EinfoQuiet where
  cleared _ _ := rfl
  hostSide _ _ _ hs := hs
  fault _ _ _ he _ hnone := absurd hnone he
  rule _ _ _ _ _ _ heff hs herr := heff.einfo.trans (hs (heff.err.symm.trans herr))

/-- Settles O53: a raise sets ERR together with EINFO, and no other rule writes EINFO. -/
theorem stepKeepsEinfoQuiet : Obligations.StepKeepsEinfoQuiet :=
  fun _ _ hs h => einfoQuiet_kept.step hs h

end Sys2Proof.Machine
end

section
/-!
What the own rule of each command leaves when it is taken, one lemma per rule.
-/
namespace Sys2Proof.Machine

variable {s t : State}

/-- What a function of the phase says where a rule is accepted in two phases. -/
theorem apply_phase_eq {α : Type} {f : Phase → α} {v : α} {p a b : Phase} (h : p = a ∨ p = b)
    (ha : f a = v) (hb : f b = v) : f p = v := by
  rcases h with rfl | rfl
  · exact ha
  · exact hb

theorem cntRule_ok {x : Sym} (h : cntRule x s = .ok t) :
    ∃ c, t = { s with freq := writeFreq s.freq x.toNat c, phase := .count } := by
  simp only [cntRule] at h
  split at h
  · cases h
  · cases h
    exact ⟨_, rfl⟩

theorem buildRule_ok (h : buildRule s = .ok t) : t = { buildTree s with phase := .tree } := by
  unfold buildRule at h
  split at h
  · cases h
  · cases h
    rfl

theorem genRule_ok (h : genRule s = .ok t) :
    ∃ c, genTable s.nn s.root s.node = .ok c ∧ t = { s with code := c, phase := .table } := by
  unfold genRule at h
  split at h
  · cases h
  · cases h
    exact ⟨_, ‹_›, rfl⟩

theorem encRule_ok {x : Sym} (h : encRule x s = .ok t) :
    s.bitcnt.toNat + (lookup s.code x).length ≤ s.dlen.toNat ∧ t = putBits (lookup s.code x) s := by
  simp only [encRule] at h
  split at h
  · cases h
  · split at h
    · cases h
    · cases h
      exact ⟨by rw [length_lookup]; omega, rfl⟩

theorem flushRule_ok (h : flushRule s = .ok t) :
    s.bitcnt = s.dlen ∧ (s.bitcnt.toNat % 8 ≠ 0 ∧ t = { emitByte s.acc s with acc := 0#8, phase := .edone } ∨
      s.bitcnt.toNat % 8 = 0 ∧ t = { s with phase := .edone }) := by
  unfold flushRule at h
  split at h
  · cases h
  · rename_i heq
    refine ⟨not_not.1 heq, ?_⟩
    split at h
    · cases h
      exact .inl ⟨‹_›, rfl⟩
    · rename_i h8
      cases h
      exact .inr ⟨not_not.1 h8, rfl⟩

theorem dendRule_ok (h : dendRule s = .ok t) : s.phase = .dtail ∧ t = { s with phase := .ddone } := by
  unfold dendRule at h
  split at h
  · cases h
    exact ⟨‹_›, rfl⟩
  · cases h

end Sys2Proof.Machine
end

section
/-!
Everything a header byte can do when it is taken, by the item of the artifact it belongs to (spec rules R88, R161).
-/
namespace Sys2Proof.Machine

/-- One header byte `b` taken in state `s`. -/
inductive HeaderMove (b : Byte) (s : State) : State → Prop where
  /-- Item 1. -/
  | magic (hk : s.hcnt.toNat ≤ 3) : HeaderMove b s (headerTaken s)
  /-- Item 2, bounded at its last byte. -/
  | size (h4 : 4 ≤ s.hcnt.toNat) (h5 : s.hcnt.toNat ≤ 5) (hn : s.hcnt.toNat = 5 → (shiftIn s.hn b).toNat ≤ 256) :
      HeaderMove b s (headerTaken { s with hn := shiftIn s.hn b })
  /-- Item 3, a pair's symbol, above the one before it. -/
  | symbol (h6 : 6 ≤ s.hcnt.toNat) (hk : s.hcnt.toNat < 6 + 5 * s.hn.toNat) (ho : (s.hcnt.toNat - 6) % 5 = 0)
      (hb : 0 < (s.hcnt.toNat - 6) / 5 → s.hsym < b) : HeaderMove b s (headerTaken { s with hsym := b })
  /-- Item 3, the first three bytes of a pair's frequency. -/
  | shifted (h6 : 6 ≤ s.hcnt.toNat) (hk : s.hcnt.toNat < 6 + 5 * s.hn.toNat) (h1 : 1 ≤ (s.hcnt.toNat - 6) % 5)
      (h3 : (s.hcnt.toNat - 6) % 5 ≤ 3) : HeaderMove b s (headerTaken { s with hshift := shiftIn s.hshift b })
  /-- Item 3, the last byte of a pair's frequency, which is not 0. -/
  | frequency (h6 : 6 ≤ s.hcnt.toNat) (hk : s.hcnt.toNat < 6 + 5 * s.hn.toNat) (ho : (s.hcnt.toNat - 6) % 5 = 4)
      (v : Count) (hv : v ≠ 0#32) :
      HeaderMove b s (headerTaken { s with freq := writeFreq s.freq s.hsym.toNat v, hshift := 0#64 })
  /-- Item 4 but for its last byte. -/
  | length (h6 : 6 + 5 * s.hn.toNat ≤ s.hcnt.toNat) (hk : s.hcnt.toNat < 13 + 5 * s.hn.toNat) :
      HeaderMove b s (headerTaken { s with hshift := shiftIn s.hshift b })
  /-- The last byte of item 4 ends the header (R162). -/
  | last (hk : 13 + 5 * s.hn.toNat ≤ s.hcnt.toNat) :
      HeaderMove b s { buildTree s with
        dlen := shiftIn s.hshift b, hshift := 0#64, bitcnt := 0#64, hcnt := s.hcnt + 1#11
        phase := if shiftIn s.hshift b = 0#64 then .dtail else .dpay }

variable {b : Byte} {s t : State}

theorem sizeByte_move (h4 : 4 ≤ s.hcnt.toNat) (h5 : s.hcnt.toNat ≤ 5) (h : sizeByte b s = .ok t) : HeaderMove b s t := by
  simp only [sizeByte] at h
  split at h
  · cases h
  · cases h
    exact .size h4 h5 (by omega)

theorem pairByte_move (h6 : 6 ≤ s.hcnt.toNat) (hk : s.hcnt.toNat < 6 + 5 * s.hn.toNat) (h : pairByte b s = .ok t) :
    HeaderMove b s t := by
  simp only [pairByte] at h
  split at h
  · rename_i ho
    split at h
    · cases h
    · rename_i hb
      cases h
      exact .symbol h6 hk ho fun hj => BitVec.not_le.1 fun hle => hb ⟨hj, hle⟩
  · split at h
    · cases h
      exact .shifted h6 hk (by omega) ‹_›
    · split at h
      · cases h
      · cases h
        exact .frequency h6 hk (by omega) _ ‹_›

theorem lengthByte_move (h6 : 6 + 5 * s.hn.toNat ≤ s.hcnt.toNat) (h : lengthByte b s = .ok t) : HeaderMove b s t := by
  simp only [lengthByte] at h
  split at h
  · cases h
    exact .length h6 ‹_›
  · obtain ⟨_, rfl⟩ := headerEnd_ok h
    exact .last (by omega)

theorem headerByte_move (h : headerByte b s = .ok t) : HeaderMove b s t := by
  unfold headerByte at h
  split at h
  · unfold magicByte at h
    split at h
    · cases h
      exact .magic ‹_›
    · cases h
  · split at h
    · exact sizeByte_move (by omega) ‹_› h
    · split at h
      · exact pairByte_move (by omega) ‹_› h
      · exact lengthByte_move (by omega) h

/-- A DBYTE that is taken is a byte of the header or of the payload. -/
theorem dbyteRule_ok (h : dbyteRule b s = .ok t) :
    ((s.phase = .idle ∨ s.phase = .dhdr) ∧ HeaderMove b s t) ∨ (s.phase = .dpay ∧ payloadByte b s = .ok t) := by
  unfold dbyteRule at h
  split at h
  case h_1 => exact .inl ⟨.inl ‹_›, headerByte_move h⟩
  case h_2 => exact .inl ⟨.inr ‹_›, headerByte_move h⟩
  case h_3 => exact .inr ⟨‹_›, h⟩
  all_goals cases h

end Sys2Proof.Machine
end

section
/-!
The canonical form of the memories is kept by every step (spec rules R26, R27, R29, R65).
-/
namespace Sys2Proof.Machine

open Sys2Proof.Safety

theorem HeaderMove.memoriesCanonical {b : Byte} {s t : State} (h : HeaderMove b s t) (hs : MemoriesCanonical s) :
    MemoriesCanonical t := by
  obtain ⟨hfreq, hnode, hcode⟩ := hs
  cases h with
  | frequency _ _ _ v _ => exact ⟨writeFreq_wf hfreq s.hsym v, hnode, hcode⟩
  | last _ => exact ⟨hfreq, buildTree_wf hnode, hcode⟩
  | magic | size | symbol | shifted | length => exact ⟨hfreq, hnode, hcode⟩

/-- The commands that write no memory; CNT, BUILD, GEN and DBYTE each write through an operation that keeps the form. -/
theorem Effects.memoriesCanonical {i : Instr} {s t : State} (e : Effects i s t) (hs : MemoriesCanonical s)
    (hcnt : ∀ x, i ≠ .cnt x) (hbuild : i ≠ .build) (hgen : i ≠ .gen) (hdbyte : ∀ b, i ≠ .dbyte b) :
    MemoriesCanonical t := by
  unfold MemoriesCanonical
  rw [e.freq hcnt hdbyte, (e.tree hbuild hdbyte).1, e.code hgen]
  exact hs

theorem ruleOf_memoriesCanonical {i : Instr} {s t : State} (h : ruleOf i s = .ok t) (e : Effects i s t)
    (hs : MemoriesCanonical s) : MemoriesCanonical t := by
  have ⟨hfreq, hnode, hcode⟩ := hs
  cases i with
  | cnt x =>
    obtain ⟨c, rfl⟩ := cntRule_ok h
    exact ⟨writeFreq_wf hfreq x c, hnode, hcode⟩
  | build =>
    cases buildRule_ok h
    exact ⟨hfreq, buildTree_wf hnode, hcode⟩
  | gen =>
    obtain ⟨c, hc, rfl⟩ := genRule_ok h
    exact ⟨hfreq, hnode, genTable_wf hc⟩
  | dbyte b =>
    rcases dbyteRule_ok h with ⟨_, hmove⟩ | ⟨_, hpay⟩
    · exact hmove.memoriesCanonical hs
    · obtain ⟨w, o, n, p, rfl, _⟩ := payloadByte_ok hpay
      exact hs
  | nop | rst | cfg | emith | enc | flush | dend =>
    exact e.memoriesCanonical hs (by simp) (by simp) (by simp) (by simp)

theorem memoriesCanonical_kept : KeptByRules MemoriesCanonical where
  cleared _ := reset_memories
  hostSide _ _ _ hs := hs
  fault _ _ _ _ hs := hs
  rule _ _ _ _ _ hr heff hs := ruleOf_memoriesCanonical hr heff hs

/-- Settles O52: every write of a rule goes through an operation that keeps the canonical form. -/
theorem stepKeepsMemoriesCanonical : Obligations.StepKeepsMemoriesCanonical :=
  fun _ _ hs h => memoriesCanonical_kept.step hs h

end Sys2Proof.Machine
end

section
/-!
Progress and preservation (spec rules R32, R71, R228): from a sound state every command completes, and leaves a sound state. The
tree of FREQ gives every index the decoder and GenTable meet, and each phase says whether the tree and the table are there.
-/
namespace Sys2Proof.Safety

open Sys2Proof.Machine

/-- Soundness reads only FREQ, the tree, the table, WALK and what PHASE says of the two. -/
theorem Sound.congr {s t : State} (hs : Sound s) (hfreq : t.freq = s.freq) (hcode : t.code = s.code)
    (htree : t.node = s.node ∧ t.nleaf = s.nleaf ∧ t.nn = s.nn ∧ t.root = s.root ∧ t.walk = s.walk)
    (hphase : hasTree t.phase = hasTree s.phase ∧ hasTable t.phase = hasTable s.phase) : Sound t := by
  obtain ⟨hnode, hnleaf, hnn, hroot, hwalk⟩ := htree
  simpa only [Sound, TablesCurrent, TreeOfFreq, TreeClear, WalkSound, buildTree, hfreq, hcode, hnode, hnleaf, hnn, hroot, hwalk,
    hphase.1, hphase.2] using hs

section
variable {s : State}

theorem Sound.treeOfFreq (hs : Sound s) (h : hasTree s.phase = true) : TreeOfFreq s := by
  have := hs.1.1
  rwa [if_pos h] at this

theorem Sound.treeClear (hs : Sound s) (h : hasTree s.phase = false) : TreeClear s := by
  have := hs.1.1
  rwa [if_neg (by simp [h])] at this

theorem Sound.code_eq_nil (hs : Sound s) (h : hasTable s.phase = false) : s.code = [] := by
  have := hs.1.2
  rwa [if_neg (by simp [h])] at this

/-- In a phase before the tree: clear tree, no table. -/
theorem sound_of_clear (htree : hasTree s.phase = false) (htable : hasTable s.phase = false) (ht : TreeClear s)
    (hc : s.code = []) (hw : s.walk = s.root) : Sound s :=
  ⟨⟨by rwa [if_neg (by simp [htree])], by rwa [if_neg (by simp [htable])]⟩, .inl hw⟩

/-- In a phase with the tree and without the table. -/
theorem sound_of_tree (htree : hasTree s.phase = true) (htable : hasTable s.phase = false) (ht : TreeOfFreq s)
    (hc : s.code = []) (hw : WalkSound s) : Sound s :=
  ⟨⟨by rwa [if_pos htree], by rwa [if_neg (by simp [htable])]⟩, hw⟩

/-- Before the tree there is no internal node, so WALK is ROOT. -/
theorem Sound.walk_eq_root (hs : Sound s) (h : hasTree s.phase = false) : s.walk = s.root := by
  obtain ⟨_, _, hnn, _⟩ := hs.treeClear h
  refine hs.2.resolve_right fun hin => ?_
  rw [hnn] at hin
  exact absurd hin.1 (by simp)

end

end Sys2Proof.Safety

namespace Sys2Proof.Machine

open Sys2Proof.Safety

/-! ### The payload walk -/

theorem treeOfFreq_root_lt {s : State} (ht : TreeOfFreq s) : s.root.toNat < 511 := by
  rcases treeOfFreq_cases ht with ⟨_, _, _, hroot⟩ | ⟨T, _, _, _, hperm, hroot, _, hle⟩
  · simp [hroot]
  · have := List.mem_range.1 (hperm.mem_iff.1 T.idx_mem)
    omega

/-- A walked bit raises CorruptArtifact or goes on walking (R163, R165). -/
theorem decBit_sound {s : State} (ht : TreeOfFreq s) (hw : WalkSound s) (b : Bool) :
    decBit b s = corrupt ∨ ∃ t, decBit b s = .ok t ∧ WalkSound t := by
  cases hroot : (readNode s.node s.root.toNat).leaf with
  | true =>
    unfold decBit
    simp only [fetchNode_of_lt (treeOfFreq_root_lt ht), hroot, if_true]
    cases b with
    | true => exact .inl rfl
    | false => exact .inr ⟨_, rfl, hw⟩
  | false =>
    refine .inr ⟨_, decBit_childOf ht hw hroot b, ?_⟩
    split
    · exact .inl rfl
    · rename_i hleaf
      exact (treeOfFreq_walk ht hw hroot b).2.2.2 (by simpa using hleaf)

theorem payloadBit_sound {s : State} (ht : TreeOfFreq s) (hw : WalkSound s) (b : Bool) :
    payloadBit b s = corrupt ∨ ∃ t, payloadBit b s = .ok t ∧ WalkSound t := by
  unfold payloadBit
  split
  · rcases decBit_sound ht hw b with hbit | ⟨t, hbit, hwt⟩
    · exact .inl (by rw [hbit]; rfl)
    · simp only [hbit]
      split
      · exact .inl rfl
      · exact .inr ⟨t, rfl, hwt⟩
  · split
    · exact .inl rfl
    · exact .inr ⟨s, rfl, hw⟩

theorem payloadBits_sound (c : BitString) {s : State} (ht : TreeOfFreq s) (hw : WalkSound s) :
    payloadBits c s = corrupt ∨ ∃ t, payloadBits c s = .ok t ∧ WalkSound t := by
  induction c generalizing s with
  | nil => exact .inr ⟨s, rfl, hw⟩
  | cons b c ih =>
    simp only [payloadBits]
    rcases payloadBit_sound ht hw b with hbit | ⟨t, hbit, hwt⟩
    · exact .inl (by rw [hbit]; rfl)
    · simp only [hbit]
      obtain ⟨w, o, n, rfl, _⟩ := payloadBit_ok hbit
      exact ih ht hwt

/-- A payload byte raises CorruptArtifact or goes on walking (R164). -/
theorem payloadByte_sound {s : State} (ht : TreeOfFreq s) (hw : WalkSound s) (b : Byte) :
    payloadByte b s = corrupt ∨ ∃ t, payloadByte b s = .ok t ∧ WalkSound t := by
  unfold payloadByte
  rcases payloadBits_sound (bitsOf b) ht hw with hbits | ⟨t, hbits, hwt⟩
  · exact .inl (by rw [hbits]; rfl)
  · simp only [hbits]
    refine .inr ⟨_, rfl, ?_⟩
    split <;> exact hwt

/-! ### Progress -/

theorem genTable_of_sound {s : State} (hs : Sound s) : ∃ c, genTable s.nn s.root s.node = .ok c := by
  cases h : hasTree s.phase with
  | true =>
    rcases treeOfFreq_genTable (hs.treeOfFreq h) with ⟨_, hgen⟩ | ⟨_, c, _, _, _, _, hgen, _⟩
    · exact ⟨_, hgen⟩
    · exact ⟨c, hgen⟩
  | false =>
    obtain ⟨_, _, hnn, _⟩ := hs.treeClear h
    exact ⟨[], by rw [hnn]; exact genTable_empty _ _⟩

/-- Only a payload byte could stop DBYTE, and it raises instead. -/
theorem dbyteRule_not_stopped {s : State} (hs : Sound s) (b : Byte) (f : Fault) : dbyteRule b s ≠ .error (.stopped f) := by
  intro h
  unfold dbyteRule at h
  split at h
  case h_1 => cases headerByte_error h
  case h_2 => cases headerByte_error h
  case h_3 hp =>
    rcases payloadByte_sound (hs.treeOfFreq (by rw [hp]; rfl)) hs.2 b with hbyte | ⟨t, hbyte, _⟩
    · rw [hbyte] at h
      cases h
    · rw [hbyte] at h
      cases h
  all_goals cases h

theorem ruleOf_not_stopped {s : State} (hs : Sound s) (i : Instr) (f : Fault) : ruleOf i s ≠ .error (.stopped f) := by
  cases i with
  | gen =>
    obtain ⟨c, hc⟩ := genTable_of_sound hs
    simp [ruleOf, genRule, hc]
  | dbyte b => exact dbyteRule_not_stopped hs b f
  | nop | rst | cfg | emith => simp [ruleOf, cfgRule, emithRule]
  | cnt x =>
    simp only [ruleOf, cntRule]
    split <;> simp
  | build =>
    simp only [ruleOf, buildRule]
    split <;> simp
  | enc x =>
    simp only [ruleOf, encRule]
    split
    · simp
    · split <;> simp
  | flush =>
    simp only [ruleOf, flushRule]
    split
    · simp
    · split <;> simp
  | dend =>
    simp only [ruleOf, dendRule, corrupt]
    split <;> simp

theorem exec_next_of_sound {s : State} (hs : Sound s) (i : Instr) : ∃ t, exec i s = .next t := by
  by_cases hi : i = .rst
  · exact ⟨_, by rw [hi]; exact exec_rst s⟩
  · rw [exec_eq_execute s hi]
    exact execute_next (ruleOf_not_stopped hs i)

/-! ### Preservation -/

theorem HeaderMove.sound {b : Byte} {s t : State} (h : HeaderMove b s t) (hp : s.phase = .idle ∨ s.phase = .dhdr)
    (hs : Sound s) : Sound t := by
  have htree : hasTree s.phase = false := apply_phase_eq hp rfl rfl
  have htable : hasTable s.phase = false := apply_phase_eq hp rfl rfl
  have hclear := hs.treeClear htree
  have hcode := hs.code_eq_nil htable
  have hwalk := hs.walk_eq_root htree
  cases h with
  | last _ =>
    refine sound_of_tree ?_ ?_ (treeOfFreq_buildTree (s := s) hclear.1 rfl rfl rfl rfl rfl) hcode (.inl rfl)
    · simp only; split <;> rfl
    · simp only; split <;> rfl
  | magic | size | symbol | shifted | frequency | length => exact sound_of_clear rfl rfl hclear hcode hwalk

/-- The commands that write no tree and no table: EMITH, FLUSH and DEND move between phases that have the same ones. -/
theorem Effects.sound {i : Instr} {s t : State} (e : Effects i s t) (hs : Sound s)
    (hcnt : ∀ x, i ≠ .cnt x) (hbuild : i ≠ .build) (hgen : i ≠ .gen) (hdbyte : ∀ b, i ≠ .dbyte b) : Sound t := by
  refine hs.congr (e.freq hcnt hdbyte) (e.code hgen) (e.tree hbuild hdbyte) ?_
  by_cases hp : t.phase = s.phase
  · rw [hp]
    exact ⟨rfl, rfl⟩
  · rcases e.phase hp with h | h | h | ⟨_, hps, hpt⟩ | ⟨_, hps, hpt⟩ | h | h | h | ⟨_, hps, hpt⟩
    · exact absurd h.1 (by simpa using hcnt)
    · exact absurd h.1 hbuild
    · exact absurd h.1 hgen
    · rw [hps, hpt]; exact ⟨rfl, rfl⟩
    · rw [hps, hpt]; exact ⟨rfl, rfl⟩
    · exact absurd h.1 (by simpa using hdbyte)
    · exact absurd h.1 (by simpa using hdbyte)
    · exact absurd h.1 (by simpa using hdbyte)
    · rw [hps, hpt]; exact ⟨rfl, rfl⟩

/-- CNT and BUILD are taken before there is a tree or a table. -/
theorem clear_of_idle_or_count {p : Phase} (h : p = .idle ∨ p = .count) : hasTree p = false ∧ hasTable p = false :=
  ⟨apply_phase_eq h rfl rfl, apply_phase_eq h rfl rfl⟩

theorem ruleOf_sound {i : Instr} {s t : State} (ha : accepts i s.phase = true) (h : ruleOf i s = .ok t) (e : Effects i s t)
    (hs : Sound s) : Sound t := by
  cases i with
  | cnt x =>
    obtain ⟨htree, htable⟩ := clear_of_idle_or_count (p := s.phase) (by simpa [accepts] using ha)
    obtain ⟨c, rfl⟩ := cntRule_ok h
    exact sound_of_clear rfl rfl (hs.treeClear htree) (hs.code_eq_nil htable) (hs.walk_eq_root htree)
  | build =>
    obtain ⟨htree, htable⟩ := clear_of_idle_or_count (p := s.phase) (by simpa [accepts] using ha)
    cases buildRule_ok h
    exact sound_of_tree rfl rfl (treeOfFreq_buildTree (s := s) (hs.treeClear htree).1 rfl rfl rfl rfl rfl)
      (hs.code_eq_nil htable) (.inl rfl)
  | gen =>
    have hp : s.phase = .tree := by simpa [accepts] using ha
    obtain ⟨c, hc, rfl⟩ := genRule_ok h
    exact ⟨⟨hs.treeOfFreq (by rw [hp]; rfl), hc⟩, hs.2⟩
  | dbyte b =>
    rcases dbyteRule_ok h with ⟨hp, hmove⟩ | ⟨hp, hpay⟩
    · exact hmove.sound hp hs
    · have ht : TreeOfFreq s := hs.treeOfFreq (by rw [hp]; rfl)
      have hc : s.code = [] := hs.code_eq_nil (by rw [hp]; rfl)
      rcases payloadByte_sound ht hs.2 b with hbyte | ⟨u, hbyte, hw⟩
      · rw [hbyte] at hpay
        cases hpay
      · cases hbyte.symm.trans hpay
        obtain ⟨w, o, n, p, rfl, _, hphase⟩ := payloadByte_ok hpay
        rw [hp] at hphase
        exact sound_of_tree (apply_phase_eq hphase rfl rfl) (apply_phase_eq hphase rfl rfl) ht hc hw
  | nop | rst | cfg | emith | enc | flush | dend => exact e.sound hs (by simp) (by simp) (by simp) (by simp)

theorem sound_kept : KeptByRules Sound where
  cleared _ := sound_of_clear rfl rfl ⟨rfl, rfl, rfl, rfl⟩ rfl rfl
  hostSide _ _ _ hs := hs.congr rfl rfl ⟨rfl, rfl, rfl, rfl, rfl⟩ ⟨rfl, rfl⟩
  fault _ _ _ _ hs := hs.congr rfl rfl ⟨rfl, rfl, rfl, rfl, rfl⟩ ⟨rfl, rfl⟩
  rule _ _ _ _ ha hr heff hs := ruleOf_sound ha hr heff hs

/-- Settles O54: no rule stops in a sound state, and every rule keeps soundness. -/
theorem soundStateNeverStops : Obligations.SoundStateNeverStops := by
  intro s hs
  obtain ⟨t, ht⟩ := step_next fun i rest => exec_next_of_sound (sound_kept.hostSide s rest s.statData hs) i
  exact ⟨t, ht, sound_kept.step hs ht⟩

end Sys2Proof.Machine
end

section
/-!
The payload registers DLEN, BITCNT and ACC phase by phase (spec rules R30, R31, R164).
-/
namespace Sys2Proof.Machine

open Sys2Proof.Safety

/-- The phases before any payload, in which DLEN, BITCNT and ACC are still 0. -/
def beforePayload : Phase → Bool
  | .idle | .count | .tree | .table | .dhdr => true
  | .encode | .edone | .dpay | .dtail | .ddone => false

theorem accClean_of_acc_eq_zero {s : State} (h : s.acc = 0#8) : AccClean s := by
  intro k _
  rw [h]
  exact BitVec.getLsbD_zero

/-- On a byte boundary ACC holds no payload bit, so a clean ACC is 0 (R31). -/
theorem acc_eq_zero_of_accClean {s : State} (h : AccClean s) (h8 : s.bitcnt.toNat % 8 = 0) : s.acc = 0#8 := by
  refine BitVec.eq_of_getLsbD_eq fun k hk => ?_
  rw [h k (by omega), BitVec.getLsbD_zero]

theorem payloadSound_iff_of_before {s : State} (h : beforePayload s.phase = true) :
    PayloadSound s ↔ s.dlen = 0#64 ∧ s.bitcnt = 0#64 ∧ s.acc = 0#8 := by
  constructor
  · rintro ⟨_, _, hs⟩
    split at hs
    case h_1 | h_2 | h_3 | h_4 | h_5 => exact hs
    all_goals (rename_i hp; rw [hp] at h; cases h)
  · intro hs
    have ⟨hd, hb, ha⟩ := hs
    refine ⟨by rw [hd, hb], accClean_of_acc_eq_zero ha, ?_⟩
    split
    case h_1 | h_2 | h_3 | h_4 | h_5 => exact hs
    all_goals (rename_i hp; rw [hp] at h; cases h)

theorem HeaderMove.payloadSound {b : Byte} {s t : State} (h : HeaderMove b s t) (hp : s.phase = .idle ∨ s.phase = .dhdr)
    (hs : PayloadSound s) : PayloadSound t := by
  rw [payloadSound_iff_of_before (apply_phase_eq hp rfl rfl)] at hs
  cases h with
  | last _ =>
    refine ⟨Nat.zero_le _, accClean_of_acc_eq_zero hs.2.2, ?_⟩
    by_cases hv : shiftIn s.hshift b = 0#64
    · simp only [hv, if_true]
      exact ⟨trivial, rfl, hs.2.2⟩
    · simp only [hv, if_false]
      refine ⟨?_, rfl, hs.2.2⟩
      have hne : (shiftIn s.hshift b).toNat ≠ 0 := fun e => hv (BitVec.eq_of_toNat_eq e)
      simpa using Nat.pos_of_ne_zero hne
  | magic | size | symbol | shifted | frequency | length => exact (payloadSound_iff_of_before rfl).2 hs

/-- A payload byte that is taken (R164): BITCNT and where the walk stands when it reaches DLEN. -/
theorem payloadByte_taken {b : Byte} {s t : State} (h : payloadByte b s = .ok t) (hlt : s.bitcnt.toNat < s.dlen.toNat) :
    ∃ w o n, n.toNat = min (s.bitcnt.toNat + 8) s.dlen.toNat ∧ (n = s.dlen → w = s.root) ∧
      t = { s with walk := w, outs := o, bitcnt := n, phase := if n = s.dlen then .dtail else s.phase } := by
  unfold payloadByte at h
  split at h
  · cases h
  · rename_i u hu
    obtain ⟨hn, hw, _⟩ := payloadBits_taken _ hu hlt.le fun e => absurd (congrArg BitVec.toNat e) hlt.ne
    obtain ⟨w, o, n, rfl, _⟩ := payloadBits_ok hu
    cases h
    refine ⟨w, o, n, hn, hw, ?_⟩
    simp only
    split <;> rfl

theorem payloadByte_payloadSound {b : Byte} {s t : State} (h : payloadByte b s = .ok t) (hp : s.phase = .dpay)
    (hs : PayloadSound s) : PayloadSound t := by
  simp only [PayloadSound, hp] at hs
  obtain ⟨_, _, hlt, h8, hacc⟩ := hs
  obtain ⟨w, o, n, hn, hw, rfl⟩ := payloadByte_taken h hlt
  refine ⟨by simp only; omega, accClean_of_acc_eq_zero hacc, ?_⟩
  by_cases he : n = s.dlen
  · simp only [he, if_true]
    exact ⟨trivial, hw he, hacc⟩
  · have hne : n.toNat ≠ s.dlen.toNat := fun e => he (BitVec.eq_of_toNat_eq e)
    simp only [he, if_false, hp]
    exact ⟨by omega, by omega, hacc⟩

theorem emithRule_payloadSound {s t : State} (h : emithRule s = .ok t) : PayloadSound t := by
  cases h
  have hlt := declaredLength_lt s.freq s.code
  refine ⟨Nat.zero_le _, accClean_of_acc_eq_zero rfl, ?_⟩
  simp only [BitVec.toNat_ofNat, emitBytes_freq, emitBytes_code]
  exact Nat.mod_eq_of_lt (by omega)

theorem encRule_payloadSound {x : Sym} {s t : State} (h : encRule x s = .ok t) (hp : s.phase = .encode)
    (hs : PayloadSound s) : PayloadSound t := by
  simp only [PayloadSound, hp] at hs
  obtain ⟨_, hclean, hd⟩ := hs
  obtain ⟨hfits, rfl⟩ := encRule_ok h
  have hlt := s.dlen.isLt
  obtain ⟨hcnt, _, hclean'⟩ := putBits_packed (lookup s.code x) s hclean (by omega)
  obtain ⟨a, n, o, he, _⟩ := putBits_frame (lookup s.code x) s
  rw [he] at hcnt hclean' ⊢
  refine ⟨by simp only at hcnt ⊢; omega, hclean', ?_⟩
  simp only [hp]
  exact hd

theorem flushRule_payloadSound {s t : State} (h : flushRule s = .ok t) (hp : s.phase = .encode) (hs : PayloadSound s) :
    PayloadSound t := by
  simp only [PayloadSound, hp] at hs
  obtain ⟨hle, hclean, hd⟩ := hs
  obtain ⟨he, ⟨_, rfl⟩ | ⟨h8, rfl⟩⟩ := flushRule_ok h
  · exact ⟨hle, accClean_of_acc_eq_zero rfl, hd, he, rfl⟩
  · exact ⟨hle, hclean, hd, he, acc_eq_zero_of_accClean hclean h8⟩

theorem dendRule_payloadSound {s t : State} (h : dendRule s = .ok t) (hs : PayloadSound s) : PayloadSound t := by
  obtain ⟨hp, rfl⟩ := dendRule_ok h
  simp only [PayloadSound, hp] at hs
  exact hs

theorem ruleOf_payloadSound {i : Instr} {s t : State} (hi : i ≠ .rst) (ha : accepts i s.phase = true)
    (h : ruleOf i s = .ok t) (hs : PayloadSound s) : PayloadSound t := by
  cases i with
  | nop => cases h; exact hs
  | rst => exact absurd rfl hi
  | cfg imm => cases h; exact hs
  | cnt x =>
    have hp : s.phase = .idle ∨ s.phase = .count := by simpa [accepts] using ha
    rw [payloadSound_iff_of_before (apply_phase_eq hp rfl rfl)] at hs
    obtain ⟨c, rfl⟩ := cntRule_ok h
    exact (payloadSound_iff_of_before rfl).2 hs
  | build =>
    have hp : s.phase = .idle ∨ s.phase = .count := by simpa [accepts] using ha
    rw [payloadSound_iff_of_before (apply_phase_eq hp rfl rfl)] at hs
    cases buildRule_ok h
    exact (payloadSound_iff_of_before rfl).2 hs
  | gen =>
    have hp : s.phase = .tree := by simpa [accepts] using ha
    rw [payloadSound_iff_of_before (by rw [hp]; rfl)] at hs
    obtain ⟨c, _, rfl⟩ := genRule_ok h
    exact (payloadSound_iff_of_before rfl).2 hs
  | emith => exact emithRule_payloadSound h
  | enc x => exact encRule_payloadSound h (by simpa [accepts] using ha) hs
  | flush => exact flushRule_payloadSound h (by simpa [accepts] using ha) hs
  | dbyte b =>
    rcases dbyteRule_ok h with ⟨hp, hmove⟩ | ⟨hp, hpay⟩
    · exact hmove.payloadSound hp hs
    · exact payloadByte_payloadSound hpay hp hs
  | dend => exact dendRule_payloadSound h hs

theorem payloadSound_kept : KeptByRules PayloadSound where
  cleared _ := (payloadSound_iff_of_before rfl).2 ⟨rfl, rfl, rfl⟩
  hostSide _ _ _ hs := hs
  fault _ _ _ _ hs := hs
  rule _ _ _ hi ha hr _ hs := ruleOf_payloadSound hi ha hr hs

/-- Settles O55, by the phases each rule moves between. -/
theorem stepKeepsPayloadSound : Obligations.StepKeepsPayloadSound :=
  fun _ _ hs h => payloadSound_kept.step hs h

end Sys2Proof.Machine
end

section
/-!
The header parser's registers phase by phase (spec rules R33, R161, R162): what has been parsed after `k` bytes, as arithmetic on
`k`, and that each kind of byte takes it one byte further.
-/
namespace Sys2Proof.Machine

open Sys2Proof.Safety

theorem presentCount_eq_zero {m : Memory Count} (h : presentCount m = 0) (x : Sym) : readFreq m x.toNat = 0#32 :=
  present_eq_nil.1 (List.eq_nil_of_length_eq_zero h) _ x.isLt

theorem presentCount_nil : presentCount [] = 0 := by
  rw [presentCount_eq, present_eq_nil.2 fun _ _ => rfl]
  rfl

/-- A new pair adds one present symbol. -/
theorem presentCount_writeFreq {m : Memory Count} {x : Sym} {v : Count} (hx : readFreq m x.toNat = 0#32) (hv : v ≠ 0#32) :
    presentCount (writeFreq m x.toNat v) = presentCount m + 1 := by
  have hnew : x.toNat ∉ present m := fun h => (mem_present.1 h).2 hx
  have hperm : (present (writeFreq m x.toNat v)).Perm (x.toNat :: present m) := by
    refine (List.perm_ext_iff_of_nodup (present_nodup _) (List.nodup_cons.2 ⟨hnew, present_nodup m⟩)).2 fun i => ?_
    rw [List.mem_cons, mem_present, mem_present, readFreq_writeFreq]
    by_cases hi : i = x.toNat
    · have := x.isLt
      simp [hi, hv, this]
    · simp [hi]
  simpa [presentCount_eq] using hperm.length_eq

/-- What HN = `n`, FREQ, HSYM = `y` and HSHIFT = `z` hold after `k` bytes of a header that is not complete. -/
structure HeaderParsed (k n : Nat) (freq : Memory Count) (y : Sym) (z : BitLen) : Prop where
  unsized : k ≤ 4 → n = 0
  halfSized : k = 5 → n ≤ 255
  sized : 6 ≤ k → n ≤ 256 ∧ k ≤ 13 + 5 * n
  pairs : presentCount freq = min ((k - 6) / 5) n
  symbols : ∀ x : Sym, readFreq freq x.toNat ≠ 0#32 → x ≤ y ∧ (k < 6 + 5 * n → (k - 6) % 5 ≠ 0 → x < y)
  shift : k ≤ 6 ∨ k = 6 + 5 * n ∨ (k < 6 + 5 * n ∧ (k - 6) % 5 ≤ 1) → z = 0#64

namespace HeaderParsed

variable {k n : Nat} {freq : Memory Count} {y : Sym} {z : BitLen}

theorem no_pair (h : HeaderParsed k n freq y z) (hk : k ≤ 10) (x : Sym) : readFreq freq x.toNat = 0#32 :=
  presentCount_eq_zero (by rw [h.pairs]; omega) x

theorem magic (h : HeaderParsed k n freq y z) (hk : k ≤ 3) : HeaderParsed (k + 1) n freq y z where
  unsized _ := h.unsized (by omega)
  halfSized _ := by omega
  sized _ := by omega
  pairs := by rw [h.pairs]; omega
  symbols x hx := absurd (h.no_pair (by omega) x) hx
  shift _ := h.shift (by omega)

theorem size (h : HeaderParsed k n freq y z) (h4 : 4 ≤ k) (h5 : k ≤ 5) {n' : Nat} (hn4 : k = 4 → n' ≤ 255)
    (hn5 : k = 5 → n' ≤ 256) : HeaderParsed (k + 1) n' freq y z where
  unsized _ := by omega
  halfSized _ := by omega
  sized _ := by omega
  pairs := by rw [h.pairs]; omega
  symbols x hx := absurd (h.no_pair (by omega) x) hx
  shift _ := h.shift (by omega)

theorem symbol (h : HeaderParsed k n freq y z) (h6 : 6 ≤ k) (hk : k < 6 + 5 * n) (ho : (k - 6) % 5 = 0) {b : Sym}
    (hb : 0 < (k - 6) / 5 → y < b) : HeaderParsed (k + 1) n freq b z where
  unsized _ := by omega
  halfSized _ := by omega
  sized _ := ⟨(h.sized h6).1, by omega⟩
  pairs := by rw [h.pairs]; omega
  symbols x hx := by
    have hlt : x < b := by
      by_cases hj : 0 < (k - 6) / 5
      · have hle := (h.symbols x hx).1
        have hlt := hb hj
        bv_omega
      · exact absurd (h.no_pair (by omega) x) hx
    exact ⟨BitVec.le_of_lt hlt, fun _ _ => hlt⟩
  shift _ := h.shift (by omega)

theorem shifted (h : HeaderParsed k n freq y z) (h6 : 6 ≤ k) (hk : k < 6 + 5 * n) (h1 : 1 ≤ (k - 6) % 5)
    (h3 : (k - 6) % 5 ≤ 3) (z' : BitLen) : HeaderParsed (k + 1) n freq y z' where
  unsized _ := by omega
  halfSized _ := by omega
  sized _ := ⟨(h.sized h6).1, by omega⟩
  pairs := by rw [h.pairs]; omega
  symbols x hx := ⟨(h.symbols x hx).1, fun _ _ => (h.symbols x hx).2 hk (by omega)⟩
  shift _ := by omega

theorem frequency (h : HeaderParsed k n freq y z) (h6 : 6 ≤ k) (hk : k < 6 + 5 * n) (ho : (k - 6) % 5 = 4) {v : Count}
    (hv : v ≠ 0#32) : HeaderParsed (k + 1) n (writeFreq freq y.toNat v) y 0#64 where
  unsized _ := by omega
  halfSized _ := by omega
  sized _ := ⟨(h.sized h6).1, by omega⟩
  pairs := by
    have hnew : readFreq freq y.toNat = 0#32 := by
      by_contra hy
      exact absurd ((h.symbols y hy).2 hk (by omega)) (BitVec.lt_irrefl y)
    rw [presentCount_writeFreq hnew hv, h.pairs]
    omega
  symbols x hx := by
    refine ⟨?_, fun _ _ => by omega⟩
    rw [readFreq_writeFreq] at hx
    split at hx
    · rename_i he
      exact BitVec.le_of_eq (BitVec.eq_of_toNat_eq he)
    · exact (h.symbols x hx).1
  shift _ := rfl

theorem length (h : HeaderParsed k n freq y z) (hn : 6 + 5 * n ≤ k) (h6 : 6 ≤ k) (hk : k < 13 + 5 * n) (z' : BitLen) :
    HeaderParsed (k + 1) n freq y z' where
  unsized _ := by omega
  halfSized _ := by omega
  sized _ := ⟨(h.sized h6).1, by omega⟩
  pairs := by rw [h.pairs]; omega
  symbols x hx := ⟨(h.symbols x hx).1, fun _ _ => by omega⟩
  shift _ := by omega

end HeaderParsed

/-- HCNT, HN, FREQ, HSYM and HSHIFT are those of a header in progress. -/
def Parsing (s : State) : Prop := HeaderParsed s.hcnt.toNat s.hn.toNat s.freq s.hsym s.hshift

theorem headerSound_dhdr {s : State} (hp : s.phase = .dhdr) : HeaderSound s ↔ 1 ≤ s.hcnt.toNat ∧ Parsing s := by
  simp only [HeaderSound, hp]
  constructor
  · rintro ⟨h1, h4, h5, h6, hpairs, hsyms, hshift⟩
    exact ⟨h1, fun h => by rw [h4 h]; rfl, h5, h6, hpairs, hsyms, hshift⟩
  · rintro ⟨h1, h4, h5, h6, hpairs, hsyms, hshift⟩
    exact ⟨h1, fun h => BitVec.eq_of_toNat_eq (h4 h), h5, h6, hpairs, hsyms, hshift⟩

/-- The phases of an encode call, and those before the first header byte. -/
def beforeHeader : Phase → Bool
  | .idle | .count | .tree | .table | .encode | .edone => true
  | .dhdr | .dpay | .dtail | .ddone => false

theorem registers_zero_of_beforeHeader {s : State} (hs : HeaderSound s) (hp : beforeHeader s.phase = true) :
    s.hcnt = 0#11 ∧ s.hn = 0#16 ∧ s.hsym = 0#8 ∧ s.hshift = 0#64 := by
  unfold HeaderSound at hs
  split at hs
  case h_1 =>
    obtain ⟨hk, hn, hy, hz, _⟩ := hs
    exact ⟨hk, hn, hy, hz⟩
  case h_2 | h_3 | h_4 | h_5 | h_6 => exact hs
  all_goals (rename_i hph; rw [hph] at hp; cases hp)

theorem headerSound_of_registers_zero {s : State} (h : s.hcnt = 0#11 ∧ s.hn = 0#16 ∧ s.hsym = 0#8 ∧ s.hshift = 0#64)
    (hp : beforeHeader s.phase = true) (hidle : s.phase ≠ .idle) : HeaderSound s := by
  unfold HeaderSound
  split
  case h_1 => exact absurd ‹_› hidle
  case h_2 | h_3 | h_4 | h_5 | h_6 => exact h
  all_goals (rename_i hph; rw [hph] at hp; cases hp)

/-- After the header (R162). -/
theorem headerSound_of_complete {s : State} (hp : s.phase = .dpay ∨ s.phase = .dtail) (hn : s.hn.toNat ≤ 256)
    (hk : s.hcnt.toNat = 14 + 5 * s.hn.toNat) (hz : s.hshift = 0#64) (hl : s.nleaf.toNat = s.hn.toNat) : HeaderSound s := by
  unfold HeaderSound
  rcases hp with hp | hp <;> (rw [hp]; exact ⟨hn, hk, hz, hl⟩)

theorem parsing_of_idle {s : State} (hs : HeaderSound s) (hp : s.phase = .idle) : Parsing s := by
  simp only [HeaderSound, hp] at hs
  obtain ⟨hk, hn, _, hz, hcount⟩ := hs
  unfold Parsing
  rw [hk, hn, hz]
  exact ⟨fun _ => rfl, by simp, by simp, by simpa using hcount,
    fun x hx => absurd (presentCount_eq_zero hcount x) hx, fun _ => rfl⟩

/-- A header byte that is not the last. -/
theorem headerSound_headerTaken {s : State} (hk : (s.hcnt + 1#11).toNat = s.hcnt.toNat + 1)
    (h : HeaderParsed (s.hcnt.toNat + 1) s.hn.toNat s.freq s.hsym s.hshift) : HeaderSound (headerTaken s) := by
  refine (headerSound_dhdr rfl).2 ⟨?_, ?_⟩
  · rw [headerTaken_hcnt, hk]
    omega
  · unfold Parsing
    rw [headerTaken_hcnt, hk]
    exact h

theorem HeaderMove.headerSound {b : Byte} {s t : State} (h : HeaderMove b s t) (hs : Parsing s) : HeaderSound t := by
  have hk : (s.hcnt + 1#11).toNat = s.hcnt.toNat + 1 := by
    have := hs.sized
    rw [BitVec.toNat_add]
    simp
    omega
  cases h with
  | magic h3 => exact headerSound_headerTaken hk (hs.magic h3)
  | size h4 h5 hn =>
    refine headerSound_headerTaken hk (hs.size h4 h5 (fun e => ?_) hn)
    have := b.isLt
    rw [shiftIn_toNat (by omega), hs.unsized e.le]
    omega
  | symbol h6 hlt ho hb => exact headerSound_headerTaken hk (hs.symbol h6 hlt ho hb)
  | shifted h6 hlt h1 h3 => exact headerSound_headerTaken hk (hs.shifted h6 hlt h1 h3 _)
  | frequency h6 hlt ho v hv => exact headerSound_headerTaken hk (hs.frequency h6 hlt ho hv)
  | length hn hlt => exact headerSound_headerTaken hk (hs.length hn (by omega) hlt _)
  | last hend =>
    obtain ⟨hn, hle⟩ := hs.sized (by omega)
    have hnleaf : (buildTree s).nleaf.toNat = s.hn.toNat := by
      rw [buildTree_nleaf, (placeLeaves_spec s.freq s.node).1, ← presentCount_eq, hs.pairs, BitVec.toNat_ofNat]
      omega
    refine headerSound_of_complete ?_ hn (hk.trans (by rw [buildTree_hn]; omega)) rfl hnleaf
    simp only
    split
    · exact .inr rfl
    · exact .inl rfl

theorem payloadByte_headerSound {b : Byte} {s t : State} (h : payloadByte b s = .ok t) (hp : s.phase = .dpay)
    (hs : HeaderSound s) : HeaderSound t := by
  obtain ⟨w, o, n, p, rfl, _, hphase⟩ := payloadByte_ok h
  simp only [HeaderSound, hp] at hs
  rw [hp] at hphase
  rcases hphase with rfl | rfl <;> exact hs

/-- The registers stay at 0 through an encode call. -/
theorem Effects.headerSound {i : Instr} {s t : State} (e : Effects i s t) (hs : HeaderSound s)
    (hsp : beforeHeader s.phase = true) (htp : beforeHeader t.phase = true) (hidle : t.phase ≠ .idle)
    (hdbyte : ∀ b, i ≠ .dbyte b) : HeaderSound t := by
  refine headerSound_of_registers_zero ?_ htp hidle
  obtain ⟨hk, hn, hy, hz⟩ := e.header hdbyte
  rw [hk, hn, hy, hz]
  exact registers_zero_of_beforeHeader hs hsp

theorem ruleOf_headerSound {i : Instr} {s t : State} (hi : i ≠ .rst) (ha : accepts i s.phase = true)
    (h : ruleOf i s = .ok t) (e : Effects i s t) (hs : HeaderSound s) : HeaderSound t := by
  cases i with
  | nop => cases h; exact hs
  | rst => exact absurd rfl hi
  | cfg imm => cases h; exact hs
  | cnt x =>
    have hp : s.phase = .idle ∨ s.phase = .count := by simpa [accepts] using ha
    obtain ⟨c, rfl⟩ := cntRule_ok h
    exact e.headerSound hs (apply_phase_eq hp rfl rfl) rfl (by simp) (by simp)
  | build =>
    have hp : s.phase = .idle ∨ s.phase = .count := by simpa [accepts] using ha
    cases buildRule_ok h
    exact e.headerSound hs (apply_phase_eq hp rfl rfl) rfl (by simp) (by simp)
  | gen =>
    have hp : s.phase = .tree := by simpa [accepts] using ha
    obtain ⟨c, _, rfl⟩ := genRule_ok h
    exact e.headerSound hs (by rw [hp]; rfl) rfl (by simp) (by simp)
  | emith =>
    have hp : s.phase = .table := by simpa [accepts] using ha
    cases h
    exact e.headerSound hs (by rw [hp]; rfl) rfl (by simp) (by simp)
  | enc x =>
    have hp : s.phase = .encode := by simpa [accepts] using ha
    obtain ⟨a, n, o, hbits, _⟩ := putBits_frame (lookup s.code x) s
    have ht : t.phase = .encode := by rw [(encRule_ok h).2, hbits]; exact hp
    exact e.headerSound hs (by rw [hp]; rfl) (by rw [ht]; rfl) (by simp [ht]) (by simp)
  | flush =>
    have hp : s.phase = .encode := by simpa [accepts] using ha
    have ht : t.phase = .edone := by
      obtain ⟨_, ⟨_, rfl⟩ | ⟨_, rfl⟩⟩ := flushRule_ok h <;> rfl
    exact e.headerSound hs (by rw [hp]; rfl) (by rw [ht]; rfl) (by simp [ht]) (by simp)
  | dbyte b =>
    rcases dbyteRule_ok h with ⟨hp | hp, hmove⟩ | ⟨hp, hpay⟩
    · exact hmove.headerSound (parsing_of_idle hs hp)
    · exact hmove.headerSound ((headerSound_dhdr hp).1 hs).2
    · exact payloadByte_headerSound hpay hp hs
  | dend =>
    obtain ⟨hp, rfl⟩ := dendRule_ok h
    simp only [HeaderSound, hp] at hs
    exact hs

theorem headerSound_kept : KeptByRules HeaderSound where
  cleared _ := ⟨rfl, rfl, rfl, rfl, presentCount_nil⟩
  hostSide _ _ _ hs := hs
  fault _ _ _ _ hs := hs
  rule _ _ _ hi ha hr heff hs := ruleOf_headerSound hi ha hr heff hs

/-- Settles O56, by the bytes of the header. -/
theorem stepKeepsHeaderSound : Obligations.StepKeepsHeaderSound :=
  fun _ _ hs h => headerSound_kept.step hs h

end Sys2Proof.Machine
end

section
/-!
The reset state, and the frames of the commands (spec rules R22, R34, R40, R68, R100): what a command other than RST leaves of
the state, a raised fault aside, is what the effects of its own rule say.
-/
namespace Sys2Proof.Machine

open Sys2Proof.Safety

theorem KeptByRules.reset {P : State → Prop} (hP : KeptByRules P) : P State.reset :=
  hP.cleared State.reset

/-- Settles O57: the reset state is a cleared call, which each invariant holds of. -/
theorem resetMeetsTheInvariants : Obligations.ResetMeetsTheInvariants :=
  ⟨memoriesCanonical_kept.reset, einfoQuiet_kept.reset, sound_kept.reset, payloadSound_kept.reset, headerSound_kept.reset⟩

theorem Effects.refl (i : Instr) (s : State) : Effects i s s := by
  constructor <;> simp

/-- But for ERR and EINFO, which a raise writes together, a command leaves what the effects of its rule say. -/
theorem exec_effects {i : Instr} {s t : State} (hi : i ≠ .rst) (h : exec i s = .next t) :
    Effects i s { t with err := s.err, einfo := s.einfo } ∧ (t.err = s.err → t.einfo = s.einfo) := by
  rcases exec_cases hi h with rfl | ⟨e, hnone, he, rfl⟩ | ⟨_, _, _, heff⟩
  · exact ⟨Effects.refl i t, fun _ => rfl⟩
  · exact ⟨Effects.refl i s, fun herr => absurd (herr.trans hnone) he⟩
  · have hsame : { t with err := s.err, einfo := s.einfo } = t := by rw [← heff.err, ← heff.einfo]
    exact ⟨hsame.symm ▸ heff, fun _ => heff.einfo⟩

/-- RST answers one state alone (R102). -/
theorem eq_clearCall_of_exec_rst {s t : State} (h : exec .rst s = .next t) : t = clearCall s := by
  cases h
  rfl

/-- Settles O15: RST goes to IDLE, and every other command moves as its rule does. -/
theorem phaseMovesOnlyAsListed : Obligations.PhaseMovesOnlyAsListed := by
  intro i s t h hne
  by_cases hi : i = .rst
  · subst hi
    exact .inl ⟨rfl, by rw [eq_clearCall_of_exec_rst h]; rfl⟩
  · exact .inr ((exec_effects hi h).1.phase hne)

/-- Settles O16: RST keeps the streams, and every other command writes as its rule does. -/
theorem commandsLeaveOtherMemories : Obligations.CommandsLeaveOtherMemories := by
  intro i s t h
  by_cases hi : i = .rst
  · subst hi
    cases eq_clearCall_of_exec_rst h
    exact ⟨fun hne => absurd rfl hne, fun hne => absurd rfl hne, fun hne => absurd rfl hne, fun _ _ _ => rfl, fun _ => rfl⟩
  · have heff := (exec_effects hi h).1
    exact ⟨fun _ => heff.freq, fun _ => heff.tree, fun _ => heff.code, heff.outb, heff.outs⟩

/-- Settles O17, by the effects of each rule. -/
theorem commandsLeaveOtherRegisters : Obligations.CommandsLeaveOtherRegisters := by
  intro i s t h hi
  obtain ⟨heff, heinfo⟩ := exec_effects hi h
  exact ⟨heff.ctrl, heff.dlen, heff.bitcnt, heff.acc, heff.header, heinfo, heff.host, heff.statData⟩

/-- Settles O18: RST keeps both streams, and every other command appends to at most one. -/
theorem streamsOnlyGrow : Obligations.StreamsOnlyGrow := by
  intro i s t h
  by_cases hi : i = .rst
  · subst hi
    cases eq_clearCall_of_exec_rst h
    exact ⟨List.prefix_rfl, List.prefix_rfl, .inl rfl⟩
  · have heff := (exec_effects hi h).1
    exact ⟨heff.outbGrows, heff.outsGrows, heff.oneStream⟩

/-! ### Whole effects of RST, CFG and the reset line, and the two lines -/

/-- Settles O20, by the model's own `clearCall`. -/
theorem rstClearsAllButStreams : Obligations.RstClearsAllButStreams :=
  exec_rst

/-- Settles O21: IDLE and COUNT accept CFG, and its rule raises nothing. -/
theorem cfgWritesPolicyBit : Obligations.CfgWritesPolicyBit := by
  intro s imm herr hphase
  rw [exec_cfg]
  exact execute_ok herr (by simpa [accepts] using hphase) rfl

/-- Settles O9: the step serves the reset line on the state without that event. -/
theorem hardwareResetClearsAll : Obligations.HardwareResetClearsAll := by
  intro s rest hhost
  rw [step_of_host_cons hhost]
  rfl

theorem errCode_eq_zero {e : Err} : e.code = 0#4 ↔ e = .noFault := by
  cases e <;> simp [Err.code]

theorem phaseCode_eq_edone {p : Phase} : p.code = 5#4 ↔ p = .edone := by
  cases p <;> simp [Phase.code]

theorem phaseCode_eq_ddone {p : Phase} : p.code = 9#4 ↔ p = .ddone := by
  cases p <;> simp [Phase.code]

theorem faultLine_iff {s : State} : faultLine s = true ↔ s.err ≠ .noFault := by
  simp [faultLine, errCode_eq_zero]

theorem doneLine_iff {s : State} : doneLine s = true ↔ s.err = .noFault ∧ (s.phase = .edone ∨ s.phase = .ddone) := by
  simp [doneLine, errCode_eq_zero, phaseCode_eq_edone, phaseCode_eq_ddone]

/-- Settles O11: FAULT needs ERR other than 0 and DONE needs ERR 0. -/
theorem faultAndDoneLines : Obligations.FaultAndDoneLines :=
  fun _ => ⟨faultLine_iff, doneLine_iff, fun ⟨hfault, hdone⟩ => faultLine_iff.1 hfault (doneLine_iff.1 hdone).1⟩

end Sys2Proof.Machine
end

section
/-!
What BuildTree leaves in the registers and in NODE (spec rules R28, R38, R112, R114), read off the one tree of `growForest_spec`.
-/
namespace Sys2Proof.Machine

open Sys2Proof.Safety

/-! ### The registers -/

theorem growForest_n (freq : Memory Count) (nodes : Memory Node) :
    (growForest freq nodes).n = 2 * (present freq).length - 1 := by
  by_cases h : present freq = []
  · rw [growForest_empty freq nodes h, h]
    rfl
  · obtain ⟨_, _, T, g⟩ := growForest_spec freq nodes h
    have := g.size
    omega

theorem toNat_buildTree_nn (s : State) : (buildTree s).nn.toNat = (growForest s.freq s.node).n := by
  have := growForest_n_le s.freq s.node
  rw [buildTree_nn, BitVec.toNat_ofNat]
  omega

theorem toNat_buildTree_nleaf (s : State) : (buildTree s).nleaf.toNat = (present s.freq).length := by
  have := present_length_le s.freq
  rw [buildTree_nleaf, (placeLeaves_spec s.freq s.node).1, BitVec.toNat_ofNat]
  omega

theorem toNat_buildTree_root (s : State) : (buildTree s).root.toNat = (growForest s.freq s.node).n - 1 := by
  have := growForest_n_le s.freq s.node
  simp only [buildTree]
  split
  · simp [*]
  · rw [BitVec.toNat_ofNat]
    omega

/-- Settles O26, from the number of nodes, `2 * NLEAF - 1`. -/
theorem buildTreeSizes : Obligations.BuildTreeSizes := by
  intro s
  have hn := growForest_n s.freq s.node
  have hnn := toNat_buildTree_nn s
  have hroot := toNat_buildTree_root s
  rw [presentCount_eq]
  refine ⟨toNat_buildTree_nleaf s, fun h0 => ⟨?_, ?_⟩, fun h0 => ⟨?_, ?_⟩⟩
  · exact BitVec.eq_of_toNat_eq (by simp; omega)
  · exact BitVec.eq_of_toNat_eq (by simp; omega)
  · omega
  · omega

/-- No entry from NN up is written (R112). -/
theorem readNode_growForest_of_le (freq : Memory Count) (nodes : Memory Node) {i : Nat}
    (hi : (growForest freq nodes).n ≤ i) : readNode (growForest freq nodes).nodes i = readNode nodes i := by
  by_cases h : present freq = []
  · rw [growForest_empty freq nodes h]
  · exact (growForest_spec freq nodes h).2.1 i hi

/-- Settles O25: BuildTree is an update of its five fields, and the forest touches no entry it does not add. -/
theorem buildTreeFrame : Obligations.BuildTreeFrame := by
  intro s
  refine ⟨⟨_, _, _, _, _, rfl⟩, rfl, fun i hi => ?_⟩
  rw [toNat_buildTree_nn] at hi
  exact readNode_growForest_of_le s.freq s.node hi

/-! ### The nodes -/

/-- A BuildTree that leaves a node leaves one tree. -/
theorem exists_grown_of_lt {s : State} {i : Nat} (hi : i < (buildTree s).nn.toNat) :
    ∃ T, Grown s.freq (growForest s.freq s.node) T := by
  have hne : present s.freq ≠ [] := by
    intro h
    rw [toNat_buildTree_nn, growForest_empty _ _ h] at hi
    exact absurd hi (Nat.not_lt_zero i)
  exact (growForest_spec s.freq s.node hne).2.2

theorem Grown.mem_indices {freq : Memory Count} {f : Forest} {T : HTree} (g : Grown freq f T) {i : Nat} :
    i ∈ T.indices ↔ i < f.n := by
  rw [g.each.mem_iff, List.mem_range]

theorem Grown.indices_nodup {freq : Memory Count} {f : Forest} {T : HTree} (g : Grown freq f T) : T.indices.Nodup :=
  g.each.nodup_iff.2 List.nodup_range

/-- The nodes from index `L` up are internal (R114 (b)). -/
theorem HTree.Rep.internal {m : Memory Node} {L : Nat} {T : HTree} (h : T.Rep m L) {i : Nat} (hi : i ∈ T.indices)
    (hL : L ≤ i) : (readNode m i).leaf = false ∧ (readNode m i).sym = 0#8 := by
  induction T with
  | leaf j =>
    have hij : i = j := by simpa [indices] using hi
    exact absurd h.1 (by omega)
  | node j l r ihl ihr =>
    obtain ⟨_, ⟨hleaf, hsym, _⟩, hl, hr⟩ := h
    simp only [indices, List.mem_cons, List.mem_append] at hi
    rcases hi with rfl | hi | hi
    · exact ⟨hleaf, hsym⟩
    · exact ihl hl hi
    · exact ihr hr hi

/-- Node `i` below NLEAF is the leaf of the `i`-th present symbol. -/
theorem readNode_buildTree_leaf (s : State) {i : Nat} (hi : i < (present s.freq).length) :
    readNode (buildTree s).node i = leafNode (present s.freq)[i] (readFreq s.freq (present s.freq)[i]) :=
  (growForest_leaves s.freq s.node i hi).1

/-- Settles O27: the leaves follow the ascending list of present symbols, and the tree has only internal nodes above them. -/
theorem buildTreeLeaves : Obligations.BuildTreeLeaves := by
  intro s
  rw [toNat_buildTree_nleaf]
  have hmem : ∀ i (hi : i < (present s.freq).length),
      (present s.freq)[i] < 256 ∧ readFreq s.freq (present s.freq)[i] ≠ 0#32 :=
    fun i hi => mem_present.1 (List.getElem_mem hi)
  refine ⟨fun i hi => ?_, fun i j hij hj => ?_, fun x hx => ?_, fun i hL hi => ?_⟩
  · have hsym : (symOf (present s.freq)[i]).toNat = (present s.freq)[i] := toNat_symOf (hmem i hi).1
    rw [readNode_buildTree_leaf s hi]
    simp only [leafNode, Present, hsym, BitVec.toNat_setWidth]
    exact ⟨trivial, (hmem i hi).2, Nat.mod_eq_of_lt (by omega), trivial, trivial⟩
  · have hlt := List.pairwise_iff_getElem.1 (present_sorted s.freq) i j (hij.trans hj) hj hij
    rw [readNode_buildTree_leaf s (hij.trans hj), readNode_buildTree_leaf s hj, BitVec.lt_def]
    simp only [leafNode]
    rwa [toNat_symOf (hmem i _).1, toNat_symOf (hmem j hj).1]
  · obtain ⟨i, hi, he⟩ := List.getElem_of_mem (mem_present.2 ⟨x.isLt, hx⟩)
    refine ⟨i, hi, ?_⟩
    rw [readNode_buildTree_leaf s hi]
    simp only [leafNode, he, symOf_toNat]
  · obtain ⟨T, g⟩ := exists_grown_of_lt hi
    rw [toNat_buildTree_nn] at hi
    exact g.rep.internal (g.mem_indices.2 hi) hL

/-- Settles O30: the root of the one tree weighs what all its leaves do. -/
theorem buildTreeRootWeight : Obligations.BuildTreeRootWeight := by
  intro s hne
  have hpos : 0 < (buildTree s).nn.toNat := Nat.pos_of_ne_zero fun h0 => hne (BitVec.eq_of_toNat_eq h0)
  obtain ⟨T, g⟩ := exists_grown_of_lt hpos
  rw [toNat_buildTree_root, ← g.root]
  exact g.weight

/-! ### One tree: the edges from parent to child -/

namespace HTree

/-- The edges of a tree: an internal node with the side, and the child there; right is `true`. -/
def edges : HTree → List ((Nat × Bool) × Nat)
  | leaf _ => []
  | node i l r => ((i, false), l.idx) :: ((i, true), r.idx) :: (l.edges ++ r.edges)

/-- Each node but the root is the end of one edge. -/
theorem idx_cons_edges_perm (T : HTree) : (T.idx :: T.edges.map Prod.snd).Perm T.indices := by
  induction T with
  | leaf i => exact List.Perm.refl _
  | node i l r hl hr =>
    simp only [idx, edges, indices, List.map_cons, List.map_append]
    refine List.Perm.cons i ?_
    calc l.idx :: r.idx :: (l.edges.map Prod.snd ++ r.edges.map Prod.snd)
      List.Perm _ (l.idx :: (l.edges.map Prod.snd ++ r.idx :: r.edges.map Prod.snd)) :=
        (List.perm_middle.symm).cons l.idx
      List.Perm _ (l.indices ++ r.indices) := hl.append hr

/-- In NODE, the edges are the child fields of the entries from index `L` up. -/
theorem Rep.mem_edges {m : Memory Node} {L : Nat} {T : HTree} (h : T.Rep m L) {p i : Nat} {b : Bool} :
    ((p, b), i) ∈ T.edges ↔ p ∈ T.indices ∧ L ≤ p ∧ (childOf m (BitVec.ofNat 9 p) b).toNat = i := by
  induction T with
  | leaf j =>
    have hj := h.1
    simp only [edges, indices, List.not_mem_nil, List.mem_singleton, false_iff]
    omega
  | node j l r ihl ihr =>
    obtain ⟨⟨hL, hj, _⟩, ⟨_, _, hleft, hright, _⟩, hl, hr⟩ := h
    have hjj : (BitVec.ofNat 9 j).toNat = j := by
      rw [BitVec.toNat_ofNat]
      omega
    have hchild : (childOf m (BitVec.ofNat 9 j) b).toNat = if b then r.idx else l.idx := by
      cases b <;> simp only [childOf, hjj, hleft, hright, if_true, Bool.false_eq_true, if_false]
    simp only [edges, indices, List.mem_cons, List.mem_append, ihl hl, ihr hr, Prod.mk.injEq]
    constructor
    · rintro (⟨⟨rfl, rfl⟩, rfl⟩ | ⟨⟨rfl, rfl⟩, rfl⟩ | ⟨hp, hrest⟩ | ⟨hp, hrest⟩)
      · exact ⟨.inl rfl, hL, hchild⟩
      · exact ⟨.inl rfl, hL, hchild⟩
      · exact ⟨.inr (.inl hp), hrest⟩
      · exact ⟨.inr (.inr hp), hrest⟩
    · rintro ⟨rfl | hp | hp, hrest⟩
      · rw [hchild] at hrest
        cases b
        · exact .inl ⟨⟨rfl, rfl⟩, hrest.2.symm⟩
        · exact .inr (.inl ⟨⟨rfl, rfl⟩, hrest.2.symm⟩)
      · exact .inr (.inr (.inl ⟨hp, hrest⟩))
      · exact .inr (.inr (.inr ⟨hp, hrest⟩))

theorem exists_edge_to {T : HTree} {i : Nat} (hi : i ∈ T.indices) (hne : i ≠ T.idx) : ∃ p b, ((p, b), i) ∈ T.edges := by
  have hmem := T.idx_cons_edges_perm.mem_iff.2 hi
  obtain ⟨⟨⟨p, b⟩, _⟩, he, rfl⟩ := List.mem_map.1 ((List.mem_cons.1 hmem).resolve_left hne)
  exact ⟨p, b, he⟩

theorem edges_end_nodup {T : HTree} (h : T.indices.Nodup) : T.idx ∉ T.edges.map Prod.snd ∧ (T.edges.map Prod.snd).Nodup :=
  List.nodup_cons.1 (T.idx_cons_edges_perm.nodup_iff.2 h)

end HTree

/-- In NODE after BuildTree, the parents that R114 (d) speaks of are the edges of the tree. -/
theorem buildTree_parent_iff {s : State} {T : HTree} (g : Grown s.freq (growForest s.freq s.node) T) {p i : Nat} {b : Bool} :
    ((buildTree s).nleaf.toNat ≤ p ∧ p < (buildTree s).nn.toNat ∧
      (childOf (buildTree s).node (BitVec.ofNat 9 p) b).toNat = i) ↔ ((p, b), i) ∈ T.edges := by
  rw [toNat_buildTree_nleaf, toNat_buildTree_nn, buildTree_node, g.rep.mem_edges, g.mem_indices, and_left_comm]

/-- Settles O29: every node but the root is the end of exactly one edge of the one tree. -/
theorem buildTreeIsOneTree : Obligations.BuildTreeIsOneTree := by
  intro s m parent
  constructor
  · intro i hi hroot
    obtain ⟨T, g⟩ := exists_grown_of_lt hi
    rw [toNat_buildTree_root, ← g.root] at hroot
    rw [toNat_buildTree_nn] at hi
    obtain ⟨p, b, hedge⟩ := HTree.exists_edge_to (g.mem_indices.2 hi) hroot
    refine ⟨p, b, (buildTree_parent_iff g).2 hedge, fun p' b' hparent => ?_⟩
    have hedge' := (buildTree_parent_iff g).1 hparent
    have heq := List.inj_on_of_nodup_map (HTree.edges_end_nodup g.indices_nodup).2 hedge' hedge rfl
    simpa using heq
  · rintro p b hparent
    obtain ⟨T, g⟩ := exists_grown_of_lt hparent.2.1
    have hedge := (buildTree_parent_iff g).1 hparent
    rw [toNat_buildTree_root, ← g.root] at hedge
    exact (HTree.edges_end_nodup g.indices_nodup).1 (List.mem_map.2 ⟨_, hedge, rfl⟩)

/-! ### Prefix-freedom of the code (R39, R133 (c)) -/

/-- GEN with the table it makes (R131). -/
theorem exec_gen_of_genTable {s : State} {c : Memory CodeEntry} (he : s.err = .noFault) (hp : s.phase = .tree)
    (hc : genTable s.nn s.root s.node = .ok c) : exec .gen s = .next { s with code := c, phase := .table } := by
  rw [exec_gen]
  exact execute_ok he (by rw [hp]; rfl) (by rw [genRule, hc])

theorem CodesOf.prefix_free {freq : Memory Count} {f : Forest} {T : HTree} {c : Memory CodeEntry} (g : Grown freq f T)
    (hc : CodesOf freq T c) {x y : Sym} (hx : readFreq freq x.toNat ≠ 0#32) (hy : readFreq freq y.toNat ≠ 0#32)
    (hne : x ≠ y) : ¬lookup c x <+: lookup c y := by
  obtain ⟨j, p, hj, hjx, hp, _, _, _, hlx⟩ := hc.present g x hx
  obtain ⟨k, q, hk, hky, hq, _, _, _, hly⟩ := hc.present g y hy
  have hjk : j ≠ k := by
    rintro rfl
    exact hne (BitVec.eq_of_toNat_eq (hjx.symm.trans hky))
  have htwo : (Machine.present freq).length ≠ 1 := by omega
  rw [hlx, hly, if_neg htwo, if_neg htwo]
  exact T.codes_prefix_free g.indices_nodup (j, p) hp (k, q) hq hjk

/-- Settles O34: the codes are the paths to different leaves of one tree. -/
theorem genCodesArePrefixFree : Obligations.GenCodesArePrefixFree := by
  intro s t he hp htree h x y hx hy hne
  rcases treeOfFreq_genTable htree with ⟨hnone, _⟩ | ⟨T, c, _, g, _, hc, hgen, _⟩
  · exact absurd (present_eq_nil.1 hnone _ x.isLt) hx
  · rw [exec_gen_of_genTable he hp hgen] at h
    cases h
    exact hc.prefix_free g hx hy hne

end Sys2Proof.Machine
end

section
/-!
A status read at the step (spec rule R62), and the status map of R61, range by range: which word of which register or entry an
address shows, and what each of these words holds.
-/
namespace Sys2Proof.Machine

/-! ### A status read -/

/-- The status map shows nothing of what the host has presented (R61). -/
theorem statRead_host (s : State) (rest : List HostEvent) (a : StatAddr) :
    statRead { s with host := rest } a = statRead s a := rfl

/-- Settles O8: the step answers the oldest event, and the answer does not depend on the queue it was taken from. -/
theorem statusReadChangesNothing : Obligations.StatusReadChangesNothing := by
  intro s a rest hhost
  rw [step_of_host_cons hhost, ← statRead_host s rest a]
  rfl

/-! ### The ranges of the map -/

theorem toNat_ofNat_statAddr {a : Nat} (h : a < 0x2000) : (BitVec.ofNat 13 a).toNat = a :=
  BitVec.toNat_ofNat a 13 ▸ Nat.mod_eq_of_lt h

section
variable (s : State) {a : Nat}

theorem statRead_register (h : a < 0x100) : statRead s (BitVec.ofNat 13 a) = registerWord s a := by
  simp only [statRead, Config.nodeMax, toNat_ofNat_statAddr (show a < 0x2000 by omega)]
  rw [if_pos h]

theorem statRead_freq (x : Sym) : statRead s (BitVec.ofNat 13 (0x100 + x.toNat)) = readFreq s.freq x.toNat := by
  have hx := x.isLt
  simp only [statRead, Config.nodeMax, toNat_ofNat_statAddr (show 0x100 + x.toNat < 0x2000 by omega)]
  rw [if_neg (by omega), if_pos (by omega), Nat.add_sub_cancel_left]

theorem statRead_node {i k : Nat} (hi : i < 511) (hk : k < 4) :
    statRead s (BitVec.ofNat 13 (0x800 + 4 * i + k)) = nodeWord (readNode s.node i) k := by
  have hentry : (0x800 + 4 * i + k - 0x800) / 4 = i := by omega
  have hword : (0x800 + 4 * i + k - 0x800) % 4 = k := by omega
  simp only [statRead, Config.nodeMax, toNat_ofNat_statAddr (show 0x800 + 4 * i + k < 0x2000 by omega)]
  rw [if_neg (by omega), if_neg (by omega), if_neg (by omega), if_pos (by omega), hentry, hword]

theorem statRead_codeRange (h : 0x1000 ≤ a) (h' : a < 0x2000) :
    statRead s (BitVec.ofNat 13 a) = codeWord (readCode s.code (symOf ((a - 0x1000) / 16))) ((a - 0x1000) % 16) := by
  simp only [statRead, Config.nodeMax, toNat_ofNat_statAddr h']
  rw [if_neg (by omega), if_neg (by omega), if_neg (by omega), if_neg (by omega), if_neg (by omega)]

theorem statRead_code (x : Sym) {k : Nat} (hk : k < 16) :
    statRead s (BitVec.ofNat 13 (0x1000 + 16 * x.toNat + k)) = codeWord (readCode s.code x) k := by
  have hx := x.isLt
  have hentry : (0x1000 + 16 * x.toNat + k - 0x1000) / 16 = x.toNat := by omega
  have hword : (0x1000 + 16 * x.toNat + k - 0x1000) % 16 = k := by omega
  rw [statRead_codeRange s (by omega) (by omega), hentry, hword, symOf_toNat]

/-- The two gaps between the memories. -/
theorem statRead_gap (h : (0x200 ≤ a ∧ a < 0x800) ∨ (0xFFC ≤ a ∧ a < 0x1000)) :
    statRead s (BitVec.ofNat 13 a) = 0#32 := by
  simp only [statRead, Config.nodeMax, toNat_ofNat_statAddr (show a < 0x2000 by omega)]
  rcases h with h | h
  · rw [if_neg (by omega), if_neg (by omega), if_pos (by omega)]
  · rw [if_neg (by omega), if_neg (by omega), if_neg (by omega), if_neg (by omega), if_pos (by omega)]

/-- The addresses of the register range that the map does not list. -/
theorem registerWord_unlisted (h : (0x0C < a ∧ a < 0x10) ∨ 0x15 < a) : registerWord s a = 0#32 := by
  unfold registerWord
  split
  case h_20 => rfl
  all_goals omega

end

/-! ### The words -/

theorem toNat_append_eq_add {m n : Nat} (x : BitVec m) (y : BitVec n) :
    (x ++ y).toNat = 2 ^ n * x.toNat + y.toNat := by
  rw [BitVec.toNat_append, ← Nat.shiftLeft_add_eq_or_of_lt y.isLt, Nat.shiftLeft_eq, Nat.mul_comm]

theorem bool_toNat_eq_ite {b : Bool} {p : Prop} [Decidable p] (h : b = true ↔ p) : b.toNat = if p then 1 else 0 := by
  cases b <;> simp [← h]

theorem toNat_statusWord (s : State) :
    (statusWord s).toNat = s.phase.code.toNat + (if s.err = .noFault then 0 else 2 ^ 8) +
      (if s.err = .noFault ∧ (s.phase = .edone ∨ s.phase = .ddone) then 2 ^ 9 else 0) := by
  rw [statusWord, toNat_append_eq_add, toNat_append_eq_add, toNat_append_eq_add, toNat_append_eq_add, BitVec.toNat_zero,
    BitVec.toNat_zero, BitVec.toNat_ofBool, BitVec.toNat_ofBool, bool_toNat_eq_ite doneLine_iff,
    bool_toNat_eq_ite faultLine_iff, ite_not]
  split <;> split <;> omega

section
variable (x : Node)

theorem toNat_nodeWord_one : (nodeWord x 1).toNat = x.weight.toNat / 2 ^ 32 := by
  have hw := x.weight.isLt
  have hlt : x.weight.toNat / 2 ^ 32 < 2 ^ 8 := by omega
  have hword : nodeWord x 1 = 0#24 ++ x.weight.extractLsb' 32 8 := rfl
  rw [hword, toNat_append_eq_add, BitVec.extractLsb'_toNat, Nat.shiftRight_eq_div_pow, Nat.mod_eq_of_lt hlt, BitVec.toNat_zero]
  omega

theorem toNat_nodeWord_two : (nodeWord x 2).toNat = x.sym.toNat + (if x.leaf then 2 ^ 8 else 0) := by
  have hword : nodeWord x 2 = 0#23 ++ BitVec.ofBool x.leaf ++ x.sym := rfl
  rw [hword, toNat_append_eq_add, toNat_append_eq_add, BitVec.toNat_zero, BitVec.toNat_ofBool, bool_toNat_eq_ite Iff.rfl]
  split <;> omega

theorem toNat_nodeWord_three : (nodeWord x 3).toNat = x.left.toNat + 2 ^ 16 * x.right.toNat := by
  have hword : nodeWord x 3 = 0#7 ++ x.right ++ 0#7 ++ x.left := rfl
  rw [hword, toNat_append_eq_add, toNat_append_eq_add, toNat_append_eq_add, BitVec.toNat_zero]
  omega

end

section
variable (e : CodeEntry)

theorem toNat_codeWord_zero : (codeWord e 0).toNat = e.clen.toNat :=
  BitVec.toNat_setWidth_of_le (b := e.clen) (show 8 ≤ 32 by decide)

/-- Words 1 to 8 of an entry show bit `j` of the code in the order of SetCode, 32 bits to the word (R29, R61). -/
theorem getLsbD_codeWord {j : Nat} (hj : j < 256) :
    (codeWord e (1 + j / 32)).getLsbD (31 - j % 32) = e.cbits.getLsbD (255 - j) := by
  have hbit : 256 - 32 * (1 + j / 32) + (31 - j % 32) = 255 - j := by omega
  have hlt : 31 - j % 32 < 32 := by omega
  rw [codeWord, if_neg (by omega), if_pos (by omega), BitVec.getLsbD_extractLsb', hbit, decide_eq_true hlt, Bool.true_and]

theorem codeWord_unlisted {k : Nat} (hk : 9 ≤ k) : codeWord e k = 0#32 := by
  rw [codeWord, if_neg (by omega), if_neg (by omega)]

end

/-- A 64-bit register read as its two words. -/
theorem high_append_low (x : BitVec 64) : x.extractLsb' 32 32 ++ x.extractLsb' 0 32 = x :=
  BitVec.extractLsb'_append_extractLsb' (w := 32) (len := 32)

/-! ### The map -/

/-- Settles O10: each clause is one range of the map, read through the word that the range shows. -/
theorem statusMapShowsEveryRegister : Obligations.StatusMapShowsEveryRegister := by
  intro s
  refine ⟨?registers, statRead_freq s, fun i hi => ⟨?node0, ?node1, ?node2, ?node3⟩, fun x => ?length, fun x j hj => ?bits,
    fun a ha => ?unlisted⟩
  case registers =>
    have wide {n : Nat} (x : BitVec n) (h : n ≤ 32) : (x.setWidth 32).toNat = x.toNat := BitVec.toNat_setWidth_of_le h
    exact ⟨rfl, wide s.ctrl (by decide), toNat_statusWord s, wide s.err.code (by decide), rfl, wide s.nleaf (by decide),
      wide s.nn (by decide), wide s.root (by decide), wide s.walk (by decide), wide s.acc (by decide),
      wide s.hcnt (by decide), wide s.hn (by decide), wide s.hsym (by decide), high_append_low s.bitcnt,
      high_append_low s.dlen, high_append_low s.hshift⟩
  case node0 => exact statRead_node s hi (k := 0) (by decide)
  case node1 => rw [statRead_node s hi (by decide), toNat_nodeWord_one]
  case node2 => rw [statRead_node s hi (by decide), toNat_nodeWord_two]
  case node3 => rw [statRead_node s hi (by decide), toNat_nodeWord_three]
  case length =>
    have hword : statRead s (BitVec.ofNat 13 (0x1000 + 16 * x.toNat)) = codeWord (readCode s.code x) 0 :=
      statRead_code s x (k := 0) (by decide)
    rw [hword, toNat_codeWord_zero]
  case bits => rw [Nat.add_assoc, statRead_code s x (by omega), getLsbD_codeWord _ hj]
  case unlisted =>
    rcases ha with ⟨hlt, hgap⟩ | hgap | hgap | ⟨hge, hlt, hunused⟩
    · rw [statRead_register s hlt, registerWord_unlisted s (by omega)]
    · exact statRead_gap s (.inl hgap)
    · exact statRead_gap s (.inr hgap)
    · rw [statRead_codeRange s hge hlt, codeWord_unlisted _ (by omega)]

end Sys2Proof.Machine
end

section
/-!
DBYTE on a header byte before the last (spec rules R160, R161): the item each offset belongs to, what each byte of it does, and
the fault of a byte that the item refuses (R194). A status read at the step (R62) stands here as well.
-/
namespace Sys2Proof.Machine

/-! ### What DBYTE makes of a header byte -/

variable {s t : State} {b : Byte}

theorem dbyteRule_eq_headerByte (hp : s.phase = .idle ∨ s.phase = .dhdr) : dbyteRule b s = headerByte b s := by
  rcases hp with hp | hp <;> simp only [dbyteRule, hp]

/-- A header byte that is refused (R160, R190, R194). -/
theorem exec_headerByte_corrupt (he : s.err = .noFault) (hp : s.phase = .idle ∨ s.phase = .dhdr)
    (h : headerByte b s = corrupt) :
    exec (.dbyte b) s = .next { s with err := .corruptArtifact, einfo := encode (.dbyte b) } := by
  have haccepts : accepts (.dbyte b) s.phase = true := apply_phase_eq hp rfl rfl
  rw [exec_dbyte]
  exact execute_raised he haccepts ((dbyteRule_eq_headerByte hp).trans h)

/-- A header byte with a check that refuses it. -/
theorem exec_headerByte_ite {c : Prop} [Decidable c] (he : s.err = .noFault) (hp : s.phase = .idle ∨ s.phase = .dhdr)
    (h : headerByte b s = if c then corrupt else .ok t) :
    exec (.dbyte b) s = .next (if c then { s with err := .corruptArtifact, einfo := encode (.dbyte b) } else t) := by
  by_cases hc : c
  · rw [if_pos hc] at h ⊢
    exact exec_headerByte_corrupt he hp h
  · rw [if_neg hc] at h ⊢
    exact exec_headerByte he hp h

/-! ### The item an offset belongs to (R161) -/

theorem headerByte_eq_sizeByte (h : s.hcnt.toNat = 4 ∨ s.hcnt.toNat = 5) : headerByte b s = sizeByte b s := by
  rw [headerByte, if_neg (by omega), if_pos (by omega)]

theorem headerByte_eq_pairByte (h6 : 6 ≤ s.hcnt.toNat) (hk : s.hcnt.toNat < 6 + 5 * s.hn.toNat) :
    headerByte b s = pairByte b s := by
  rw [headerByte, if_neg (by omega), if_neg (by omega), if_pos hk]

theorem headerByte_eq_lengthByte (h6 : 6 + 5 * s.hn.toNat ≤ s.hcnt.toNat) : headerByte b s = lengthByte b s := by
  rw [headerByte, if_neg (by omega), if_neg (by omega), if_neg (by omega)]

/-! ### The bytes of a pair (R161 item 3) -/

theorem pairByte_symbol (h6 : 6 ≤ s.hcnt.toNat) (ho : (s.hcnt.toNat - 6) % 5 = 0) :
    pairByte b s = if 11 ≤ s.hcnt.toNat ∧ b ≤ s.hsym then corrupt else .ok (headerTaken { s with hsym := b }) := by
  have hsecond : (s.hcnt.toNat - 6) / 5 > 0 ↔ 11 ≤ s.hcnt.toNat := by omega
  simp only [pairByte, if_pos ho, hsecond]

theorem pairByte_shifted (h1 : 1 ≤ (s.hcnt.toNat - 6) % 5) (h3 : (s.hcnt.toNat - 6) % 5 ≤ 3) :
    pairByte b s = .ok (headerTaken { s with hshift := shiftIn s.hshift b }) := by
  rw [pairByte, if_neg (by omega), if_pos h3]

/-- The frequency that the last byte of a pair completes. -/
def pairCount (b : Byte) (s : State) : Count := (shiftIn s.hshift b).setWidth 32

theorem pairByte_frequency (ho : (s.hcnt.toNat - 6) % 5 = 4) :
    pairByte b s = if pairCount b s = 0#32 then corrupt else
      .ok (headerTaken { s with freq := writeFreq s.freq s.hsym.toNat (pairCount b s), hshift := 0#64 }) := by
  rw [pairByte, if_neg (by omega), if_neg (by omega)]
  rfl

theorem toNat_pairCount (b : Byte) (s : State) : (pairCount b s).toNat = (256 * s.hshift.toNat + b.toNat) % 2 ^ 32 := by
  rw [pairCount, BitVec.toNat_setWidth, shiftIn_toNat (by decide), Nat.mod_mod_of_dvd _ (by decide)]

/-! ### The obligations -/

/-- Settles O43: the new alphabet size is the byte shifted into HN, bounded at offset 5 alone. -/
theorem headerSizeBytes : Obligations.HeaderSizeBytes := by
  intro s b he hp hk
  exact ⟨shiftIn s.hn b, shiftIn_toNat (by decide) _ _, exec_headerByte_ite he hp (headerByte_eq_sizeByte hk)⟩

/-- Settles O44, one case for each kind of byte in a pair. -/
theorem headerPairBytes : Obligations.HeaderPairBytes := by
  intro s b he hp h6 hk
  have hpair : headerByte b s = pairByte b s := headerByte_eq_pairByte h6 hk
  refine ⟨fun ho => ?symbol, fun h1 h3 => ?shifted, fun ho => ?frequency⟩
  case symbol => exact exec_headerByte_ite he hp (hpair.trans (pairByte_symbol h6 ho))
  case shifted =>
    exact ⟨shiftIn s.hshift b, shiftIn_toNat (by decide) _ _, exec_headerByte he hp (hpair.trans (pairByte_shifted h1 h3))⟩
  case frequency =>
    refine ⟨pairCount b s, writeFreq s.freq s.hsym.toNat (pairCount b s), toNat_pairCount b s, ?_, fun i hi => ?_,
      exec_headerByte_ite he hp (hpair.trans (pairByte_frequency ho))⟩
    · rw [readFreq_writeFreq, if_pos rfl]
    · rw [readFreq_writeFreq, if_neg hi]

/-- Settles O45: before the last length byte, the byte is only shifted into HSHIFT. -/
theorem headerLengthBytes : Obligations.HeaderLengthBytes := by
  intro s b he hp h6 hk
  refine ⟨shiftIn s.hshift b, shiftIn_toNat (by decide) _ _, exec_headerByte he hp ?_⟩
  rw [headerByte_eq_lengthByte h6, lengthByte, if_pos hk]
  rfl

end Sys2Proof.Machine
end

section
/-!
The encoding (spec rules R81 to R85): a word as its fields, the "must be 0" bits of each format as fields that are 0, and what the
decoder does with a word, one case for each format of its `op`.
-/
namespace Sys2Proof

variable {w : Word}

/-! ### The fields of a word -/

/-- R81: a word is its op followed by the 24 bits below it. -/
theorem opField_append_low (w : Word) : opField w ++ w.extractLsb' 0 24 = w :=
  (BitVec.extractLsb'_append_extractLsb'_eq_extractLsb' rfl).trans BitVec.extractLsb'_eq_self

/-- R81: the 24 bits below op are the zero field of format A and its argument. -/
theorem middle_append_argField (w : Word) : w.extractLsb' 8 16 ++ argField w = w.extractLsb' 0 24 :=
  BitVec.extractLsb'_append_extractLsb'_eq_extractLsb' rfl

/-- R82: the argument is the zero field of CFG and its immediate bit. -/
theorem bits_append_imm (w : Word) : w.extractLsb' 1 7 ++ w.extractLsb' 0 1 = argField w :=
  BitVec.extractLsb'_append_extractLsb'_eq_extractLsb' rfl

theorem wordA_eq_append (op arg : BitVec 8) : wordA op arg = op ++ (0#16 ++ arg) := BitVec.append_assoc

theorem setWidth_imm (imm : BitVec 1) : imm.setWidth 8 = 0#7 ++ imm := BitVec.setWidth_eq_append (by decide)

theorem wordZ_of_zero (h : w.extractLsb' 0 24 = 0#24) : wordZ (opField w) = w := by
  rw [wordZ, ← h, opField_append_low]

theorem wordA_of_zero (h : w.extractLsb' 8 16 = 0#16) : wordA (opField w) (argField w) = w := by
  rw [wordA_eq_append, ← h, middle_append_argField, opField_append_low]

theorem argField_of_zero (h : w.extractLsb' 1 7 = 0#7) : (w.extractLsb' 0 1).setWidth 8 = argField w := by
  rw [setWidth_imm, ← h, bits_append_imm]

/-! ### The words of the formats -/

section
variable (op arg : BitVec 8)

@[simp] theorem opField_wordZ : opField (wordZ op) = op := BitVec.extractLsb'_append_eq_left

@[simp] theorem opField_wordA : opField (wordA op arg) = op := by
  rw [wordA_eq_append]
  exact BitVec.extractLsb'_append_eq_left

@[simp] theorem argField_wordA : argField (wordA op arg) = arg := BitVec.extractLsb'_append_eq_right

theorem middle_wordA : (wordA op arg).extractLsb' 8 16 = 0#16 := by
  rw [wordA, BitVec.extractLsb'_append_eq_of_le (by decide)]
  exact BitVec.extractLsb'_append_eq_right

theorem argBits_wordA {lo n : Nat} (h : lo + n ≤ 8) : (wordA op arg).extractLsb' lo n = arg.extractLsb' lo n :=
  BitVec.extractLsb'_append_eq_of_add_le h

theorem decodeZ_wordZ (i : Instr) : decodeZ (wordZ op) i = .ok i :=
  if_pos BitVec.extractLsb'_append_eq_right

theorem decodeA_wordA (f : BitVec 8 → Instr) : decodeA (wordA op arg) f = .ok (f arg) := by
  rw [decodeA, if_pos (middle_wordA op arg), argField_wordA]

theorem decodeCfg_wordA (imm : BitVec 1) : decodeCfg (wordA op (imm.setWidth 8)) = .ok (.cfg imm) := by
  rw [decodeCfg, if_pos (middle_wordA _ _), argBits_wordA _ _ (by decide), argBits_wordA _ _ (by decide), setWidth_imm,
    BitVec.extractLsb'_append_eq_left, BitVec.extractLsb'_append_eq_right, if_pos rfl]

end

/-- Settles O1: the decoder finds the op and the operand where the encoder puts them, and the zero field is 0. -/
theorem decodeOfEncode : Obligations.DecodeOfEncode := by
  intro i
  cases i with
  | nop | rst | build | gen | emith | flush | dend => simp [encode, decode, decodeZ_wordZ]
  | cnt x | enc x | dbyte x => simp [encode, decode, decodeA_wordA]
  | cfg imm => simp [encode, decode, decodeCfg_wordA]

/-- Settles O4: each of the words is that of `encode`. -/
theorem tableWordsDecode : Obligations.TableWordsDecode :=
  ⟨decodeOfEncode .nop, decodeOfEncode .rst, decodeOfEncode (.cfg 1#1), decodeOfEncode (.cnt 0x61#8), decodeOfEncode .build,
    decodeOfEncode .gen, decodeOfEncode .emith, decodeOfEncode (.enc 0x62#8), decodeOfEncode .flush,
    decodeOfEncode (.dbyte 0x48#8), decodeOfEncode .dend⟩

/-! ### The zero fields -/

/-- A mask of the `n` bits from `lo` up finds no bit exactly when the field there is 0. -/
theorem and_mask_eq_zero_iff {mask : Word} {lo n : Nat}
    (h : ∀ k < 32, mask.getLsbD k = (decide (lo ≤ k) && decide (k < lo + n))) :
    w &&& mask = 0#32 ↔ w.extractLsb' lo n = 0#n := by
  simp only [BitVec.eq_of_getLsbD_eq_iff, BitVec.getLsbD_and, BitVec.getLsbD_extractLsb', BitVec.getLsbD_zero]
  constructor
  · intro hmask j hj
    by_cases hk : lo + j < 32
    · simpa [h _ hk, hj] using hmask _ hk
    · simp [BitVec.getLsbD_of_ge w (lo + j) (by omega)]
  · intro hfield k hk
    by_cases hin : lo ≤ k ∧ k < lo + n
    · have hlt : k - lo < n := by omega
      have hbit : w.getLsbD k = false := by simpa [Nat.add_sub_cancel' hin.1, hlt] using hfield (k - lo) hlt
      simp [hbit]
    · have : mask.getLsbD k = false := by simpa [h k hk] using hin
      simp [this]

theorem and_zeroMask_z : w &&& Format.z.zeroMask = 0#32 ↔ w.extractLsb' 0 24 = 0#24 := and_mask_eq_zero_iff (by decide)

theorem and_zeroMask_a : w &&& Format.a.zeroMask = 0#32 ↔ w.extractLsb' 8 16 = 0#16 := and_mask_eq_zero_iff (by decide)

theorem and_zeroMask_cfg :
    w &&& Format.cfg.zeroMask = 0#32 ↔ w.extractLsb' 8 16 = 0#16 ∧ w.extractLsb' 1 7 = 0#7 := by
  have hmask : Format.cfg.zeroMask = Format.a.zeroMask ||| 0xFE#32 := rfl
  rw [hmask, BitVec.and_or_distrib_left, BitVec.or_eq_zero_iff, and_zeroMask_a,
    and_mask_eq_zero_iff (lo := 1) (n := 7) (by decide)]

theorem wellFormed_eq_false_iff {f : Format} (h : formatOf (opField w) = some f) :
    WellFormed w = false ↔ w &&& f.zeroMask ≠ 0#32 := by
  have hf : formatOf (w.extractLsb' 24 8) = some f := h
  simp [WellFormed, hf]

theorem wellFormed_of_unused (h : formatOf (opField w) = none) : WellFormed w = false := by
  have hf : formatOf (w.extractLsb' 24 8) = none := h
  simp only [WellFormed, hf]

/-! ### The decoder, row by row -/

/-- What the decoder makes of a word, by the format of its op: the word is read as a command with that op (R83, R85), or the op
is not in use (R84). -/
inductive DecodedRow (w : Word) : Except Reserved Instr → Prop
  | z {i : Instr} {op : BitVec 8} (hop : opField w = op) (hformat : formatOf op = some .z) (hrow : encode i = wordZ op) :
    DecodedRow w (decodeZ w i)
  | a {f : BitVec 8 → Instr} {op : BitVec 8} (hop : opField w = op) (hformat : formatOf op = some .a)
    (hrow : ∀ x, encode (f x) = wordA op x) : DecodedRow w (decodeA w f)
  | cfg (hop : opField w = 0x02#8) : DecodedRow w (decodeCfg w)
  | unused (hformat : formatOf (opField w) = none) : DecodedRow w (.error .unusedOp)

theorem DecodedRow.ite {p : Prop} [Decidable p] {r r' : Except Reserved Instr} (h : p → DecodedRow w r)
    (h' : ¬ p → DecodedRow w r') : DecodedRow w (if p then r else r') := by
  split
  · exact h ‹_›
  · exact h' ‹_›

theorem decode_row (w : Word) : DecodedRow w (decode w) := by
  unfold decode
  refine .ite (.z · rfl rfl) fun nop => .ite (.z · rfl rfl) fun rst => .ite .cfg fun cfg =>
    .ite (.a · rfl fun _ => rfl) fun cnt => .ite (.z · rfl rfl) fun build => .ite (.z · rfl rfl) fun gen =>
    .ite (.z · rfl rfl) fun emith => .ite (.a · rfl fun _ => rfl) fun enc => .ite (.z · rfl rfl) fun flush =>
    .ite (.a · rfl fun _ => rfl) fun dbyte => .ite (.z · rfl rfl) fun dend => .unused ?_
  simp [formatOf, nop, rst, cfg, cnt, build, gen, emith, enc, flush, dbyte, dend]

section
variable {p : Prop} [Decidable p] {r : Except Reserved Instr} {e : Reserved}

/-- A check that rejects with `e` when it fails, passed. -/
theorem check_eq_ok_iff {i : Instr} : (if p then r else .error e) = .ok i ↔ p ∧ r = .ok i := by
  split <;> simp [*]

/-- A check that rejects with `e` when it fails, failed here or later. -/
theorem check_isError_iff : (∃ e', (if p then r else .error e) = .error e') ↔ (p → ∃ e', r = .error e') := by
  split <;> simp [*]

end

/-- R80, R83: a command is read only from its own word. -/
theorem DecodedRow.encode_eq {r : Except Reserved Instr} {i : Instr} (row : DecodedRow w r) (h : r = .ok i) : encode i = w := by
  cases row with
  | z hop _ hrow =>
    obtain ⟨hzero, ⟨⟩⟩ := check_eq_ok_iff.1 h
    rw [hrow, ← hop, wordZ_of_zero hzero]
  | a hop _ hrow =>
    obtain ⟨hzero, ⟨⟩⟩ := check_eq_ok_iff.1 h
    rw [hrow, ← hop, wordA_of_zero hzero]
  | cfg hop =>
    obtain ⟨hzero, hrest⟩ := check_eq_ok_iff.1 h
    obtain ⟨hbits, ⟨⟩⟩ := check_eq_ok_iff.1 hrest
    rw [encode, argField_of_zero hbits, ← hop, wordA_of_zero hzero]
  | unused => cases h

/-- R84: no command is read exactly from a word with an unused op or a "must be 0" bit set. -/
theorem DecodedRow.isError_iff {r : Except Reserved Instr} (row : DecodedRow w r) :
    (∃ e, r = .error e) ↔ WellFormed w = false := by
  cases row with
  | z hop hformat =>
    rw [wellFormed_eq_false_iff (hop ▸ hformat), Ne, and_zeroMask_z, decodeZ, check_isError_iff]
    simp
  | a hop hformat =>
    rw [wellFormed_eq_false_iff (hop ▸ hformat), Ne, and_zeroMask_a, decodeA, check_isError_iff]
    simp
  | cfg hop =>
    have hformat : formatOf (opField w) = some .cfg := hop ▸ rfl
    rw [wellFormed_eq_false_iff hformat, Ne, and_zeroMask_cfg, decodeCfg, check_isError_iff, check_isError_iff]
    simp
  | unused hformat => simp [wellFormed_of_unused hformat]

/-- Settles O2: by the row of its op, the word that decodes is the one that `encode` puts together from the same fields. -/
theorem encodeOfDecode : Obligations.EncodeOfDecode := fun w _ h => (decode_row w).encode_eq h

/-- Settles O3: row by row, the fields the decoder tests are the bits of the format's mask. -/
theorem rejectedWordsAreIllFormed : Obligations.RejectedWordsAreIllFormed := fun w => (decode_row w).isError_iff

end Sys2Proof
end

section
/-!
EMITH (spec rule R141): the bytes of the header it emits (R88), written out.
-/
namespace Sys2Proof.Machine

/-- R64: the alphabet size as two bytes of its value. -/
theorem bigEndian_nleaf (n : BitVec 9) :
    bigEndian 2 (n.setWidth 16) = [BitVec.ofNat 8 (n.toNat / 256), BitVec.ofNat 8 n.toNat] := by
  simp only [bigEndian, BitVec.extractLsb', BitVec.toNat_setWidth_of_le (show 9 ≤ 16 by decide), Nat.shiftRight_eq_div_pow]
  simp

/-- Items 1 to 4 of the artifact, byte by byte (R64, R88). -/
theorem headerBytes_eq (nleaf : BitVec 9) (freq : Memory Count) (len : BitLen) :
    headerBytes nleaf freq len =
      [0x48#8, 0x55#8, 0x46#8, 0x01#8] ++ [BitVec.ofNat 8 (nleaf.toNat / 256), BitVec.ofNat 8 nleaf.toNat] ++
        ((List.range 256).flatMap fun i =>
          if readFreq freq i = 0#32 then [] else
            [BitVec.ofNat 8 i, (readFreq freq i).extractLsb' 24 8, (readFreq freq i).extractLsb' 16 8,
              (readFreq freq i).extractLsb' 8 8, (readFreq freq i).extractLsb' 0 8]) ++
        [len.extractLsb' 56 8, len.extractLsb' 48 8, len.extractLsb' 40 8, len.extractLsb' 32 8,
          len.extractLsb' 24 8, len.extractLsb' 16 8, len.extractLsb' 8 8, len.extractLsb' 0 8] := by
  rw [headerBytes, bigEndian_nleaf]
  rfl

/-- R13, R141: the declared length fits DLEN. -/
theorem toNat_ofNat_declaredLength (freq : Memory Count) (code : Memory CodeEntry) :
    (BitVec.ofNat 64 (declaredLength freq code)).toNat = declaredLength freq code :=
  BitVec.toNat_ofNat _ 64 ▸ Nat.mod_eq_of_lt ((declaredLength_lt freq code).trans (by decide))

/-- R141: EMITH in its one phase. -/
theorem exec_emith_of_table {s : State} (he : s.err = .noFault) (hp : s.phase = .table) :
    exec .emith s = .next { s with
      outb := s.outb ++ headerBytes s.nleaf s.freq (BitVec.ofNat 64 (declaredLength s.freq s.code))
      dlen := BitVec.ofNat 64 (declaredLength s.freq s.code), bitcnt := 0#64, acc := 0#8, phase := .encode } := by
  rw [exec_emith]
  exact execute_ok he (by rw [hp]; rfl) rfl

/-- Settles O38: the declared length fits DLEN, and the header is its bytes. -/
theorem emithEmitsTheHeader : Obligations.EmithEmitsTheHeader := by
  intro s he hp
  refine ⟨BitVec.ofNat 64 (declaredLength s.freq s.code), toNat_ofNat_declaredLength s.freq s.code, ?_⟩
  rw [exec_emith_of_table he hp, headerBytes_eq]
  simp only [List.append_assoc]

end Sys2Proof.Machine
end

section
/-!
The block under a fault: every word but RST's is ignored (spec rules R100, R201). NOP, which changes nothing, stands here as well
(R101).
-/
namespace Sys2Proof.Machine

variable {s : State} {w : Word}

/-- R84, R100: a word that does not decode is an illegal word at the command port. -/
theorem presentWord_of_decode_error {e : Reserved} (h : decode w = .error e) (s : State) :
    presentWord w s = .next (illegalWord w s) := by
  simp only [presentWord, h]

/-- R201: a reserved word is ignored after a fault. -/
theorem illegalWord_of_faulted (he : s.err ≠ .noFault) (w : Word) : illegalWord w s = s := if_neg he

/-- R201: every command but RST is ignored after a fault. -/
theorem exec_of_faulted {i : Instr} (he : s.err ≠ .noFault) (hi : i ≠ .rst) : exec i s = .next s := by
  rw [exec_eq_execute s hi, execute_ignored he]

/-- R80, R83: RST is read from its own word only. -/
theorem ne_rst_of_decode {i : Instr} (h : decode w = .ok i) (hw : w ≠ 0x01000000#32) : i ≠ .rst := by
  rintro rfl
  exact hw (encodeOfDecode w .rst h).symm

/-- R201: a word at the command port after a fault, reserved or not. -/
theorem presentWord_of_faulted (he : s.err ≠ .noFault) (hw : w ≠ 0x01000000#32) : presentWord w s = .next s := by
  cases hdecode : decode w with
  | ok i => rw [presentWord_of_decode hdecode, exec_of_faulted he (ne_rst_of_decode hdecode hw)]
  | error e => rw [presentWord_of_decode_error hdecode, illegalWord_of_faulted he]

/-- Settles O7: the word is taken from the queue, and the command port ignores it, since only RST's own word decodes to RST. -/
theorem faultFreezesTheBlock : Obligations.FaultFreezesTheBlock := by
  intro s w rest hhost he hw
  calc step s
      _ = serve (.command w) { s with host := rest } := step_of_host_cons hhost
      _ = presentWord w { s with host := rest } := rfl
      _ = .next { s with host := rest } := presentWord_of_faulted he hw

/-- Settles O19: after a fault NOP is ignored; else every phase accepts it, and its rule answers the state as it is. -/
theorem nopChangesNothing : Obligations.NopChangesNothing := by
  intro s
  by_cases he : s.err = .noFault
  · exact (exec_nop s).trans (execute_ok he rfl rfl)
  · exact exec_of_faulted he (by decide)

end Sys2Proof.Machine
end

section
/-!
The queue order that PopMin follows, the mergers of BuildTree, its dependence on FREQ alone, its degenerate tables, and BUILD
(spec rules R111 to R117).
-/
namespace Sys2Proof.Machine

open Sys2Proof.Safety

/-! ### The queue order (R111) -/

/-- R111 in the words of its rule, on the weights themselves. -/
theorem before_iff_weight {m : Memory Node} {i j : Nat} :
    before m i j = true ↔
      (readNode m i).weight < (readNode m j).weight ∨ ((readNode m i).weight = (readNode m j).weight ∧ i < j) := by
  simp only [before, Bool.or_eq_true, Bool.and_eq_true, decide_eq_true_eq, beq_iff_eq]

theorem ne_of_before {m : Memory Node} {i j : Nat} (h : before m i j = true) : i ≠ j := by
  rintro rfl
  rw [before_iff] at h
  omega

/-- Settles O23: the first member comes before every other, and no other is equal to it. -/
theorem popMinTakesTheFirst : Obligations.PopMinTakesTheFirst := by
  intro m q hnodup hne
  obtain ⟨⟨a, q'⟩, hpop⟩ := Option.ne_none_iff_exists'.1 (mt popMin_eq_none.1 hne)
  obtain ⟨hperm, hfirst⟩ := popMin_spec hpop
  have ha : a ∉ q' := (List.nodup_cons.1 (hperm.nodup_iff.1 hnodup)).1
  refine ⟨a, q', hpop, hperm, fun j hj => before_iff_weight.1 ((hfirst j hj).resolve_left ?_)⟩
  rintro rfl
  exact ha hj

/-! ### The mergers (R112, R114) -/

/-- An entry of the tree from index `L` up merges two below it, of which the right one was popped first (R114 (c), (f)). -/
theorem HTree.Rep.children {m : Memory Node} {L : Nat} {T : HTree} (h : T.Rep m L) {i : Nat} (hi : i ∈ T.indices)
    (hL : L ≤ i) :
    (readNode m i).left.toNat < i ∧ (readNode m i).right.toNat < i ∧
    (readNode m i).weight.toNat =
      (readNode m (readNode m i).left.toNat).weight.toNat + (readNode m (readNode m i).right.toNat).weight.toNat ∧
    before m (readNode m i).right.toNat (readNode m i).left.toNat = true := by
  induction T with
  | leaf j =>
    obtain rfl : i = j := by simpa [indices] using hi
    exact absurd h.1 (by omega)
  | node j l r ihl ihr =>
    obtain ⟨⟨_, _, hlj, hrj, hbefore⟩, ⟨_, _, hleft, hright, hweight⟩, hl, hr⟩ := h
    simp only [indices, List.mem_cons, List.mem_append] at hi
    rcases hi with rfl | hi | hi
    · rw [hleft, hright]
      exact ⟨hlj, hrj, hweight, hbefore⟩
    · exact ihl hl hi
    · exact ihr hr hi

/-- Settles O28: the tree says what a merger holds, and the loop's own invariant that it took the two lowest. -/
theorem buildTreeInternalNodes : Obligations.BuildTreeInternalNodes := by
  intro s i hL hi
  obtain ⟨T, g⟩ := exists_grown_of_lt hi
  rw [toNat_buildTree_nn] at hi
  rw [toNat_buildTree_nleaf] at hL ⊢
  obtain ⟨hleft, hright, hweight, hbefore⟩ := g.rep.children (g.mem_indices.2 hi) hL
  obtain ⟨_, hlowest⟩ := g.lowest i hL hi
  exact ⟨hleft, hright, (ne_of_before hbefore).symm, hweight, before_iff_weight.1 hbefore,
    fun j hj hjl hjr hparentless => before_iff_weight.1 (hlowest j hj hjl hjr hparentless)⟩

/-! ### Dependence on FREQ alone (R113) -/

theorem minOf_congr {m m' : Memory Node} {i : Nat} {q : List Nat} (h : ∀ j ∈ i :: q, readNode m j = readNode m' j) :
    minOf m i q = minOf m' i q := by
  induction q generalizing i with
  | nil => rfl
  | cons j q ih =>
    rw [minOf, minOf, before_congr (h j (by simp)) (h i (by simp))]
    refine ih fun k hk => h k ?_
    split at hk
    · exact List.mem_cons_of_mem i hk
    · simp only [List.mem_cons] at hk ⊢
      exact hk.imp_right .inr

/-- PopMin reads the queue's own entries only. -/
theorem popMin_congr {m m' : Memory Node} {q : List Nat} (h : ∀ j ∈ q, readNode m j = readNode m' j) :
    popMin m q = popMin m' q := by
  cases q with
  | nil => rfl
  | cons i q => rw [popMin, popMin, minOf_congr h]

/-- Two forests with the same nodes, whatever NODE holds elsewhere. -/
structure Forest.Agree (f f' : Forest) : Prop where
  size : f.n = f'.n
  nodes : ∀ i, i < f.n → readNode f.nodes i = readNode f'.nodes i

theorem Forest.Agree.push {f f' : Forest} (h : f.Agree f') (x : Node) : (f.push x).Agree (f'.push x) where
  size := congrArg (· + 1) h.size
  nodes i hi := by
    simp only [Forest.push] at hi ⊢
    rw [readNode_writeNode, readNode_writeNode, ← h.size]
    split
    · rfl
    · exact h.nodes i (by omega)

theorem placeLeaves_agree (freq : Memory Count) (nodes nodes' : Memory Node) :
    (placeLeaves freq nodes).Agree (placeLeaves freq nodes') := by
  obtain ⟨hn, hleaf, _⟩ := placeLeaves_spec freq nodes
  obtain ⟨hn', hleaf', _⟩ := placeLeaves_spec freq nodes'
  refine ⟨hn.trans hn'.symm, fun i hi => ?_⟩
  rw [hn] at hi
  rw [hleaf i hi, hleaf' i hi]

/-- The merging loop reads only entries that it or the leaves wrote. -/
theorem mergeAll_agree (k : Nat) {f f' : Forest} {q : List Nat} (h : f.Agree f') (hq : ∀ j ∈ q, j < f.n) :
    (mergeAll k f q).Agree (mergeAll k f' q) := by
  induction k generalizing f f' q with
  | zero => exact h
  | succ k ih =>
    rw [mergeAll, mergeAll, ← popMin_congr fun j hj => h.nodes j (hq j hj)]
    cases ha : popMin f.nodes q with
    | none => exact h
    | some p =>
      obtain ⟨a, q₁⟩ := p
      have pa := (popMin_spec ha).1
      have hq₁ : ∀ j ∈ a :: q₁, j < f.n := fun j hj => hq j (pa.mem_iff.2 hj)
      simp only
      rw [← popMin_congr fun j hj => h.nodes j (hq₁ j (by simp [hj]))]
      cases hb : popMin f.nodes q₁ with
      | none => exact h
      | some p =>
        obtain ⟨b, q₂⟩ := p
        have pb := (popMin_spec hb).1
        have hq₂ : ∀ j ∈ b :: q₂, j < f.n := fun j hj => hq₁ j (by simp [pb.mem_iff.2 hj])
        have hmerged : mergedNode f'.nodes a b = mergedNode f.nodes a b := by
          rw [mergedNode, mergedNode, h.nodes a (hq₁ a (by simp)), h.nodes b (hq₂ b (by simp))]
        simp only [hmerged, ← h.size]
        refine ih (h.push _) fun j hj => Nat.lt_succ_iff.2 ?_
        rcases List.mem_append.1 hj with hj | hj
        · exact (hq₂ j (by simp [hj])).le
        · exact (List.mem_singleton.1 hj).le

/-- BuildTree's forest has the same nodes whatever NODE held before. -/
theorem growForest_agree (freq : Memory Count) (nodes nodes' : Memory Node) :
    (growForest freq nodes).Agree (growForest freq nodes') := by
  have h := placeLeaves_agree freq nodes nodes'
  rw [growForest, growForest, ← h.size]
  exact mergeAll_agree _ h fun j hj => List.mem_range.1 hj

/-- Settles O31: equal tables grow the same forest on one NODE, and forests on two NODEs have the same nodes. -/
theorem buildTreeDependsOnFreqAlone : Obligations.BuildTreeDependsOnFreqAlone := by
  intro s t hfreq
  obtain ⟨hgrow, hplace⟩ := growForest_congr hfreq s.node
  have hagree := growForest_agree t.freq s.node t.node
  have hleaves := placeLeaves_agree t.freq s.node t.node
  rw [← hgrow] at hagree
  have hroot : (buildTree s).root = (buildTree t).root := by simp only [buildTree, hagree.size]
  refine ⟨?_, ?_, hroot, hroot, fun i hi => ?_⟩
  · rw [buildTree_nleaf, buildTree_nleaf, hplace, hleaves.size]
  · rw [buildTree_nn, buildTree_nn, hagree.size]
  · rw [toNat_buildTree_nn] at hi
    exact hagree.nodes i hi

/-! ### The degenerate tables (R115, R117) -/

theorem present_eq_nil_iff_forall_sym {m : Memory Count} : present m = [] ↔ ∀ x : Sym, readFreq m x.toNat = 0#32 := by
  rw [present_eq_nil]
  refine ⟨fun h x => h x.toNat x.isLt, fun h i hi => ?_⟩
  rw [← toNat_symOf hi]
  exact h (symOf i)

theorem present_eq_singleton {m : Memory Count} {x : Sym} (hx : readFreq m x.toNat ≠ 0#32)
    (h : ∀ y : Sym, y ≠ x → readFreq m y.toNat = 0#32) : present m = [x.toNat] := by
  refine List.perm_singleton.1 ((List.perm_ext_iff_of_nodup (present_nodup m) (List.nodup_singleton _)).2 fun i => ?_)
  rw [mem_present, List.mem_singleton]
  constructor
  · rintro ⟨hi, hne⟩
    rw [← toNat_symOf hi] at hne ⊢
    exact congrArg BitVec.toNat (not_imp_comm.1 (h _) hne)
  · rintro rfl
    exact ⟨x.isLt, hx⟩

/-- R117: BuildTree of the empty table. -/
theorem buildTree_of_present_nil {s : State} (h : present s.freq = []) :
    buildTree s = { s with nleaf := 0#9, nn := 0#9, root := 0#9, walk := 0#9 } := by
  have hleaves := (placeLeaves_spec s.freq s.node).1
  simp only [buildTree, growForest_empty s.freq s.node h, hleaves, h, List.length_nil, if_true]

/-- Settles O32: the sizes of a list of no or one present symbol, and the leaf of the one. -/
theorem buildTreeDegenerateCases : Obligations.BuildTreeDegenerateCases := by
  refine fun s => ⟨fun h => buildTree_of_present_nil (present_eq_nil_iff_forall_sym.2 h), fun x hx hothers => ?_⟩
  have hpresent := present_eq_singleton hx hothers
  have hlength : (present s.freq).length = 1 := by rw [hpresent]; rfl
  have hn : (growForest s.freq s.node).n = 1 := by rw [growForest_n, hlength]
  refine ⟨BitVec.eq_of_toNat_eq ?_, BitVec.eq_of_toNat_eq ?_, BitVec.eq_of_toNat_eq ?_, ?_⟩
  · rw [toNat_buildTree_nleaf, hlength]; rfl
  · rw [toNat_buildTree_nn, hn]; rfl
  · rw [toNat_buildTree_root, hn]; rfl
  · rw [readNode_buildTree_leaf s (by omega)]
    simp only [hpresent, List.getElem_cons_zero, leafNode, symOf_toNat]

/-! ### BUILD (R116) -/

/-- R116: the check that BUILD makes before it runs BuildTree. -/
theorem build_forbidden_iff {s : State} :
    (freqEmpty s.freq && s.ctrl == 1#1) = true ↔ (∀ x : Sym, readFreq s.freq x.toNat = 0#32) ∧ s.ctrl = 1#1 := by
  rw [Bool.and_eq_true, beq_iff_eq, freqEmpty_iff, present_eq_nil_iff_forall_sym]

/-- Settles O24: IDLE and COUNT accept BUILD, whose rule answers by its check. -/
theorem buildBuildsTheTree : Obligations.BuildBuildsTheTree := by
  intro s herr hphase
  have haccepts : accepts .build s.phase = true := by simpa [accepts] using hphase
  rw [exec_build]
  refine ⟨fun hallowed => execute_ok herr haccepts (if_neg (mt build_forbidden_iff.1 hallowed)), fun hempty hctrl => ?_⟩
  exact execute_raised herr haccepts (if_pos (build_forbidden_iff.2 ⟨hempty, hctrl⟩))

end Sys2Proof.Machine
end

section
/-!
The code table that GenTable makes of the tree of FREQ (spec rules R130 to R134): who has a code, the turns a code stands for,
what it weighs, and that the decoder's walk of it emits its symbol (R163, R165).
-/
namespace Sys2Proof.Machine

open Sys2Proof.Safety

/-! ### The tree by turns (R130, R163) -/

namespace HTree

variable {m : Memory Node} {L : Nat} {T X : HTree}

theorem Rep.leaf_eq_false {i : Nat} {l r : HTree} (h : (node i l r).Rep m L) : (readNode m i).leaf = false := by
  obtain ⟨_, ⟨hleaf, _⟩, _⟩ := h
  exact hleaf

/-- Only a tree of one node has a leaf at its top (R132). -/
theorem Rep.idx_leaf_iff (h : T.Rep m L) : (readNode m T.idx).leaf = true ↔ T.leafCount = 1 := by
  cases T with
  | leaf i => exact iff_of_true h.2 rfl
  | node i l r =>
    have hl := l.leafCount_pos
    have hr := r.leafCount_pos
    exact iff_of_false (by simp [idx, h.leaf_eq_false]) (by simp only [leafCount]; omega)

theorem sub_append (T : HTree) (c d : BitString) : T.sub (c ++ d) = (T.sub c).bind fun X => X.sub d := by
  induction c generalizing T with
  | nil => rw [List.nil_append, sub_nil, Option.bind_some]
  | cons b c ih =>
    cases T with
    | leaf i => rfl
    | node i l r =>
      cases b with
      | false => exact ih l
      | true => exact ih r

/-- A proper beginning of the turns to a leaf leads to an internal node. -/
theorem sub_take {c : BitString} {k j : Nat} (h : T.sub c = some (leaf j)) (hk : k < c.length) :
    ∃ i l r, T.sub (c.take k) = some (node i l r) := by
  rw [← List.take_append_drop k c, sub_append] at h
  obtain ⟨X, hX, hrest⟩ := Option.bind_eq_some_iff.1 h
  cases X with
  | leaf i =>
    rw [List.drop_eq_getElem_cons hk] at hrest
    cases hrest
  | node i l r => exact ⟨i, l, r, hX⟩

/-- In NODE, the turns of the tree are the steps to the child fields. -/
theorem Rep.descend (h : T.Rep m L) {i : NodeIdx} (hi : i.toNat = T.idx) {c : BitString} (hc : T.sub c = some X) :
    (descend m i c).toNat = X.idx := by
  induction c generalizing T i with
  | nil =>
    rw [sub_nil] at hc
    cases hc
    exact hi
  | cons b c ih =>
    cases T with
    | leaf j => cases hc
    | node j l r =>
      obtain ⟨_, ⟨_, _, hleft, hright, _⟩, hl, hr⟩ := h
      rw [idx] at hi
      cases b with
      | false => exact ih hl (i := childOf m i false) (by simp [childOf, hi, hleft]) hc
      | true => exact ih hr (i := childOf m i true) (by simp [childOf, hi, hright]) hc

/-! ### What the paths weigh (R133 (e)) -/

/-- The leaves weigh what the root does. -/
theorem Rep.leaves_weight (h : T.Rep m L) :
    (T.codes.map fun p => (readNode m p.1).weight.toNat).sum = (readNode m T.idx).weight.toNat := by
  induction T with
  | leaf i => simp [codes, idx]
  | node i l r ihl ihr =>
    obtain ⟨_, ⟨_, _, _, _, hweight⟩, hl, hr⟩ := h
    simp only [codes, List.map_append, List.map_map, List.sum_append, Function.comp_def, ihl hl, ihr hr]
    exact hweight.symm

/-- Each internal node weighs once for each leaf below it: the weighted lengths of the paths are the weights of the internal
nodes. -/
theorem Rep.paths_weight (h : T.Rep m L) :
    (T.codes.map fun p => (readNode m p.1).weight.toNat * p.2.length).sum =
      (T.indices.map fun i => if L ≤ i then (readNode m i).weight.toNat else 0).sum := by
  induction T with
  | leaf i =>
    have hi : ¬L ≤ i := by
      have := h.1
      omega
    simp [codes, indices, hi]
  | node i l r ihl ihr =>
    obtain ⟨⟨hL, _⟩, ⟨_, _, _, _, hweight⟩, hl, hr⟩ := h
    simp only [codes, indices, List.map_append, List.map_map, List.map_cons, List.sum_append, List.sum_cons, Function.comp_def,
      List.length_cons, Nat.mul_succ, List.sum_map_add, if_pos hL, ihl hl, ihr hr, hl.leaves_weight, hr.leaves_weight, hweight]
    omega

end HTree

/-- The paths end at the leaves, each once. -/
theorem Grown.codes_perm {freq : Memory Count} {f : Forest} {T : HTree} (g : Grown freq f T) :
    (T.codes.map Prod.fst).Perm (List.range (present freq).length) := by
  refine (List.perm_ext_iff_of_nodup (T.codes_nodup g.indices_nodup) List.nodup_range).2 fun j => ?_
  rw [List.mem_range]
  constructor
  · intro hj
    obtain ⟨p, hp, rfl⟩ := List.mem_map.1 hj
    exact (T.codes_leaf g.rep p hp).1
  · intro hj
    have hsize := g.size
    obtain ⟨c, hc⟩ := T.mem_codes g.rep j (g.mem_indices.2 (by omega)) hj
    exact List.mem_map.2 ⟨_, hc, rfl⟩

theorem Grown.length_path_le {freq : Memory Count} {f : Forest} {T : HTree} (g : Grown freq f T) {p : Nat × BitString}
    (hp : p ∈ T.codes) : p.2.length ≤ 255 := by
  have hdepth := T.codes_length_le p hp
  have hleaves := T.depth_lt
  have hpresent := present_length_le freq
  rw [g.leaves] at hleaves
  omega

/-! ### The tree of FREQ -/

theorem treeOfFreq_toNat_nleaf {s : State} (h : TreeOfFreq s) : s.nleaf.toNat = (present s.freq).length := by
  obtain ⟨_, hnleaf, _, _⟩ := h
  rw [hnleaf]
  exact toNat_buildTree_nleaf { s with node := [] }

theorem treeOfFreq_toNat_nn {s : State} (h : TreeOfFreq s) : s.nn.toNat = (growForest s.freq []).n := by
  obtain ⟨_, _, hnn, _⟩ := h
  rw [hnn]
  exact toNat_buildTree_nn { s with node := [] }

theorem leafNode_weight (i : Nat) (k : Count) : (leafNode i k).weight.toNat = k.toNat :=
  BitVec.toNat_setWidth_of_le (by decide)

/-- The leaves' symbols are the present ones, in order (R113, R114 (b)). -/
theorem treeOfFreq_present_eq {s : State} (h : TreeOfFreq s) :
    present s.freq = (List.range (present s.freq).length).map fun j => (readNode s.node j).sym.toNat := by
  refine List.ext_getElem (by simp) fun j hj _ => ?_
  rw [List.getElem_map, List.getElem_range, treeOfFreq_leaf h j hj]
  exact (toNat_symOf (mem_present.1 (List.getElem_mem hj)).1).symm

/-! ### The table of the tree of FREQ -/

/-- NODE holds the tree `T` that BuildTree makes of FREQ, ROOT is at its top, and `c` is the table of its paths. -/
structure Coded (s : State) (T : HTree) (c : Memory CodeEntry) : Prop where
  tree : TreeOfFreq s
  grown : Grown s.freq (growForest s.freq []) T
  rep : T.Rep s.node (present s.freq).length
  root : s.root.toNat = T.idx
  codes : CodesOf s.freq T c

theorem present_ne_nil {freq : Memory Count} {x : Sym} (hx : readFreq freq x.toNat ≠ 0#32) : present freq ≠ [] :=
  List.ne_nil_of_mem (mem_present.2 ⟨x.isLt, hx⟩)

/-- GenTable answers the table of the tree of FREQ (R130, R131). -/
theorem exists_coded {s : State} (h : TreeOfFreq s) (hne : present s.freq ≠ []) :
    ∃ T c, Coded s T c ∧ genTable s.nn s.root s.node = .ok c := by
  rcases treeOfFreq_genTable h with ⟨hnil, _⟩ | ⟨T, c, _, hgrown, hrep, hcodes, hgen, hroot⟩
  · exact absurd hnil hne
  · exact ⟨T, c, ⟨h, hgrown, hrep, hroot, hcodes⟩, hgen⟩

theorem coded_of_genTable {s : State} {c : Memory CodeEntry} (h : TreeOfFreq s) (hne : present s.freq ≠ [])
    (hgen : genTable s.nn s.root s.node = .ok c) : ∃ T, Coded s T c := by
  obtain ⟨T, c', hcoded, hgen'⟩ := exists_coded h hne
  rw [hgen] at hgen'
  cases hgen'
  exact ⟨T, hcoded⟩

theorem coded_of_exec_gen {s t : State} (he : s.err = .noFault) (hp : s.phase = .tree) (h : TreeOfFreq s)
    (hne : present s.freq ≠ []) (hexec : exec .gen s = .next t) : ∃ T, Coded s T t.code := by
  obtain ⟨T, c, hcoded, hgen⟩ := exists_coded h hne
  rw [exec_gen_of_genTable he hp hgen] at hexec
  cases hexec
  exact ⟨T, hcoded⟩

namespace Coded

variable {s : State} {T : HTree} {c : Memory CodeEntry} {x : Sym}

/-- Exactly the present symbols have a code (R133 (a), (b)). -/
theorem clen_ne_iff (h : Coded s T c) : (readCode c x).clen ≠ 0#8 ↔ Present s x := by
  refine ⟨fun hclen habsent => hclen ?_, h.codes.clen_ne h.grown x⟩
  rw [h.codes.absent x habsent]
  rfl

/-- ROOT is a leaf exactly when one symbol is present (R132). -/
theorem root_leaf_iff (h : Coded s T c) :
    (readNode s.node s.root.toNat).leaf = true ↔ (present s.freq).length = 1 := by
  rw [h.root, h.rep.idx_leaf_iff, h.grown.leaves]

/-- The only symbol: its leaf is ROOT, and its code is "0" (R115, R132). -/
theorem single (h : Coded s T c) (hone : (present s.freq).length = 1) (hx : Present s x) :
    (readNode s.node s.root.toNat).sym = x ∧ lookup c x = [false] := by
  obtain ⟨j, p, hj, hjx, _, _, _, _, hlookup⟩ := h.codes.present h.grown x hx
  have hrootj : s.root.toNat = j := by
    have := h.root
    have := h.grown.root
    have := h.grown.size
    omega
  rw [hrootj, treeOfFreq_leaf h.tree j hj, hjx, hlookup, if_pos hone]
  exact ⟨symOf_toNat x, rfl⟩

/-- One symbol of several: its code is the path to its leaf, and not empty (R130, R133 (a)). -/
theorem path (h : Coded s T c) (hmany : (present s.freq).length ≠ 1) (hx : Present s x) :
    ∃ j, (j, lookup c x) ∈ T.codes ∧ lookup c x ≠ [] ∧
      (readNode s.node j).leaf = true ∧ (readNode s.node j).sym = x := by
  obtain ⟨j, p, hj, hjx, hp, _, hne, _, hlookup⟩ := h.codes.present h.grown x hx
  rw [hlookup, if_neg hmany]
  refine ⟨j, hp, hne hmany, ?_⟩
  rw [treeOfFreq_leaf h.tree j hj, hjx]
  exact ⟨rfl, symOf_toNat x⟩

/-- A leaf and its path hold the count and the code's length of the leaf's symbol (R114 (b), R133 (d)). -/
theorem leaf_entry (h : Coded s T c) (hmany : (present s.freq).length ≠ 1) {p : Nat × BitString} (hp : p ∈ T.codes) :
    (readFreq s.freq (readNode s.node p.1).sym.toNat).toNat = (readNode s.node p.1).weight.toNat ∧
      (readCode c (readNode s.node p.1).sym).clen.toNat = p.2.length := by
  have hj := (T.codes_leaf h.rep p hp).1
  have hcode := h.codes.code p.1 hj p.2 hp
  rw [if_neg hmany] at hcode
  rw [treeOfFreq_leaf h.tree p.1 hj, leafNode_weight, ← codeEntry_clen p.2 (h.grown.length_path_le hp), ← hcode]
  refine ⟨?_, rfl⟩
  rw [leafNode, toNat_symOf (mem_present.1 (List.getElem_mem hj)).1]

/-- The declared length, leaf by leaf (R133 (e)): the paths go to the present symbols, each once. -/
theorem declaredLength_eq (h : Coded s T c) (hmany : (present s.freq).length ≠ 1) :
    declaredLength s.freq c = (T.codes.map fun p => (readNode s.node p.1).weight.toNat * p.2.length).sum := by
  have hperm : (present s.freq).Perm (T.codes.map fun p => (readNode s.node p.1).sym.toNat) := by
    have hmap := (h.grown.codes_perm.map fun j => (readNode s.node j).sym.toNat).symm
    rwa [← treeOfFreq_present_eq h.tree, List.map_map] at hmap
  have habsent : ∀ i, readFreq s.freq i = 0#32 → (readFreq s.freq i).toNat * (readCode c (symOf i)).clen.toNat = 0 :=
    fun i hi => by rw [hi]; exact Nat.zero_mul _
  rw [declaredLength, ← sum_present s.freq _ habsent, (hperm.map _).sum_eq, List.map_map]
  refine congrArg List.sum (List.map_congr_left fun p hp => ?_)
  obtain ⟨hfreq, hclen⟩ := h.leaf_entry hmany hp
  rw [Function.comp_apply, symOf_toNat, hfreq, hclen]

end Coded

/-- Settles O33: the empty tree has the empty table, and any other the table of its paths. -/
theorem genGivesEachPresentSymbolACode : Obligations.GenGivesEachPresentSymbolACode := by
  intro s he hp htree
  by_cases hnil : present s.freq = []
  · rcases treeOfFreq_genTable htree with ⟨_, hgen⟩ | ⟨_, _, hne, _⟩
    · refine ⟨[], exec_gen_of_genTable he hp hgen, fun x => iff_of_false (fun h => h rfl) fun hx => ?_⟩
      exact present_ne_nil hx hnil
    · exact absurd hnil hne
  · obtain ⟨T, c, hcoded, hgen⟩ := exists_coded htree hnil
    exact ⟨c, exec_gen_of_genTable he hp hgen, fun x => hcoded.clen_ne_iff⟩

/-- Settles O35: the turns of the tree are the steps in NODE, and only the last one of a path ends at a leaf. -/
theorem genCodesAreRootToLeafPaths : Obligations.GenCodesAreRootToLeafPaths := by
  intro s t he hp htree htwo hexec x hx
  rw [treeOfFreq_toNat_nleaf htree] at htwo
  obtain ⟨T, hcoded⟩ := coded_of_exec_gen he hp htree (present_ne_nil hx) hexec
  obtain ⟨j, hpath, _, hleaf, hsym⟩ := hcoded.path (by omega) hx
  have hsub := (T.mem_codes_iff _ _).1 hpath
  have hend := hcoded.rep.descend hcoded.root hsub
  refine ⟨?_, ?_, fun k hk => ?_⟩
  · rw [hend]
    exact hleaf
  · rw [hend]
    exact hsym
  · obtain ⟨i, l, r, hprefix⟩ := HTree.sub_take hsub hk
    obtain ⟨hinternal, _⟩ := hcoded.rep.sub _ hprefix
    rw [hcoded.rep.descend hcoded.root hprefix]
    exact hinternal.leaf_eq_false

/-- Settles O36: the table of a tree of one leaf. -/
theorem genSingleLeafCode : Obligations.GenSingleLeafCode := by
  intro s x he hp htree hx hothers
  have hone : (present s.freq).length = 1 := by rw [present_eq_singleton hx hothers]; rfl
  obtain ⟨T, c, hcoded, hgen⟩ := exists_coded htree (present_ne_nil hx)
  obtain ⟨_, hcode⟩ := hcoded.single hone hx
  exact ⟨c, exec_gen_of_genTable he hp hgen, hcode, fun y hy => hcoded.codes.absent y (hothers y hy)⟩

/-- Settles O37: each internal node weighs once in the code of each leaf below it. -/
theorem genLengthIsInternalWeight : Obligations.GenLengthIsInternalWeight := by
  intro s t he hp htree htwo hexec
  rw [treeOfFreq_toNat_nleaf htree] at htwo ⊢
  obtain ⟨T, hcoded⟩ := coded_of_exec_gen he hp htree (List.ne_nil_of_length_pos (by omega)) hexec
  rw [hcoded.declaredLength_eq (by omega), hcoded.rep.paths_weight, treeOfFreq_toNat_nn htree]
  exact (hcoded.grown.each.map _).sum_eq

/-- Settles O47: a single leaf takes its one 0 bit, and any other code is walked to its leaf. -/
theorem walkOfACodeEmitsItsSymbol : Obligations.WalkOfACodeEmitsItsSymbol := by
  intro s c x htree hgen hx hwalk hlen
  have hdlen := s.dlen.isLt
  have hroot := treeOfFreq_root_lt htree
  obtain ⟨T, hcoded⟩ := coded_of_genTable htree (present_ne_nil hx) hgen
  refine ⟨s.bitcnt + BitVec.ofNat 64 (lookup c x).length, by rw [BitVec.toNat_add, BitVec.toNat_ofNat]; omega, ?_⟩
  by_cases hone : (present s.freq).length = 1
  · obtain ⟨hsym, hcode⟩ := hcoded.single hone hx
    rw [hcode] at hlen ⊢
    have hmin : min (s.bitcnt.toNat + [false].length) s.dlen.toNat = s.bitcnt.toNat + 1 := Nat.min_eq_left hlen
    rw [payloadBits_single _ s (by omega) hroot (hcoded.root_leaf_iff.2 hone) hwalk, hmin, hsym]
    simp [BitVec.ofNat_add]
  · obtain ⟨j, hpath, hne, _, hsym⟩ := hcoded.path hone hx
    have hinternal : (readNode s.node s.root.toNat).leaf = false :=
      Bool.eq_false_iff.2 (mt hcoded.root_leaf_iff.1 hone)
    rw [payloadBits_path T s hcoded.rep (hwalk ▸ hcoded.root) hroot hinternal j _ hpath hne hlen, hsym, ← hwalk]

end Sys2Proof.Machine
end

section
/-!
ENC and FLUSH (spec rules R140, R142, R143), each by the check it makes before it packs or emits anything.
-/
namespace Sys2Proof.Machine

open Sys2Proof.Safety

variable {s : State}

theorem runCommands_singleton (i : Instr) (s : State) : runCommands [i] s = exec i s := by
  rw [runCommands]
  cases exec i s <;> rfl

/-! ### ENC -/

/-- Settles O39: ENC is an encode pass of one symbol. -/
theorem encPacksTheWholeCode : Obligations.EncPacksTheWholeCode := by
  intro s x he hp hclean hcode hroom
  obtain ⟨a, n, o, hrun, _, hcount, hbits, hclean'⟩ := runCommands_enc [x] s he hp hclean
    (fun y hy => List.mem_singleton.1 hy ▸ hcode) (by simpa [length_lookup] using hroom)
  rw [List.map_singleton, runCommands_singleton] at hrun
  exact ⟨a, n, o, hrun, by simpa [length_lookup] using hcount, by simpa using hbits, hclean'⟩

/-- Settles O40: the code is looked up first, and its length compared with the room in DLEN after that. -/
theorem encFaults : Obligations.EncFaults := by
  intro s x he hp
  have haccepts : accepts (.enc x) s.phase = true := by rw [hp]; rfl
  rw [exec_enc]
  refine ⟨fun hnone => execute_raised he haccepts (if_pos ?_), fun hsome hover => execute_raised he haccepts ?_⟩
  · rw [hnone]
    rfl
  · exact (if_neg fun h => hsome (BitVec.eq_of_toNat_eq h)).trans (if_pos hover)

/-! ### FLUSH -/

/-- Settles O41: the length is checked first, and the byte boundary after that. -/
theorem flushPadsTheLastByte : Obligations.FlushPadsTheLastByte := by
  intro s he hp
  have haccepts : accepts .flush s.phase = true := by rw [hp]; rfl
  rw [exec_flush]
  refine ⟨fun hlen hwhole => execute_ok he haccepts ?_, fun hlen hpart => execute_ok he haccepts ?_,
    fun hlen => execute_raised he haccepts (if_pos hlen)⟩
  · exact (if_neg (not_not.2 hlen)).trans (if_neg (not_not.2 hwhole))
  · exact (if_neg (not_not.2 hlen)).trans (if_pos hpart)

/-- Eight bits to a byte (R63). -/
theorem length_flatMap_bitsOf (bs : List Byte) : (bs.flatMap bitsOf).length = 8 * bs.length := by
  simp [List.length_flatMap, bitsOf, Nat.mul_comm]

/-- R31, R143: a clean ACC is its payload bits followed by the zero padding. -/
theorem bitsOf_acc (hclean : AccClean s) :
    bitsOf s.acc =
      (bitsOf s.acc).take (s.bitcnt.toNat % 8) ++ List.replicate (8 - s.bitcnt.toNat % 8) false := by
  have hdrop : (bitsOf s.acc).drop (s.bitcnt.toNat % 8) = List.replicate (8 - s.bitcnt.toNat % 8) false := by
    refine List.eq_replicate_iff.2 ⟨List.length_drop, fun b hb => ?_⟩
    obtain ⟨j, hj, rfl⟩ := List.getElem_of_mem hb
    rw [List.length_drop, show (bitsOf s.acc).length = 8 from rfl] at hj
    simpa [bitsOf_eq] using hclean (7 - (s.bitcnt.toNat % 8 + j)) (by omega)
  rw [← hdrop, List.take_append_drop]

/-- FLUSH at the end of the payload: the bytes `q` emitted since the header and the last one, padded, hold the packed bits `c`
and fewer than eight zeros (R143, R144). -/
theorem exec_flush_payload {start q : List Byte} {c : BitString} (he : s.err = .noFault) (hp : s.phase = .encode)
    (hclean : AccClean s) (hlen : s.bitcnt = s.dlen) (hc : c.length = s.dlen.toNat) (hout : s.outb = start ++ q)
    (hbits : q.flatMap bitsOf ++ (bitsOf s.acc).take (s.bitcnt.toNat % 8) = c) :
    ∃ payload, exec .flush s = .next { s with outb := start ++ payload, acc := 0#8, phase := .edone } ∧
      payload.length = (s.dlen.toNat + 7) / 8 ∧
      payload.flatMap bitsOf = c ++ List.replicate (8 * payload.length - s.dlen.toNat) false := by
  have hq : 8 * q.length + s.bitcnt.toNat % 8 = s.bitcnt.toNat := by
    have hcount := congrArg List.length hbits
    rw [List.length_append, length_flatMap_bitsOf, List.length_take, show (bitsOf s.acc).length = 8 from rfl, hc,
      ← hlen] at hcount
    omega
  obtain ⟨hwhole, hpart, _⟩ := flushPadsTheLastByte s he hp
  by_cases h8 : s.bitcnt.toNat % 8 = 0
  · refine ⟨q, ?_, ?_, ?_⟩
    · rw [hwhole hlen h8, ← hout, ← acc_eq_zero_of_accClean hclean h8]
    · rw [← hlen]
      omega
    · rw [← hbits, ← hlen, h8, show 8 * q.length - s.bitcnt.toNat = 0 by omega, List.take_zero, List.replicate_zero,
        List.append_nil, List.append_nil]
  · refine ⟨q ++ [s.acc], ?_, ?_, ?_⟩
    · rw [hpart hlen h8, hout, List.append_assoc]
    · rw [← hlen, List.length_append, List.length_singleton]
      omega
    · have hpad : 8 * (q ++ [s.acc]).length - s.dlen.toNat = 8 - s.bitcnt.toNat % 8 := by
        rw [← hlen, List.length_append, List.length_singleton]
        omega
      rw [hpad, List.flatMap_append, List.flatMap_singleton, bitsOf_acc hclean, ← List.append_assoc, hbits]

end Sys2Proof.Machine
end

section
/-!
The encode call COMPRESS p, S (spec rules R87, R144, R145), pass by pass: the count pass, the commands between the passes, and the
encode pass with FLUSH.
-/
namespace Sys2Proof.Machine

open Sys2Proof.Safety

variable {s : State} {S : List Sym}

/-- The state after the count pass of a call with policy bit `p`, whose table is `m` (R87, R110). -/
def afterCountPass (s : State) (p : BitVec 1) (S : List Sym) (m : Memory Count) : State :=
  { clearCall s with ctrl := p, freq := m, phase := if S = [] then .idle else .count }

/-- The state that BUILD, GEN and EMITH leave: the tree of FREQ, the code table `c`, and the header with the declared length
`len` on OUTB (R116, R131, R141). -/
def afterHeader (s : State) (c : Memory CodeEntry) (len : BitLen) : State :=
  { buildTree s with
    code := c, outb := s.outb ++ headerBytes (buildTree s).nleaf s.freq len
    dlen := len, bitcnt := 0#64, acc := 0#8, phase := .encode }

/-- R87, R110: RST, CFG and the count pass leave the count table of the symbols. -/
theorem runCommands_countPass (s : State) (p : BitVec 1) (hS : ∀ x, S.count x < 2 ^ 32) :
    ∃ m, runCommands ([.rst, .cfg p] ++ S.map .cnt) s = .next (afterCountPass s p S m) ∧
      ∀ x : Sym, (readFreq m x.toNat).toNat = S.count x := by
  have hempty : ∀ x : Sym, (readFreq [] x.toNat).toNat = 0 := fun _ => rfl
  obtain ⟨m, hrun, hfreq⟩ := runCommands_cnt S { clearCall s with ctrl := p } rfl (.inl rfl) fun x => by
    simpa [clearCall, State.reset, hempty] using hS x
  refine ⟨m, ?_, fun x => ?_⟩
  · rw [List.cons_append, runCommands_cons (exec_rst s), List.cons_append,
      runCommands_cons (cfgWritesPolicyBit _ p rfl (.inl rfl))]
    exact hrun
  · rw [hfreq x]
    exact Nat.zero_add _

/-- R116, R131, R141: BUILD, GEN and EMITH on a table that the policy allows. -/
theorem runCommands_tables (he : s.err = .noFault) (hp : s.phase = .idle ∨ s.phase = .count) (hnode : s.node = [])
    (hallowed : ¬((∀ x : Sym, readFreq s.freq x.toNat = 0#32) ∧ s.ctrl = 1#1)) :
    ∃ c len, runCommands [.build, .gen, .emith] s = .next (afterHeader s c len) ∧
      len.toNat = declaredLength s.freq c ∧ ∀ x : Sym, (readCode c x).clen ≠ 0#8 ↔ Present s x := by
  have hbuild := (buildBuildsTheTree s he hp).1 hallowed
  have htree : TreeOfFreq { buildTree s with phase := .tree } := treeOfFreq_buildTree hnode rfl rfl rfl rfl rfl
  obtain ⟨c, hgen, hclen⟩ := genGivesEachPresentSymbolACode { buildTree s with phase := .tree } he rfl htree
  refine ⟨c, _, ?_, toNat_ofNat_declaredLength s.freq c, hclen⟩
  rw [runCommands_cons hbuild, runCommands_cons hgen, runCommands_singleton]
  exact exec_emith_of_table he rfl

/-- R141: on the count table of a sequence the declared length is what the codes of the sequence come to. -/
theorem declaredLength_of_counts {m : Memory Count} (code : Memory CodeEntry)
    (hm : ∀ x : Sym, (readFreq m x.toNat).toNat = S.count x) :
    declaredLength m code = (S.map fun x => (lookup code x).length).sum := by
  have hnodup : (allSymbols.map symOf).Nodup := List.Nodup.map_on
    (fun i hi j hj h => symOf_inj (List.mem_range.1 hi) (List.mem_range.1 hj) h) List.nodup_range
  have hmem : ∀ x : Sym, x ∈ (allSymbols.map symOf).toFinset := fun x =>
    List.mem_toFinset.2 (List.mem_map.2 ⟨x.toNat, List.mem_range.2 x.isLt, symOf_toNat x⟩)
  calc declaredLength m code
      _ = ((allSymbols.map symOf).map fun x => S.count x * (lookup code x).length).sum := by
        rw [declaredLength, List.map_map]
        refine congrArg List.sum (List.map_congr_left fun i hi => ?_)
        rw [Function.comp_apply, ← hm, toNat_symOf (List.mem_range.1 hi), length_lookup]
      _ = ∑ x ∈ (allSymbols.map symOf).toFinset, S.count x * (lookup code x).length :=
        (List.sum_toFinset _ hnodup).symm
      _ = ∑ x ∈ S.toFinset, S.count x • (lookup code x).length :=
        (Finset.sum_subset (fun x _ => hmem x) fun x _ hx => by
          rw [List.count_eq_zero.2 (mt List.mem_toFinset.2 hx), Nat.zero_mul]).symm
      _ = (S.map fun x => (lookup code x).length).sum := (Finset.sum_list_map_count S _).symm

/-- R142 to R144: after EMITH, the encode pass of a sequence whose codes come to the declared length, and FLUSH. -/
theorem runCommands_encodePass (he : s.err = .noFault) (hp : s.phase = .encode) (hn : s.bitcnt = 0#64) (ha : s.acc = 0#8)
    (hcode : ∀ x ∈ S, (readCode s.code x).clen ≠ 0#8)
    (hlen : s.dlen.toNat = (S.map fun x => (lookup s.code x).length).sum) :
    ∃ payload, runCommands (S.map .enc ++ [.flush]) s = .next { s with
        outb := s.outb ++ payload, acc := 0#8, bitcnt := s.dlen, phase := .edone } ∧
      payload.length = (s.dlen.toNat + 7) / 8 ∧
      payload.flatMap bitsOf =
        S.flatMap (lookup s.code) ++ List.replicate (8 * payload.length - s.dlen.toNat) false := by
  have hstart : packedBits s = s.outb.flatMap bitsOf := by simp [packedBits, hn]
  obtain ⟨a, n, o, hrun, ⟨q, hq⟩, hcount, hbits, hclean⟩ :=
    runCommands_enc S s he hp (accClean_of_acc_eq_zero ha) hcode (by rw [hn, hlen]; exact (Nat.zero_add _).le)
  have hfull : n = s.dlen := BitVec.eq_of_toNat_eq (by rw [hcount, hlen, hn]; exact Nat.zero_add _)
  subst hfull
  rw [hstart, packedBits, ← hq, List.flatMap_append, List.append_assoc, List.append_cancel_left_eq] at hbits
  obtain ⟨payload, hflush, hpayload⟩ := exec_flush_payload (s := { s with acc := a, bitcnt := s.dlen, outb := o })
    he hp hclean rfl (by rw [List.length_flatMap, hlen]) hq.symm hbits
  exact ⟨payload, by rw [runCommands_append_next hrun, runCommands_singleton, hflush], hpayload⟩

/-- Settles O58: the sequence that was counted is encoded, so each symbol has a code and the codes come to the declared length. -/
theorem encodeCallEmitsTheArtifact : Obligations.EncodeCallEmitsTheArtifact := by
  intro s p S hS hpolicy
  obtain ⟨m, hcountPass, hfreq⟩ := runCommands_countPass s p hS
  have hpresent : ∀ x ∈ S, readFreq m x.toNat ≠ 0#32 := by
    intro x hx habsent
    have hpos := List.count_pos_iff.2 hx
    rw [← hfreq x, habsent] at hpos
    exact absurd hpos (by decide)
  have hphase : (afterCountPass s p S m).phase = .idle ∨ (afterCountPass s p S m).phase = .count :=
    (em (S = [])).imp (fun h => if_pos h) fun h => if_neg h
  have hallowed : ¬((∀ x : Sym, readFreq m x.toNat = 0#32) ∧ p = 1#1) := by
    rintro ⟨hempty, rfl⟩
    obtain ⟨x, hx⟩ := List.exists_mem_of_ne_nil S (hpolicy.resolve_left (by decide))
    exact hpresent x hx (hempty x)
  obtain ⟨c, len, htables, hlen, hcode⟩ := runCommands_tables rfl hphase rfl hallowed
  have hsum : len.toNat = (S.map fun x => (lookup c x).length).sum := hlen.trans (declaredLength_of_counts c hfreq)
  obtain ⟨payload, hencodePass, hlength, hbits⟩ := runCommands_encodePass
    (s := afterHeader (afterCountPass s p S m) c len) rfl rfl rfl rfl (fun x hx => (hcode x).2 (hpresent x hx)) hsum
  have hcall : runCommands (Instr.compress p S) s =
      runCommands (S.map .enc ++ [.flush]) (afterHeader (afterCountPass s p S m) c len) := by
    rw [Instr.compress, List.append_assoc, List.append_assoc, runCommands_append_next hcountPass,
      runCommands_append_next htables]
  exact ⟨_, payload, hcall.trans hencodePass, rfl, rfl, hfreq, hsum, rfl, rfl, hlength, hbits⟩

end Sys2Proof.Machine
end

section
/-!
DBYTE and DEND, one command at a time (spec rules R160 to R168): the first and the last item of a header, a payload byte as its
eight payload bits, and the commands at the end of an artifact.
-/
namespace Sys2Proof.Machine

open Sys2Proof.Safety

variable {s t u : State} {b : Byte}

/-! ### The first and the last item of a header (R161, R162) -/

theorem headerByte_eq_magicByte (h : s.hcnt.toNat ≤ 3) : headerByte b s = magicByte b s := if_pos h

/-- The header ends at the byte at offset 13 + 5 * HN. -/
theorem headerByte_eq_headerEnd (h : s.hcnt.toNat = 13 + 5 * s.hn.toNat) :
    headerByte b s = headerEnd (shiftIn s.hshift b) s := by
  rw [headerByte_eq_lengthByte (by omega), lengthByte, if_neg (by omega)]

theorem buildTree_nleaf_eq_zero_iff : (buildTree s).nleaf = 0#9 ↔ presentCount s.freq = 0 := by
  rw [← BitVec.toNat_inj, toNat_buildTree_nleaf, presentCount_eq]
  rfl

/-- HeaderEnd refuses bits of an empty alphabet, and else leaves the tree of the parsed table (R162). -/
theorem headerEnd_eq_ite (v : BitLen) (s : State) :
    headerEnd v s = if presentCount s.freq = 0 ∧ v ≠ 0#64 then corrupt else
      .ok { buildTree s with
        dlen := v, hshift := 0#64, bitcnt := 0#64, hcnt := s.hcnt + 1#11, phase := if v = 0#64 then .dtail else .dpay } := by
  simp only [← buildTree_nleaf_eq_zero_iff]
  rfl

/-- Settles O42: the byte is compared with the one magic byte of its offset. -/
theorem headerMagicBytes : Obligations.HeaderMagicBytes := by
  intro s b he hp hk
  have hmagic : headerByte b s = magicByte b s := headerByte_eq_magicByte hk
  exact ⟨fun hb => exec_headerByte he hp (hmagic.trans (if_pos hb)),
    fun hb => exec_headerByte_corrupt he hp (hmagic.trans (if_neg hb))⟩

/-- Settles O46: the byte completes the declared length, and HeaderEnd answers by its check. -/
theorem headerEndRebuildsTheTree : Obligations.HeaderEndRebuildsTheTree := by
  intro s b he hp hk
  exact ⟨shiftIn s.hshift b, shiftIn_toNat (by decide) _ _,
    exec_headerByte_ite he hp ((headerByte_eq_headerEnd hk).trans (headerEnd_eq_ite _ s))⟩

/-! ### A payload byte as its eight bits (R164) -/

/-- A payload byte whose bits are taken: the phase tells whether DLEN is reached. -/
theorem exec_payloadByte_ok (he : s.err = .noFault) (hp : s.phase = .dpay) (h : payloadBits (bitsOf b) s = .ok u) :
    exec (.dbyte b) s = .next { u with phase := if u.bitcnt = s.dlen then .dtail else .dpay } := by
  obtain ⟨w, o, n, rfl, _⟩ := payloadBits_ok h
  rw [exec_payloadByte b he hp, h]
  simp only
  split
  · rfl
  · rw [← hp]

theorem exec_payloadByte_corrupt (he : s.err = .noFault) (hp : s.phase = .dpay) (h : payloadBits (bitsOf b) s = corrupt) :
    exec (.dbyte b) s = .next { s with err := .corruptArtifact, einfo := encode (.dbyte b) } := by
  rw [exec_payloadByte b he hp, h]
  rfl

/-- A payload byte whose bits are taken unless a check refuses them. -/
theorem exec_payloadByte_ite {c : Prop} [Decidable c] (he : s.err = .noFault) (hp : s.phase = .dpay)
    (h : payloadBits (bitsOf b) s = if c then corrupt else .ok u) :
    exec (.dbyte b) s = .next
      (if c then { s with err := .corruptArtifact, einfo := encode (.dbyte b) }
      else { u with phase := if u.bitcnt = s.dlen then .dtail else .dpay }) := by
  by_cases hc : c
  · rw [if_pos hc] at h ⊢
    exact exec_payloadByte_corrupt he hp h
  · rw [if_neg hc] at h ⊢
    exact exec_payloadByte_ok he hp h

/-- A payload byte that raises nothing had its bits taken. -/
theorem payloadBits_of_exec (he : s.err = .noFault) (hp : s.phase = .dpay) (h : exec (.dbyte b) s = .next t)
    (ht : t.err = .noFault) :
    ∃ u, payloadBits (bitsOf b) s = .ok u ∧ t = { u with phase := if u.bitcnt = s.dlen then .dtail else .dpay } := by
  cases hbits : payloadBits (bitsOf b) s with
  | ok u =>
    rw [exec_payloadByte_ok he hp hbits] at h
    cases h
    exact ⟨u, rfl, rfl⟩
  | error e =>
    rcases payloadBits_error hbits with rfl | rfl
    · rw [exec_payloadByte_corrupt he hp hbits] at h
      cases h
      cases ht
    · rw [exec_payloadByte b he hp, hbits] at h
      cases h

/-- Bit `k` of a byte in the order of R63. -/
theorem getElem?_bitsOf {k : Nat} (hk : k < 8) : (bitsOf b)[k]? = some (b.getLsbD (7 - k)) := by
  rw [bitsOf_eq, List.getElem?_map, List.getElem?_range hk]
  rfl

/-- The pad bits of a byte, one by one. -/
theorem getLsbD_of_drop_bitsOf {d k : Nat} (h : (bitsOf b).drop d = List.replicate (8 - d) false) (hd : d ≤ k) (hk : k < 8) :
    b.getLsbD (7 - k) = false := by
  have hbit : ((bitsOf b).drop d)[k - d]? = some (b.getLsbD (7 - k)) := by
    rw [List.getElem?_drop, Nat.add_sub_cancel' hd, getElem?_bitsOf hk]
  rw [h, List.getElem?_replicate_of_lt (by omega)] at hbit
  exact (Option.some.inj hbit).symm

theorem any_bitsOf_iff : (bitsOf b).any id = true ↔ b ≠ 0#8 := by
  revert b
  decide

/-- How far a string of `k` payload bits counts (R164). -/
theorem toNat_ofNat_min (s : State) (k : Nat) :
    (BitVec.ofNat 64 (min (s.bitcnt.toNat + k) s.dlen.toNat)).toNat = min (s.bitcnt.toNat + k) s.dlen.toNat :=
  Nat.mod_eq_of_lt ((Nat.min_le_right _ _).trans_lt s.dlen.isLt)

/-- Settles O48: the byte is its eight payload bits; what was taken is read off the bits, and in a sound state they are the walk
in the tree of FREQ. -/
theorem payloadByteTaken : Obligations.PayloadByteTaken := by
  intro s b he hp
  refine ⟨fun u hu => exec_payloadByte_ok he hp hu, fun hlt t hexec ht => ?taken, fun hsound hlt hroot => ⟨?turn, ?walk⟩⟩
  case taken =>
    obtain ⟨u, hu, rfl⟩ := payloadBits_of_exec he hp hexec ht
    obtain ⟨hcount, hboundary, hpad⟩ := payloadBits_taken _ hu hlt.le fun e => absurd (congrArg BitVec.toNat e) hlt.ne
    obtain ⟨w, o, n, rfl, _⟩ := payloadBits_ok hu
    refine ⟨hcount, fun hend => ⟨if_pos hend, hboundary hend⟩, fun hmore => if_neg hmore, fun k hk hdeclared => ?_, rfl⟩
    exact getLsbD_of_drop_bitsOf hpad (by omega) hk
  case turn => exact decBit_childOf (hsound.treeOfFreq (by rw [hp]; rfl)) hsound.2 hroot
  case walk =>
    have htree : TreeOfFreq s := hsound.treeOfFreq (by rw [hp]; rfl)
    exact ⟨_, toNat_ofNat_min s 8, exec_payloadByte_ite he hp (payloadBits_walkBits _ htree hsound.2 hroot hlt.le
      (fun e => absurd (congrArg BitVec.toNat e) hlt.ne) (toNat_ofNat_min s 8))⟩

/-- Settles O49: the byte is a string of single-leaf bits, and only the byte 0 has no 1 bit. -/
theorem singleLeafPayloadByte : Obligations.SingleLeafPayloadByte := by
  intro s b he hp hlt hroot hleaf hwalk
  have hbits := payloadBits_single (bitsOf b) s hlt.le hroot hleaf hwalk
  refine ⟨_, toNat_ofNat_min s 8, ?_⟩
  by_cases hb : b = 0#8
  · rw [if_pos hb, toNat_ofNat_min]
    exact exec_payloadByte_ok he hp (hbits.trans (if_neg (mt any_bitsOf_iff.1 (not_not.2 hb))))
  · rw [if_neg hb]
    exact exec_payloadByte_corrupt he hp (hbits.trans (if_pos (any_bitsOf_iff.2 hb)))

/-! ### The end of an artifact (R167, R168) -/

/-- Settles O50: in DTAIL the rule of DBYTE is the fault. -/
theorem trailingByteIsCorrupt : Obligations.TrailingByteIsCorrupt := by
  intro s b he hp
  rw [exec_dbyte]
  exact execute_raised he (by rw [hp]; rfl) (by rw [dbyteRule, hp]; rfl)

/-- Settles O51: DEND is accepted in all four phases, and its rule asks for DTAIL. -/
theorem dendEndsTheCall : Obligations.DendEndsTheCall := by
  intro s he
  rw [exec_dend]
  refine ⟨fun hp => execute_ok he (by rw [hp]; rfl) (if_pos hp), fun hp => execute_raised he ?_ ?_⟩
  · rcases hp with hp | hp | hp <;> rw [hp] <;> rfl
  · refine if_neg fun htail => ?_
    rw [htail] at hp
    simp at hp

end Sys2Proof.Machine
end

section
/-!
What payload bits and symbols have to do with each other in the tree of FREQ (spec rules R130, R163 to R165): the codes of a
sequence are walked to that sequence, and bits that are taken are the codes of what they emit, with 0 bits behind them.
-/
namespace Sys2Proof.Machine

open Sys2Proof.Safety

variable {s t : State} {T : HTree} {c : Memory CodeEntry}

/-- The codes of a sequence, walked from the root, emit the sequence and come back to the root (R163). -/
theorem payloadBits_codes (htree : TreeOfFreq s) (hgen : genTable s.nn s.root s.node = .ok c) (S : List Sym)
    (hpresent : ∀ x ∈ S, Present s x) (hwalk : s.walk = s.root)
    (hlen : s.bitcnt.toNat + (S.flatMap (lookup c)).length ≤ s.dlen.toNat) :
    ∃ n : BitLen, n.toNat = s.bitcnt.toNat + (S.flatMap (lookup c)).length ∧
      payloadBits (S.flatMap (lookup c)) s = .ok { s with outs := s.outs ++ S, bitcnt := n } := by
  induction S generalizing s with
  | nil => exact ⟨s.bitcnt, rfl, by rw [List.append_nil]; rfl⟩
  | cons x S ih =>
    rw [List.flatMap_cons, List.length_append] at hlen
    obtain ⟨k, hk, hfirst⟩ :=
      walkOfACodeEmitsItsSymbol s c x htree hgen (hpresent x List.mem_cons_self) hwalk (by omega)
    obtain ⟨n, hn, hrest⟩ := ih (s := { s with outs := s.outs ++ [x], bitcnt := k }) htree hgen
      (fun y hy => hpresent y (List.mem_cons_of_mem x hy)) hwalk (by simp only [hk]; omega)
    refine ⟨n, ?_, ?_⟩
    · rw [hn, hk, List.flatMap_cons, List.length_append, Nat.add_assoc]
    · rw [List.flatMap_cons, payloadBits_append, hfirst]
      simpa only [List.append_assoc, List.singleton_append] using hrest

/-- In a tree of several leaves, each path is the code of its leaf's symbol (R130, R133 (d)). -/
theorem Coded.lookup_leaf (h : Coded s T c) (hmany : (present s.freq).length ≠ 1) {p : Nat × BitString} (hp : p ∈ T.codes) :
    lookup c (readNode s.node p.1).sym = p.2 := by
  have hj := (T.codes_leaf h.rep p hp).1
  have hcode := h.codes.code p.1 hj p.2 hp
  rw [if_neg hmany] at hcode
  rw [treeOfFreq_leaf h.tree p.1 hj, lookup, leafNode, hcode, codeBits_codeEntry p.2 (h.grown.length_path_le hp)]

section

variable {bits : BitString} (h : Coded s T c) (hwalk : s.walk = s.root) (hle : s.bitcnt.toNat ≤ s.dlen.toNat)
  (hlong : s.dlen.toNat ≤ s.bitcnt.toNat + bits.length) (hok : payloadBits bits s = .ok t)
include h hwalk hle hlong hok

/-- Bits taken under a single leaf are 0 bits, each the code of the one symbol (R132, R165). -/
theorem Coded.payloadBits_emitted_single (hone : (present s.freq).length = 1) :
    ∃ E, t.outs = s.outs ++ E ∧ bits.take (s.dlen.toNat - s.bitcnt.toNat) = E.flatMap (lookup c) := by
  obtain ⟨i, hi⟩ := List.exists_mem_of_length_pos (l := present s.freq) (by omega)
  obtain ⟨hi256, hipresent⟩ := mem_present.1 hi
  obtain ⟨hsym, hcode⟩ := h.single (x := symOf i) hone (by rwa [Present, toNat_symOf hi256])
  rw [payloadBits_single bits s hle (treeOfFreq_root_lt h.tree) (h.root_leaf_iff.2 hone) hwalk, hsym,
    Nat.min_eq_right hlong] at hok
  split at hok
  · cases hok
  · rename_i hzero
    cases hok
    refine ⟨_, rfl, ?_⟩
    have hbits : bits = List.replicate bits.length false :=
      List.eq_replicate_iff.2 ⟨rfl, by simpa using hzero⟩
    have hcodes : ∀ k : Nat, (List.replicate k (symOf i)).flatMap (lookup c) = List.replicate k false := fun k => by
      induction k with
      | zero => rfl
      | succ k ih => rw [List.replicate_succ, List.flatMap_cons, ih, hcode]; rfl
    rw [hcodes, hbits, List.take_replicate, Nat.min_eq_left (by omega)]

/-- Bits taken under several leaves, up to DLEN and back at the root, are the paths of the leaves they reach (R163). -/
theorem Coded.payloadBits_emitted_walk (hmany : (present s.freq).length ≠ 1) :
    ∃ E, t.outs = s.outs ++ E ∧ bits.take (s.dlen.toNat - s.bitcnt.toNat) = E.flatMap (lookup c) := by
  have hinternal : (readNode s.node s.root.toNat).leaf = false := Bool.eq_false_iff.2 (mt h.root_leaf_iff.1 hmany)
  obtain ⟨es, q, Y, hes, houts, hbits, hq, hend⟩ := payloadBits_walked h.rep bits rfl h.root (treeOfFreq_root_lt h.tree)
    hinternal [] T.sub_nil (hwalk ▸ h.root) (h.root ▸ hinternal) hle hok
  obtain ⟨hcount, hboundary, _⟩ := payloadBits_taken bits hok hle fun _ => hwalk
  have hback : t.walk = s.root := by
    obtain ⟨w, o, n, rfl, _⟩ := payloadBits_ok hok
    exact hboundary (BitVec.eq_of_toNat_eq (hcount.trans (Nat.min_eq_right hlong)))
  have hq_nil : q = [] := by
    by_contra hne
    have hbelow := (h.rep.sub q hq).2 hne
    rw [← hend, hback, h.root] at hbelow
    exact lt_irrefl _ hbelow
  refine ⟨es.map fun e => (readNode s.node e.1).sym, houts, ?_⟩
  calc bits.take (s.dlen.toNat - s.bitcnt.toNat)
      _ = es.flatMap Prod.snd := by rw [← List.nil_append (bits.take _), hbits, hq_nil, List.append_nil]
      _ = (es.map fun e => (readNode s.node e.1).sym).flatMap (lookup c) := by
        rw [List.flatMap_map]
        exact List.flatMap_congr fun e he => (h.lookup_leaf hmany (hes e he)).symm

/-- A string of payload bits that reaches DLEN, and is taken from the root on, is the codes of the symbols it emits, and then
0 bits (R163 to R165). -/
theorem Coded.payloadBits_emitted :
    ∃ E, t.outs = s.outs ++ E ∧
      bits = E.flatMap (lookup c) ++ List.replicate (bits.length - (s.dlen.toNat - s.bitcnt.toNat)) false := by
  obtain ⟨_, _, hpad⟩ := payloadBits_taken bits hok hle fun _ => hwalk
  have hdeclared : ∃ E, t.outs = s.outs ++ E ∧ bits.take (s.dlen.toNat - s.bitcnt.toNat) = E.flatMap (lookup c) := by
    by_cases hone : (present s.freq).length = 1
    · exact h.payloadBits_emitted_single hwalk hle hlong hok hone
    · exact h.payloadBits_emitted_walk hwalk hle hlong hok hone
  obtain ⟨E, houts, hE⟩ := hdeclared
  exact ⟨E, houts, by rw [← hE, ← hpad, List.take_append_drop]⟩

end

/-- The bits of a row of bytes fix the bytes (R63). -/
theorem flatMap_bitsOf_injective {bs bs' : List Byte} (h : bs.flatMap bitsOf = bs'.flatMap bitsOf) : bs = bs' := by
  induction bs generalizing bs' with
  | nil =>
    have hlength := congrArg List.length h
    rw [length_flatMap_bitsOf, length_flatMap_bitsOf, List.length_nil] at hlength
    exact (List.eq_nil_of_length_eq_zero (by omega)).symm
  | cons b bs ih =>
    cases bs' with
    | nil => cases h
    | cons b' bs' =>
      rw [List.flatMap_cons, List.flatMap_cons] at h
      obtain ⟨hfirst, hrest⟩ := List.append_inj h rfl
      have hb : b = b' := BitVec.eq_of_getLsbD_eq fun i hi => by
        have hbit := congrArg (fun l => l[7 - i]?) hfirst
        simp only [getElem?_bitsOf (show 7 - i < 8 by omega), Option.some.injEq] at hbit
        rwa [show 7 - (7 - i) = i by omega] at hbit
      rw [hb, ih hrest]

end Sys2Proof.Machine
end

section
/-!
The decode call DECOMPRESS B (spec rules R87, R169, R170) of an artifact whose header an encode call emitted: the header, then a
payload of the declared size, then DEND.
-/
namespace Sys2Proof.Machine

open Sys2Proof.Safety

variable {s t u w : State} {is : List Instr} {bs : List Byte} {S : List Sym}

/-! ### Invariants of a call -/

theorem runCommands_cons_eq_next {i : Instr} (h : runCommands (i :: is) s = .next t) :
    ∃ u, exec i s = .next u ∧ runCommands is u = .next t := by
  cases hexec : exec i s with
  | next u => exact ⟨u, rfl, runCommands_cons hexec ▸ h⟩
  | fault f => rw [runCommands, hexec] at h; cases h
  | refused r => rw [runCommands, hexec] at h; cases h

theorem KeptByRules.of_runCommands {P : State → Prop} (hP : KeptByRules P) (hs : P s) (h : runCommands is s = .next t) : P t := by
  induction is generalizing s with
  | nil => cases h; exact hs
  | cons i is ih =>
    obtain ⟨u, hexec, hrest⟩ := runCommands_cons_eq_next h
    exact ih (hP.exec hs hexec) hrest

/-- R102: a call starts with RST, so what every step keeps holds at its end, whatever state it started in. -/
theorem KeptByRules.call {P : State → Prop} (hP : KeptByRules P) (h : runCommands (.rst :: is) s = .next t) : P t := by
  rw [runCommands_cons (exec_rst s)] at h
  exact hP.of_runCommands (hP.cleared s) h

theorem runCommands_next_of_sound (hs : Sound s) (is : List Instr) : ∃ t, runCommands is s = .next t := by
  induction is generalizing s with
  | nil => exact ⟨s, rfl⟩
  | cons i is ih =>
    obtain ⟨u, hexec⟩ := exec_next_of_sound hs i
    rw [runCommands_cons hexec]
    exact ih (sound_kept.exec hs hexec)

/-! ### The header -/

/-- Equal tables have the same tree (R113). -/
theorem treeOfFreq_congr (hs : TreeOfFreq s) (ht : TreeOfFreq t) (h : ∀ i, i < 256 → readFreq s.freq i = readFreq t.freq i) :
    s.node = t.node ∧ s.nn = t.nn ∧ s.root = t.root := by
  obtain ⟨hnode, _, hnn, hroot⟩ := treeOfFreq_iff.1 hs
  obtain ⟨hnode', _, hnn', hroot'⟩ := treeOfFreq_iff.1 ht
  rw [(growForest_congr h []).1] at hnode hnn hroot
  exact ⟨hnode.trans hnode'.symm, hnn.trans hnn'.symm, hroot.trans hroot'.symm⟩

/-- The state `w` has read, in a call started in `u`, the header that `t` has emitted, and nothing of the payload. -/
structure HeaderRead (t u w : State) : Prop where
  sound : Sound w
  err : w.err = .noFault
  phase : w.phase = if w.dlen = 0#64 then .dtail else .dpay
  freq : ∀ i, i < 256 → readFreq w.freq i = readFreq t.freq i
  dlen : w.dlen = t.dlen
  bitcnt : w.bitcnt = 0#64
  walk : w.walk = w.root
  outs : w.outs = u.outs
  outb : w.outb = u.outb

/-- R88, R161, R162: DECOMPRESS takes the header of any tree of FREQ, unless that declares bits for an empty alphabet. -/
theorem exists_headerRead (ht : TreeOfFreq t) (hd : presentCount t.freq ≠ 0 ∨ t.dlen = 0#64) (u : State) :
    ∃ w, runCommands (.rst :: (headerBytes t.nleaf t.freq t.dlen).map .dbyte) u = .next w ∧ HeaderRead t u w := by
  obtain ⟨m, k, n, y, hfreq, hrun⟩ := runCommands_header t.freq t.nleaf t.dlen (clearCall u) (treeOfFreq_toNat_nleaf ht)
    rfl rfl rfl rfl rfl hd fun _ => rfl
  have hcall := (runCommands_cons (exec_rst u)).trans hrun
  exact ⟨_, hcall, sound_kept.call hcall, rfl, rfl, hfreq, rfl, rfl, rfl, rfl, rfl⟩

/-- DECOMPRESS of the header and a payload is the payload and DEND after the header. -/
theorem runCommands_decompress {header : List Byte}
    (hheader : runCommands (.rst :: header.map .dbyte) u = .next w) (bs : List Byte) :
    runCommands (Instr.decompress (header ++ bs)) u = runCommands (bs.map .dbyte ++ [.dend]) w := by
  rw [Instr.decompress, List.map_append, List.append_assoc, List.append_assoc, ← List.append_assoc [Instr.rst]]
  exact runCommands_append_next hheader

namespace HeaderRead

theorem tree (h : HeaderRead t u w) : TreeOfFreq w :=
  h.sound.treeOfFreq (by rw [h.phase]; split <;> rfl)

/-- The decoder has the encoder's tree, so the encoder's table is the table of it. -/
theorem table (h : HeaderRead t u w) (ht : TreeOfFreq t) (hgen : genTable t.nn t.root t.node = .ok t.code) :
    genTable w.nn w.root w.node = .ok t.code := by
  obtain ⟨hnode, hnn, hroot⟩ := treeOfFreq_congr h.tree ht h.freq
  rw [hnode, hnn, hroot, hgen]

theorem counted (h : HeaderRead t u w) {x : Sym} (hx : Present t x) : Present w x := by
  rwa [Present, h.freq x.toNat x.isLt]

theorem bitcnt_toNat (h : HeaderRead t u w) : w.bitcnt.toNat = 0 := by rw [h.bitcnt]; rfl

/-! ### The payload and DEND -/

/-- The payload bytes that a header declares are one string of payload bits, also where it declares none (R164, R166). -/
theorem payload_next (h : HeaderRead t u w) (hlen : bs.length = (w.dlen.toNat + 7) / 8) :
    (∀ x, payloadBits (bs.flatMap bitsOf) w = .ok x →
      runCommands (bs.map .dbyte) w = .next { x with phase := .dtail }) ∧
    ∀ y, runCommands (bs.map .dbyte) w = .next y → y.err = .noFault →
      ∃ x, payloadBits (bs.flatMap bitsOf) w = .ok x ∧ y = { x with phase := .dtail } := by
  by_cases hzero : w.dlen = 0#64
  · have hw : ({ w with phase := .dtail } : State) = w := by
      rw [show Phase.dtail = w.phase by rw [h.phase, if_pos hzero]]
    rw [hzero] at hlen
    rw [List.eq_nil_of_length_eq_zero hlen]
    refine ⟨fun x hx => ?_, fun y hy _ => ⟨w, rfl, ?_⟩⟩
    · cases hx
      exact congrArg Host.Outcome.next hw.symm
    · cases hy
      exact hw.symm
  · have hpos : w.dlen.toNat ≠ 0 := fun e => hzero (BitVec.eq_of_toNat_eq e)
    have hcount := h.bitcnt_toNat
    exact runCommands_payload bs w h.err (by rw [h.phase, if_neg hzero]) (by omega) (by omega)
      (by rw [hlen, hcount, Nat.sub_zero])

/-- A payload whose bits are taken, and DEND, end the call well (R168). -/
theorem taken_next (h : HeaderRead t u w) (hlen : bs.length = (w.dlen.toNat + 7) / 8) {x : State}
    (hx : payloadBits (bs.flatMap bitsOf) w = .ok x) :
    runCommands (bs.map .dbyte ++ [.dend]) w = .next { x with phase := .ddone } := by
  have herr : x.err = .noFault := by
    obtain ⟨_, _, _, rfl, _⟩ := payloadBits_ok hx
    exact h.err
  rw [runCommands_append_next ((h.payload_next hlen).1 x hx), runCommands_singleton]
  exact (dendEndsTheCall { x with phase := .dtail } herr).1 rfl

/-- R164, R167, R168: any payload of the declared size and DEND end with CorruptArtifact, or the payload's bits are taken and
the call ends well. -/
theorem payload_cases (h : HeaderRead t u w) (hlen : bs.length = (w.dlen.toNat + 7) / 8) :
    ∃ v, runCommands (bs.map .dbyte ++ [.dend]) w = .next v ∧
      (v.err = .corruptArtifact ∨
        ∃ x, payloadBits (bs.flatMap bitsOf) w = .ok x ∧ v = { x with phase := .ddone } ∧ v.err = .noFault) := by
  obtain ⟨y, hy⟩ := runCommands_next_of_sound h.sound (bs.map .dbyte)
  have hphase : w.phase = .dpay ∨ w.phase = .dtail := by
    rw [h.phase]
    split
    · exact .inr rfl
    · exact .inl rfl
  rcases runCommands_payload_err bs (.inl h.err) hphase hy with hgood | hcorrupt
  · obtain ⟨x, hx, rfl⟩ := (h.payload_next hlen).2 y hy hgood
    exact ⟨_, h.taken_next hlen hx, .inr ⟨x, hx, rfl, hgood⟩⟩
  · refine ⟨y, ?_, .inl hcorrupt⟩
    rw [runCommands_append_next hy]
    exact runCommands_faulted _ (by rw [hcorrupt]; decide) (by simp)

end HeaderRead

/-! ### The artifact of a sequence -/

/-- What the end `t` of an encode call of `S` says of the artifact: its table is that of the symbols, and its payload is their
codes and 0 bits (R133, R144, R145). -/
structure Encoded (t : State) (S : List Sym) (payload : List Byte) : Prop where
  tree : TreeOfFreq t
  table : genTable t.nn t.root t.node = .ok t.code
  counted : ∀ x ∈ S, Present t x
  dlen : t.dlen.toNat = (S.flatMap (lookup t.code)).length
  length : payload.length = (t.dlen.toNat + 7) / 8
  bits : payload.flatMap bitsOf = S.flatMap (lookup t.code) ++ List.replicate (8 * payload.length - t.dlen.toNat) false

/-- R145: an encode call of countable symbols, from every state. -/
theorem exists_encoded (s : State) (p : BitVec 1) (hS : ∀ x, S.count x < 2 ^ 32) (hpolicy : p = 0#1 ∨ S ≠ []) :
    ∃ t payload, runCommands (Instr.compress p S) s = .next t ∧ t.err = .noFault ∧ t.phase = .edone ∧
      t.outb = s.outb ++ headerBytes t.nleaf t.freq t.dlen ++ payload ∧ Encoded t S payload := by
  obtain ⟨t, payload, hrun, herr, hphase, hfreq, hdlen, houtb, _, hlength, hbits⟩ := encodeCallEmitsTheArtifact s p S hS hpolicy
  have hsound : Sound t := sound_kept.call hrun
  have htable := hsound.1.2
  rw [if_pos (by rw [hphase]; rfl)] at htable
  refine ⟨t, payload, hrun, herr, hphase, houtb, hsound.treeOfFreq (by rw [hphase]; rfl), htable, fun x hx habsent => ?_,
    by rw [hdlen, List.length_flatMap], hlength, hbits⟩
  have hpos := List.count_pos_iff.2 hx
  rw [← hfreq x, habsent] at hpos
  exact absurd hpos (by decide)

namespace Encoded

variable {payload : List Byte}

/-- The empty alphabet has no bits. -/
theorem declares_nothing_of_empty (h : Encoded t S payload) : presentCount t.freq ≠ 0 ∨ t.dlen = 0#64 := by
  cases S with
  | nil => exact .inr (BitVec.eq_of_toNat_eq h.dlen)
  | cons x S => exact .inl fun hnone => h.counted x List.mem_cons_self (presentCount_eq_zero hnone x)

/-- R169: after its own header, the payload is taken and emits the sequence. -/
theorem payloadBits_payload (h : Encoded t S payload) (hw : HeaderRead t u w) :
    ∃ n, payloadBits (payload.flatMap bitsOf) w = .ok { w with outs := w.outs ++ S, bitcnt := n } := by
  obtain ⟨n, hn, htaken⟩ := payloadBits_codes hw.tree (hw.table h.tree h.table) S (fun x hx => hw.counted (h.counted x hx))
    hw.walk (by rw [hw.bitcnt_toNat, hw.dlen, h.dlen, Nat.zero_add])
  have hend : n = w.dlen := BitVec.eq_of_toNat_eq (by rw [hn, hw.bitcnt_toNat, hw.dlen, h.dlen, Nat.zero_add])
  refine ⟨n, ?_⟩
  rw [h.bits, payloadBits_append, htaken]
  exact payloadBits_pad _ hend

/-- R170: after that header, a payload of the same length whose bits are taken and emit the sequence is the payload. -/
theorem eq_payload_of_emitted (h : Encoded t S payload) (hw : HeaderRead t u w) {x : State}
    (hlen : bs.length = payload.length) (hx : payloadBits (bs.flatMap bitsOf) w = .ok x) (houts : x.outs = w.outs ++ S) :
    bs = payload := by
  by_cases hempty : present w.freq = []
  · have hzero : t.dlen = 0#64 := h.declares_nothing_of_empty.resolve_left (not_not.2 (by
      rw [presentCount_eq, ← present_congr hw.freq, hempty]
      rfl))
    have hnil : payload.length = 0 := by rw [h.length, hzero]; rfl
    rw [List.eq_nil_of_length_eq_zero hnil, List.eq_nil_of_length_eq_zero (hlen.trans hnil)]
  · obtain ⟨T, hcoded⟩ := coded_of_genTable hw.tree hempty (hw.table h.tree h.table)
    have hcount := hw.bitcnt_toNat
    have hsize := length_flatMap_bitsOf bs
    have hlength := h.length
    rw [← hw.dlen] at hlength
    obtain ⟨E, hE, hbits⟩ := hcoded.payloadBits_emitted hw.walk (by omega) (by omega) hx
    rw [houts, List.append_cancel_left_eq] at hE
    refine flatMap_bitsOf_injective ?_
    rw [hbits, h.bits, ← hE, hsize, hlen, hcount, hw.dlen, Nat.sub_zero]

end Encoded

/-- Settles O59: the decoder has the encoder's tree, and the payload is the codes of the sequence. -/
theorem roundTrip : Obligations.RoundTrip := by
  intro s u p S hS hpolicy
  obtain ⟨t, payload, hrun, herr, hphase, houtb, hencoded⟩ := exists_encoded s p hS hpolicy
  obtain ⟨w, hheader, hw⟩ := exists_headerRead hencoded.tree hencoded.declares_nothing_of_empty u
  obtain ⟨n, htaken⟩ := hencoded.payloadBits_payload hw
  refine ⟨t, _, headerBytes t.nleaf t.freq t.dlen ++ payload, hrun, herr, hphase, by rw [houtb, List.append_assoc],
    (runCommands_decompress hheader payload).trans
      (hw.taken_next (by rw [hw.dlen, hencoded.length]) htaken), hw.err, rfl, ?_, hw.outb⟩
  exact congrArg (· ++ S) hw.outs

/-- Settles O60: a payload that is taken is the codes of what it emits, so only the original one emits the original symbols. -/
theorem changedPayloadIsNeverTheOriginal : Obligations.ChangedPayloadIsNeverTheOriginal := by
  intro s u p S hS hpolicy
  obtain ⟨t, payload, hrun, herr, _, houtb, hencoded⟩ := exists_encoded s p hS hpolicy
  obtain ⟨w, hheader, hw⟩ := exists_headerRead hencoded.tree hencoded.declares_nothing_of_empty u
  refine ⟨t, payload, hrun, herr, houtb, fun payload' hlen hchanged => ?_⟩
  obtain ⟨v, hv, hend⟩ := hw.payload_cases (bs := payload') (by rw [hlen, hw.dlen, hencoded.length])
  refine ⟨v, (runCommands_decompress hheader payload').trans hv, hend.imp_right ?_⟩
  rintro ⟨x, hx, rfl, hgood⟩
  exact ⟨hgood, rfl, fun houts => hchanged (hencoded.eq_payload_of_emitted hw hlen hx (houts.trans (hw.outs ▸ rfl)))⟩

end Sys2Proof.Machine
end

section
/-!
Faults of commands (spec rules R190 to R201): a reserved word, a command out of its phase, what any fault leaves, which commands
raise which code, and the bound of CNT.
-/
namespace Sys2Proof.Machine

open Sys2Proof.Safety

variable {i : Instr} {s t : State}

/-! ### A reserved word -/

/-- R84, R196: the decoder rejects an ill-formed word, and while no fault stands the command port raises IllegalCommand. -/
theorem presentWord_of_illFormed {w : Word} (he : s.err = .noFault) (hill : WellFormed w = false) :
    presentWord w s = .next { s with err := .illegalCommand, einfo := w } := by
  obtain ⟨r, hdecode⟩ := (rejectedWordsAreIllFormed w).2 hill
  rw [presentWord_of_decode_error hdecode, illegalWord, if_pos he, raise]

/-- Settles O6: the word is taken from the queue, and the command port raises the fault on the state without it. -/
theorem reservedWordRaisesIllegalCommand : Obligations.ReservedWordRaisesIllegalCommand := by
  intro s w rest hhost hill he
  calc step s
      _ = serve (.command w) { s with host := rest } := step_of_host_cons hhost
      _ = presentWord w { s with host := rest } := rfl
      _ = .next { s with host := rest, err := .illegalCommand, einfo := w } := presentWord_of_illFormed he hill

/-! ### Commands in and out of their phases -/

/-- The model's check of the phase follows the table Accept of R100. -/
theorem accepts_iff_mem_acceptedPhases {p : Phase} : accepts i p = true ↔ p ∈ acceptedPhases i := by
  cases i with
  | nop | rst => cases p <;> simp [accepts, acceptedPhases]
  | cfg | cnt | build | gen | emith | enc | flush | dbyte | dend => simp [accepts, acceptedPhases, or_assoc]

/-- R197: no phase is outside the table for RST, so every command out of its phase goes through the common steps. -/
theorem exec_sequence (he : s.err = .noFault) (ha : accepts i s.phase = false) :
    exec i s = .next { s with err := .sequence, einfo := encode i } := by
  have hi : i ≠ .rst := by
    rintro rfl
    cases ha
  rw [exec_eq_execute s hi, execute_sequence he ha]

/-- R190, R197: a command that leaves a fault was out of its phase or its own rule raised the fault, and all else stays. -/
theorem exec_fault_cases (he : s.err = .noFault) (h : exec i s = .next t) (hfault : t.err ≠ .noFault) :
    t = { s with err := t.err, einfo := encode i } ∧
      ((accepts i s.phase = false ∧ t.err = .sequence) ∨
        (accepts i s.phase = true ∧ ruleOf i s = .error (.raised t.err))) := by
  by_cases hi : i = .rst
  · subst hi
    cases eq_clearCall_of_exec_rst h
    exact absurd rfl hfault
  · rw [exec_eq_execute s hi] at h
    rcases execute_cases h with ⟨hne, _⟩ | ⟨_, ha, rfl⟩ | ⟨_, ha, hr⟩ | ⟨e, _, ha, hr, rfl⟩
    · exact absurd he hne
    · exact ⟨rfl, .inl ⟨ha, rfl⟩⟩
    · exact absurd ((ruleOf_effects hi ha hr).err.trans he) hfault
    · exact ⟨rfl, .inr ⟨ha, hr⟩⟩

/-- Settles O13: by either cause of a fault, only ERR and EINFO are written. -/
theorem faultsArePrecise : Obligations.FaultsArePrecise :=
  fun _ _ _ he h hfault => (exec_fault_cases he h hfault).1

/-- R191: which code a command leaves, with the commands that raise it; Sequence alone comes from any of them. -/
theorem exec_err_cases (he : s.err = .noFault) (h : exec i s = .next t) :
    t.err = .noFault ∨ (t.err = .sequence ∧ accepts i s.phase = false) ∨
    (t.err = .emptyInput ∧ i = .build) ∨ (t.err = .unsupportedSymbol ∧ ∃ x, i = .enc x) ∨
    (t.err = .corruptArtifact ∧ ((∃ b, i = .dbyte b) ∨ i = .dend)) ∨ (t.err = .countOverflow ∧ ∃ x, i = .cnt x) ∨
    (t.err = .lengthMismatch ∧ ((∃ x, i = .enc x) ∨ i = .flush)) := by
  by_cases hfault : t.err = .noFault
  · exact .inl hfault
  · rcases (exec_fault_cases he h hfault).2 with ⟨ha, hseq⟩ | ⟨ha, hr⟩
    · exact .inr (.inl ⟨hseq, ha⟩)
    · exact .inr (.inr (ruleOf_raised ha hr))

/-- Settles O12: the common steps raise Sequence by the phase alone, and no command's own rule raises it. -/
theorem sequenceFaultOutsideAcceptedPhases : Obligations.SequenceFaultOutsideAcceptedPhases := by
  intro i s he
  rw [← accepts_iff_mem_acceptedPhases]
  refine ⟨fun hout => exec_sequence he (Bool.eq_false_of_not_eq_true hout), fun hin t h hseq => ?_⟩
  have hcases := exec_err_cases he h
  simp [hseq, hin] at hcases

/-- Settles O14: for each code, the one case of `exec_err_cases` that has it. -/
theorem eachFaultHasItsCommands : Obligations.EachFaultHasItsCommands := by
  intro i s t he h
  rcases exec_err_cases he h with hcase | hcase | hcase | hcase | hcase | hcase | hcase <;> simp [hcase]

/-! ### CNT -/

/-- R13, R110: below its bound a count takes one more without wrapping. -/
theorem toNat_count_add_one {c : Count} (h : c ≠ 0xFFFFFFFF#32) : (c + 1#32).toNat = c.toNat + 1 := by
  bv_omega

/-- Settles O22: IDLE and COUNT accept CNT, whose rule answers by its check. -/
theorem cntCountsAndNeverWraps : Obligations.CntCountsAndNeverWraps := by
  intro s x he hphase
  have haccepts : accepts (.cnt x) s.phase = true := by simpa [accepts] using hphase
  rw [exec_cnt]
  refine ⟨fun hbelow => ⟨writeFreq s.freq x.toNat (readFreq s.freq x.toNat + 1#32),
    execute_ok he haccepts (if_neg hbelow), ?_, fun j hj => ?_⟩, fun hbound => execute_raised he haccepts (if_pos hbound)⟩
  · rw [readFreq_writeFreq, if_pos rfl, toNat_count_add_one hbelow]
  · rw [readFreq_writeFreq, if_neg hj]

end Sys2Proof.Machine
end
